-- ==== Sys2Proof/Word.lean ====
section
/-! DEFINITION. The word types of the elpremi decoder core: 32-bit CSR words (spec/10_state.md, section 2) and
8-bit buffer bytes (spec/20_memory.md rule R70). -/

namespace Sys2Proof

/-- A CSR word, and every 32-bit register of rule R20. -/
abbrev Word := BitVec 32

/-- A byte of INBUF, OUTBUF or a container field. -/
abbrev Byte := BitVec 8

end Sys2Proof
end

