-- ==== Sys2Proof/Config.lean ====
section
/-! DEFINITION. What an instance of the block fixes (rule R5's OPEN parameters) and the values the spec leaves
unspecified (spec/93_implementation_defined.md section 2). Each is opaque: nothing can be proved of its value. -/

namespace Sys2Proof

/-- How far the instance's IN_CAP lies above its lower bound 8 (rule R5: 8 ≤ IN_CAP ≤ 2^32 − 1). Log entry 4. -/
opaque Config.inCapAbove : Fin 4294967288

/-- The instance's IN_CAP at reset: every value of rule R5's range, and no other. Log entry 4. -/
def Config.inCap : Word := BitVec.ofNat 32 (8 + Config.inCapAbove.val)

/-- The instance's OUT_CAP at reset (rule R5: 0 ≤ OUT_CAP ≤ 2^32 − 1). Log entry 4. -/
opaque Config.outCap : Word

/-- FREE VALUE. What INBUF holds at an address the host has not written since reset (U11, U15): the byte after the
n-th reset, by address. It stands until the next reset, so a host read of it is idempotent (rule R82). Log entry 8. -/
opaque Config.anyInByte : Nat → Word → Byte

/-- FREE VALUE. What OUTBUF holds at or beyond `out_len` (U12, U15): the byte after the n-th reset, by what the engine
has emitted into OUTBUF since that reset and by address. Only an emit or a reset can change it, so a host read of it is
idempotent (rule R82). Log entry 8. -/
opaque Config.anyOutByte : Nat → List (Nat × Byte) → Word → Byte

end Sys2Proof
end

