-- ==== Sys2Proof/Syntax.lean ====
section
/-! DEFINITION. The selectors the block decodes (rule R112) and one constructor per row of spec/opcode_table.json.
The block has no instruction set (rule R2): its "instructions" are the values of four selectors, each in a space of
its own. -/

namespace Sys2Proof

/-- A selector value, in the space (the table's "format") the block reads it from (rule R112). -/
inductive Selector where
  /-- the continuation-marker byte the T_MARK step reads (rule R105) -/
  | marker (b : Byte)
  /-- the code-length byte the T_LEN step reads (rule R106) -/
  | length (b : Byte)
  /-- the 32-bit word a host writes to CTRL (rule R110) -/
  | ctrl (v : Word)
  /-- the 4-bit `phase` register (rule R21) -/
  | phase (p : BitVec 4)
deriving DecidableEq, Repr

/-- One constructor per row of spec/opcode_table.json. The command rows carry the IE bit of the CTRL word they
were decoded from (rule R110); a row that covers a range carries the value. -/
inductive Instr where
  /-- marker 0x00: more entries follow (R105, R139) -/
  | cont
  /-- marker 0xFF: the sentinel (R105, R139) -/
  | last
  /-- marker 0x01–0xFE (R105, R139) -/
  | reservedMarker (m : Byte)
  /-- code-length byte 1–255 (R106, R137) -/
  | codeLength (len : Byte)
  /-- code-length byte 0 (R106, R137) -/
  | reservedLength
  /-- CMD 0x0 (R211) -/
  | nop (ie : Bool)
  /-- CMD 0x1 (R212) -/
  | decompress (ie : Bool)
  /-- CMD 0x2 (R213) -/
  | loadTable (ie : Bool)
  /-- CMD 0x3 (R214) -/
  | decode (ie : Bool)
  /-- CMD 0x4–0xE (R216, R217) -/
  | reservedCmd (cmd : BitVec 4) (ie : Bool)
  /-- CMD 0xF (R215) -/
  | abort (ie : Bool)
  /-- phase 0x1 (R160) -/
  | hdr
  /-- phase 0x2 (R136) -/
  | tSym
  /-- phase 0x3 (R137) -/
  | tLen
  /-- phase 0x4 (R138) -/
  | tCode
  /-- phase 0x5 (R139) -/
  | tMark
  /-- phase 0x6 (R162) -/
  | pCheck
  /-- phase 0x7 (R184) -/
  | decodeStep
  /-- phase 0x8 (R186) -/
  | finish
  /-- phase 0x0: no engine step (R21) -/
  | idle
  /-- phase 0x9–0xF: never held (R21) -/
  | reservedPhase (code : BitVec 4)
deriving DecidableEq, Repr

end Sys2Proof
end

