-- ==== Sys2Proof/WellFormed.lean ====
section
/-! DEFINITION. Which instructions the encodings can express: a row that covers a range of selector values holds a
value of that range (spec/opcode_table.json; rules R105, R106, R110, R21). -/

namespace Sys2Proof

/-- Markers 0x01–0xFE are reserved; 0x00 and 0xFF are CONT and LAST (rule R105). -/
def Instr.markerReserved (m : Byte) : Bool := m != 0x00#8 && m != 0xFF#8

/-- Code lengths 1–255 are legal (rule R106). -/
def Instr.lengthLegal (len : Byte) : Bool := len != 0x00#8

/-- Commands 0x4–0xE are reserved (rule R110). -/
def Instr.cmdReserved (cmd : BitVec 4) : Bool := 4 ≤ cmd.toNat && cmd.toNat ≤ 14

/-- Phase codes 0x9–0xF are never held (rule R21). -/
def Instr.phaseReserved (code : BitVec 4) : Bool := 9 ≤ code.toNat

/-- The instruction is one the block's selectors can hold. -/
def Instr.wf : Instr → Bool
  | .cont | .last | .reservedLength => true
  | .reservedMarker m => Instr.markerReserved m
  | .codeLength len => Instr.lengthLegal len
  | .nop _ | .decompress _ | .loadTable _ | .decode _ | .abort _ => true
  | .reservedCmd cmd _ => Instr.cmdReserved cmd
  | .hdr | .tSym | .tLen | .tCode | .tMark | .pCheck | .decodeStep | .finish | .idle => true
  | .reservedPhase code => Instr.phaseReserved code

end Sys2Proof
end

