-- ==== Sys2Proof/Decode.lean ====
section
/-! DEFINITION. The four selector decoders of rule R112, each total: a reserved value is decoded to the constructor
of its reserved row, by name. After them the encoder, written from the same tables. -/

namespace Sys2Proof

/-- Rule R105. -/
def decodeMarker (b : Byte) : Instr :=
  if b = 0x00#8 then .cont else if b = 0xFF#8 then .last else .reservedMarker b

/-- Rule R106. -/
def decodeLength (b : Byte) : Instr :=
  if b = 0x00#8 then .reservedLength else .codeLength b

/-- CTRL[3:0] (rule R35). -/
def ctrlCmd (v : Word) : BitVec 4 := v.extractLsb' 0 4

/-- CTRL[8] (rule R35). -/
def ctrlIe (v : Word) : Bool := v.getLsbD 8

/-- Rules R110 and R111: CMD selects the command, IE goes with it, the other bits are ignored. -/
def decodeCtrl (v : Word) : Instr :=
  let cmd := ctrlCmd v
  let ie := ctrlIe v
  if cmd = 0x0#4 then .nop ie
  else if cmd = 0x1#4 then .decompress ie
  else if cmd = 0x2#4 then .loadTable ie
  else if cmd = 0x3#4 then .decode ie
  else if cmd = 0xF#4 then .abort ie
  else .reservedCmd cmd ie

/-- Rule R21. -/
def decodePhase (p : BitVec 4) : Instr :=
  if p = 0x0#4 then .idle
  else if p = 0x1#4 then .hdr
  else if p = 0x2#4 then .tSym
  else if p = 0x3#4 then .tLen
  else if p = 0x4#4 then .tCode
  else if p = 0x5#4 then .tMark
  else if p = 0x6#4 then .pCheck
  else if p = 0x7#4 then .decodeStep
  else if p = 0x8#4 then .finish
  else .reservedPhase p

/-- The decoder: what a selector value means in its own space (rule R112). -/
def decode : Selector → Instr
  | .marker b => decodeMarker b
  | .length b => decodeLength b
  | .ctrl v => decodeCtrl v
  | .phase p => decodePhase p

/-- The CTRL word `CMD | IE<<8` (rule R114), every reserved bit 0. -/
def encodeCtrl (cmd : BitVec 4) (ie : Bool) : Word :=
  cmd.setWidth 32 ||| (if ie then 0x100#32 else 0#32)

/-- The encoder, from rules R105, R106, R110 and R21. -/
def encode : Instr → Selector
  | .cont => .marker 0x00#8
  | .last => .marker 0xFF#8
  | .reservedMarker m => .marker m
  | .codeLength len => .length len
  | .reservedLength => .length 0x00#8
  | .nop ie => .ctrl (encodeCtrl 0x0#4 ie)
  | .decompress ie => .ctrl (encodeCtrl 0x1#4 ie)
  | .loadTable ie => .ctrl (encodeCtrl 0x2#4 ie)
  | .decode ie => .ctrl (encodeCtrl 0x3#4 ie)
  | .reservedCmd cmd ie => .ctrl (encodeCtrl cmd ie)
  | .abort ie => .ctrl (encodeCtrl 0xF#4 ie)
  | .idle => .phase 0x0#4
  | .hdr => .phase 0x1#4
  | .tSym => .phase 0x2#4
  | .tLen => .phase 0x3#4
  | .tCode => .phase 0x4#4
  | .tMark => .phase 0x5#4
  | .pCheck => .phase 0x6#4
  | .decodeStep => .phase 0x7#4
  | .finish => .phase 0x8#4
  | .reservedPhase code => .phase code

/-- The selector space a bare word of the table is taken from. DESIGN CHOICE (log entry 2): the four spaces of rule
R112 overlap as numbers, and the block itself always knows the space from where it reads the value. A 4-bit word is
a phase; a word of 16 to 32 bits is a CTRL word; of a byte, 0x0–0xE are phase codes, 0xF is the ABORT command
(phase 0xF is never held), 0xFF is the sentinel marker, and the rest are code lengths. -/
def tableSelector (nbits w : Nat) : Option Selector :=
  if 2 ^ nbits ≤ w then none
  else if nbits = 4 then some (.phase (BitVec.ofNat 4 w))
  else if nbits = 8 then
    if w ≤ 14 then some (.phase (BitVec.ofNat 4 w))
    else if w = 15 then some (.ctrl 0xF#32)
    else if w = 255 then some (.marker 0xFF#8)
    else some (.length (BitVec.ofNat 8 w))
  else if nbits = 16 ∨ nbits = 24 ∨ nbits = 32 then some (.ctrl (BitVec.ofNat 32 w))
  else none

/-- The instruction the decoder reads from a bare word of the opcode table; none where the word is of no selector's
width or wider than it says. -/
def decodeTableWord (nbits w : Nat) : Option Instr := (tableSelector nbits w).map decode

end Sys2Proof
end

