-- ==== Sys2Proof/Machine/State.lean ====
section
/-! DEFINITION. The state of the block (rules R20, R49, R5), the events that move it (rule R284), and the reasons a
step can stop. Plain data throughout. -/

namespace Sys2Proof.Machine

/-- Sparse storage by index, addresses strictly rising (`Memory.wf`, Machine/Ops.lean). An index that is not listed
has NO value: it has never been written. Log entries 6, 7, 8. -/
abbrev Memory (α : Type) := List (Nat × α)

/-- One entry of the code-table store (rule R29). `code` is sequence-indexed: code bit j is `code.getLsbD j`. -/
structure Entry where
  sym : Byte
  len : Byte
  code : BitVec 256
deriving DecidableEq, Repr

/-- The error kinds of rule R240; their numbers are `ErrKind.code` (Machine/Ops.lean). -/
inductive ErrKind where
  | truncHeader
  | truncTable
  | truncPayload
  | unmatchedTrailingBits
  | badMarker
  | badCodeLength
  | tableOverflow
  | outputOverflow
  | noTable
  | badCommand
  | aborted
deriving DecidableEq, Repr

/-- The reasons of `refuse(reason)` (rules R7, R49). -/
inductive RefuseReason where
  /-- R184, R188: the first DECODE step over a table that is not prefix-free -/
  | nonPrefixFreeTable
  /-- R83: the engine reads an INBUF byte the host has not written since reset -/
  | uninitInbuf
deriving DecidableEq, Repr

/-- One atomic host access to a port (rules R70 to R73). CSR addresses are word addresses (rule R71). -/
inductive HostAccess where
  | csrRead (w : BitVec 10)
  | csrWrite (w : BitVec 10) (v : Word)
  | inRead (a : Word)
  | inWrite (a : Word) (v : Byte)
  | outRead (a : Word)
  | outWrite (a : Word) (v : Byte)
deriving DecidableEq, Repr

/-- One event of rule R284. -/
inductive Event where
  /-- a host access to a port -/
  | host (h : HostAccess)
  /-- the `rst` input is asserted (rule R270) -/
  | reset
  /-- the engine's turn: one engine step if one is enabled -/
  | engine
deriving DecidableEq, Repr

/-- The block's state. Rule R20's elements, rule R5's parameters, rule R49's model-only elements, and the model's own
fields (`events`, `rdata`, `resets`; log entries 1, 8, 10). -/
structure State where
  /-- automaton phase (R21) -/
  phase : BitVec 4
  /-- operation running or last run (R22) -/
  op : BitVec 2
  /-- input offset of the next container byte (R23) -/
  pos : Word
  /-- payload bit length (R24) -/
  bitlen : Word
  /-- input offset of payload byte 0 (R25) -/
  paybase : Word
  /-- index of the next payload bit (R26) -/
  cursor : Word
  /-- accumulator bits; bit j of the sequence is `acc.getLsbD j` (R27) -/
  acc : BitVec 255
  /-- accumulator length (R27) -/
  accLen : BitVec 8
  /-- accumulator overflowed (R27) -/
  accOvf : Bool
  /-- bytes emitted (R28) -/
  outLen : Word
  /-- code-table store, indexes 0..255 (R29) -/
  ent : Memory Entry
  /-- committed entries (R30) -/
  tblCount : BitVec 9
  /-- a complete table is loaded (R30) -/
  tblValid : Bool
  /-- status flags (R31) -/
  done : Bool
  err : Bool
  cmdOvr : Bool
  wrIgn : Bool
  /-- error kind (R31, R240) -/
  errcode : BitVec 8
  /-- interrupt enable (R32) -/
  ie : Bool
  /-- valid bytes in the input buffer (R32) -/
  inLen : Word
  /-- offset where the next command starts reading (R32) -/
  inStart : Word
  /-- table readout selector (R32) -/
  tblIndex : BitVec 8
  /-- input buffer; a listed address is one with `inbuf_written` true (R55, R49) -/
  inbuf : Memory Byte
  /-- output buffer (R55) -/
  outbuf : Memory Byte
  /-- the instance's IN_CAP (R5, R45) -/
  inCap : Word
  /-- the instance's OUT_CAP (R5, R45) -/
  outCap : Word
  /-- sticky refusal mark and its reason (R49) -/
  refused : Option RefuseReason
  /-- PrefixFree of the loaded table (R49) -/
  tblPf : Bool
  /-- MODEL'S OWN: the events to come, next first (log entry 1) -/
  events : List Event
  /-- MODEL'S OWN: the data the last host read returned (log entry 10) -/
  rdata : Word
  /-- MODEL'S OWN: how many resets there have been; each leaves the buffers with new unspecified bytes (log entry 8) -/
  resets : Nat
deriving DecidableEq, Repr

/-- Why a step stops with a fault. Every one is safe: the model stops where the spec gives no effect, and no state
that a run from reset reaches raises one. -/
inductive Fault where
  /-- Raised by an engine turn with `phase` in 0x9–0xF, which rule R21 says is never held (log entry 13). Safe. -/
  | reservedPhase (code : BitVec 4)
  /-- Raised by an emit with `out_len > OUT_CAP`: rule R70 has no such OUTBUF byte (log entry 14). Safe. -/
  | outputByteNonexistent
  /-- Raised by a table step with `tbl_count ≥ 256`: rule R29 has no such entry (log entry 14). Safe. -/
  | tableEntryNonexistent
deriving DecidableEq, Repr

/-- Why a step has no meaning. Both are safe: no next state is given. -/
inductive Refusal where
  /-- Raised by an arm of `exec` whose instruction has no meaning yet. Safe. -/
  | notModelled (mnemonic : String)
  /-- Raised by an engine turn while the sticky mark `refused` is set: "While it is set the engine has no step"
  (R49; log entry 9). Safe. -/
  | engineRefused (reason : RefuseReason)
deriving DecidableEq, Repr

/-- The state right after reset (rules R56, R270, R271) of an instance with the given capacities. The accumulator
bits, which rule R56 leaves unspecified, are 0 here (log entry 5); buffers and table entries list nothing. -/
def State.resetOf (inCap outCap : Word) : State where
  phase := 0
  op := 0
  pos := 0
  bitlen := 0
  paybase := 0
  cursor := 0
  acc := 0
  accLen := 0
  accOvf := false
  outLen := 0
  ent := []
  tblCount := 0
  tblValid := false
  done := false
  err := false
  cmdOvr := false
  wrIgn := false
  errcode := 0
  ie := false
  inLen := 0
  inStart := 0
  tblIndex := 0
  inbuf := []
  outbuf := []
  inCap := inCap
  outCap := outCap
  refused := none
  tblPf := false
  events := []
  rdata := 0
  resets := 0

/-- The machine right after reset (rule R271: power-on is a reset), its capacities the instance's. -/
def State.reset : State := State.resetOf Config.inCap Config.outCap

end Sys2Proof.Machine
end

