-- ==== Sys2Proof/Machine/Operands.lean ====
section
/-! DEFINITION. How fields and bit sequences become values (rules R6, R74 to R77, R104). -/

namespace Sys2Proof.Machine

/-- `ceil8(n) = (n + 7) >> 3`, exact (rule R6). -/
def ceil8 (n : Nat) : Nat := (n + 7) / 8

/-- `BE32(b0,b1,b2,b3)`: `b0` is the most significant (rules R6, R74). -/
def be32 (b0 b1 b2 b3 : Byte) : Word := b0 ++ b1 ++ b2 ++ b3

/-- Byte k of a list of bytes read from INBUF; the readers only ask for k below the list's length. -/
def byteAt (bytes : List Byte) (k : Nat) : Byte := bytes.getD k 0

/-- Sequence bit k of a byte is byte bit `7 − k`, MSB first (rule R75). -/
def msbFirst (b : Byte) (k : Nat) : Bool := b.getLsbD (7 - k)

/-- Sequence bit j of a run of packed bytes: byte `j >> 3`, byte bit `7 − (j & 7)` (rules R76, R77). -/
def packedBit (bytes : List Byte) (j : Nat) : Bool := msbFirst (byteAt bytes (j / 8)) (j % 8)

/-- Set bit i of a bit sequence. -/
def setBit {w : Nat} (v : BitVec w) (i : Nat) (b : Bool) : BitVec w :=
  if b then v ||| BitVec.twoPow w i else v &&& ~~~(BitVec.twoPow w i)

/-- The bit vector whose bits 0..n−1 are `f 0 .. f (n−1)` and whose other bits are 0. -/
def ofBits (w : Nat) (f : Nat → Bool) : Nat → BitVec w
  | 0 => 0
  | n + 1 => setBit (ofBits w f n) n (f n)

/-- A code of length `len` unpacked from its bytes: `code[j] = (j < L) ? bytes[j >> 3][7 − (j & 7)] : 0`
(rule R138). The padding bits are discarded (rules R77, R115). -/
def unpackCode (len : Nat) (bytes : List Byte) : BitVec 256 := ofBits 256 (packedBit bytes) len

/-- Do two bit sequences agree in their first n bits? -/
def sameBits {u v : Nat} (n : Nat) (x : BitVec u) (y : BitVec v) : Bool :=
  (List.range n).all fun j => x.getLsbD j == y.getLsbD j

end Sys2Proof.Machine
end

