-- ==== Sys2Proof/Machine/Flags.lean ====
section
/-! DEFINITION. Phase and operation codes, BUSY, the status flags and the interrupt output (rules R21, R22, R31, R36,
R53, R54, R250). -/

namespace Sys2Proof.Machine

/-- The phase codes of rule R21. -/
def Phase.idle : BitVec 4 := 0x0
def Phase.hdr : BitVec 4 := 0x1
def Phase.tSym : BitVec 4 := 0x2
def Phase.tLen : BitVec 4 := 0x3
def Phase.tCode : BitVec 4 := 0x4
def Phase.tMark : BitVec 4 := 0x5
def Phase.pCheck : BitVec 4 := 0x6
def Phase.decode : BitVec 4 := 0x7
def Phase.finish : BitVec 4 := 0x8

/-- The operation codes of rule R22. -/
def Op.none : BitVec 2 := 0
def Op.decompress : BitVec 2 := 1
def Op.loadTable : BitVec 2 := 2
def Op.decode : BitVec 2 := 3

/-- The error numbers of rule R240. -/
def ErrKind.code : ErrKind → BitVec 8
  | .truncHeader => 0x01
  | .truncTable => 0x02
  | .truncPayload => 0x03
  | .unmatchedTrailingBits => 0x04
  | .badMarker => 0x05
  | .badCodeLength => 0x06
  | .tableOverflow => 0x07
  | .outputOverflow => 0x08
  | .noTable => 0x09
  | .badCommand => 0x0A
  | .aborted => 0x0B

/-- `BUSY = (phase ≠ IDLE)` (rule R21). -/
def State.busy (s : State) : Bool := s.phase != Phase.idle

/-- The output `irq = ie ∧ (done ∨ err)`, a level (rules R54, R250). -/
def State.irq (s : State) : Bool := s.ie && (s.done || s.err)

/-- STATUS as a host reads it (rule R36). -/
def State.statusWord (s : State) : Word :=
  (BitVec.ofBool s.busy).setWidth 32
  ||| (BitVec.ofBool s.done).setWidth 32 <<< 1
  ||| (BitVec.ofBool s.err).setWidth 32 <<< 2
  ||| (BitVec.ofBool s.cmdOvr).setWidth 32 <<< 3
  ||| (BitVec.ofBool s.wrIgn).setWidth 32 <<< 4
  ||| s.phase.setWidth 32 <<< 8
  ||| (BitVec.ofBool s.tblValid).setWidth 32 <<< 12
  ||| s.op.setWidth 32 <<< 13

/-- A host write of v to STATUS: write 1 to clear, in any phase (rule R36). -/
def State.clearFlags (s : State) (v : Word) : State :=
  { s with
    done := s.done && !v.getLsbD 1
    err := s.err && !v.getLsbD 2
    cmdOvr := s.cmdOvr && !v.getLsbD 3
    wrIgn := s.wrIgn && !v.getLsbD 4 }

/-- Error entry, `raise Err(code)` (rule R243). -/
def State.raise (s : State) (k : ErrKind) : State :=
  { s with errcode := k.code, err := true, done := false, phase := Phase.idle }

/-- Successful completion, `complete()` (rule R246). -/
def State.complete (s : State) : State :=
  { s with done := true, phase := Phase.idle }

/-- `refuse(reason)`: the sticky mark is the step's only effect (rules R7, R49). -/
def State.refuse (s : State) (r : RefuseReason) : State :=
  { s with refused := some r }

end Sys2Proof.Machine
end

