-- ==== Sys2Proof/Machine/Ops.lean ====
section
/-! DEFINITION. The operations the steps and the ports share: sparse storage, the range check, container reads, the
code-table store, the accumulator and the matcher, emitting, command start, and the reset event. Error entry and
completion stand beside the flags they write (Machine/Flags.lean). -/

namespace Sys2Proof.Machine

/-- What one instruction answers. -/
abbrev Result := Host.Outcome State Fault Refusal

/-- The canonical form: indexes strictly rising. -/
def Memory.wf {α : Type} : Memory α → Bool
  | [] => true
  | [_] => true
  | x :: y :: m => decide (x.1 < y.1) && Memory.wf (y :: m)

/-- The value at an index, if one was ever written there. -/
def Memory.read {α : Type} : Memory α → Nat → Option α
  | [], _ => none
  | (b, v) :: m, a => if b = a then some v else Memory.read m a

/-- Write one index, keeping the canonical form. -/
def Memory.write {α : Type} : Memory α → Nat → α → Memory α
  | [], a, v => [(a, v)]
  | (b, u) :: m, a, v =>
    if a < b then (a, v) :: (b, u) :: m
    else if a = b then (a, v) :: m
    else (b, u) :: Memory.write m a v

/-- Every listed index is below n. -/
def Memory.below {α : Type} (m : Memory α) (n : Nat) : Bool := m.all fun c => decide (c.1 < n)

/-- `inbuf_written[a]`: the host has written `inbuf[a]` since reset (rule R49). -/
def State.inbufWritten (s : State) (a : Nat) : Bool := (s.inbuf.read a).isSome

/-- `InRange(a, n)` iff `a + n ≤ in_len`, exactly (rule R80). -/
def State.inRange (s : State) (a n : Nat) : Bool := decide (a + n ≤ s.inLen.toNat)

/-- `MemRead(IN, a, n)` (rule R7); none if a byte of it was not written since reset (rule R83). -/
def State.memReadIn (s : State) (a : Nat) : Nat → Option (List Byte)
  | 0 => some []
  | n + 1 =>
    match s.inbuf.read a, s.memReadIn (a + 1) n with
    | some b, some bs => some (b :: bs)
    | _, _ => none

/-- The next n container bytes: the range check first (rule R80, raising the phase's truncation error), then the read
(rule R83, refusing an unwritten byte before any effect), then the step. -/
def State.containerField (s : State) (n : Nat) (trunc : ErrKind) (k : List Byte → Result) : Result :=
  if s.inRange s.pos.toNat n then
    match s.memReadIn s.pos.toNat n with
    | some bytes => k bytes
    | none => .next (s.refuse .uninitInbuf)
  else .next (s.raise trunc)

/-- What an entry of the store that no step has written holds: unspecified, and read by no rule (rule R29, U13).
A T_SYM or T_LEN step that writes one field of such an entry starts from this. Log entry 6. -/
def Entry.unwritten : Entry := { sym := 0, len := 0, code := 0 }

/-- `ent[i]` (rule R29). -/
def State.entry (s : State) (i : Nat) : Entry := (s.ent.read i).getD Entry.unwritten

/-- The entry under construction, `ent[tc]` with `tc = tbl_count`. -/
def State.openEntry (s : State) : Entry := s.entry s.tblCount.toNat

/-- Write the entry under construction and go on. The store has indexes 0..255 only (rule R29). -/
def State.storeEntry (s : State) (e : Entry) (k : State → State) : Result :=
  if s.tblCount.toNat < 256 then .next (k { s with ent := s.ent.write s.tblCount.toNat e })
  else .fault .tableEntryNonexistent

/-- T_MARK's commit: `tbl_count` and `pos` advance by one (rule R139). -/
def State.commitEntry (s : State) : State :=
  { s with tblCount := s.tblCount + 1, pos := s.pos + 1 }

/-- Is code a a prefix of code b (rule R180)? -/
def Entry.isPrefix (a b : Entry) : Bool :=
  decide (a.len.toNat ≤ b.len.toNat) && sameBits a.len.toNat a.code b.code

/-- `PrefixFree(ent, n)` (rule R180). -/
def State.prefixFree (s : State) (n : Nat) : Bool :=
  (List.range n).all fun i => (List.range n).all fun j => i == j || !(s.entry i).isPrefix (s.entry j)

/-- `PayloadBit(i)` (rules R76, R181); none if its byte was not written since reset (rule R83). -/
def State.payloadBit (s : State) (i : Nat) : Option Bool :=
  (s.inbuf.read (s.paybase.toNat + i / 8)).map fun b => msbFirst b (i % 8)

/-- Has the accumulator room for one more bit? -/
def State.accHasRoom (s : State) : Bool := !s.accOvf && decide (s.accLen.toNat < 255)

/-- `AccAppend(b)` (rule R182). -/
def State.accAppend (s : State) (b : Bool) : State :=
  if s.accOvf then s
  else if s.accLen = 255#8 then { s with accOvf := true }
  else { s with acc := setBit s.acc s.accLen.toNat b, accLen := s.accLen + 1 }

/-- Does `ent[i]` match the accumulator: equal length and equal bits, and no overflow (rule R183)? -/
def State.matchesEntry (s : State) (i : Nat) : Bool :=
  !s.accOvf && (s.entry i).len == s.accLen && sameBits s.accLen.toNat (s.entry i).code s.acc

/-- `Match(s)` (rule R183), in rising order of index. -/
def State.matchSet (s : State) : List Nat :=
  (List.range s.tblCount.toNat).filter s.matchesEntry

/-- `Emit(v)` (rule R185), then the rest of the step. OUTBUF has bytes 0..OUT_CAP−1 only (rule R70). -/
def State.emit (s : State) (v : Byte) (k : State → State) : Result :=
  if s.outLen = s.outCap then .next (s.raise .outputOverflow)
  else if s.outLen.toNat < s.outCap.toNat then
    .next (k { s with outbuf := s.outbuf.write s.outLen.toNat v, outLen := s.outLen + 1 })
  else .fault .outputByteNonexistent

/-- A DECODE step's last line: `if cursor == bitlen: phase <- FINISH` (rule R184). -/
def State.endOfPayload (s : State) : State :=
  if s.cursor = s.bitlen then { s with phase := Phase.finish } else s

/-- `CmdStart(o)` (rule R210). -/
def State.cmdStart (s : State) (o : BitVec 2) : State :=
  { s with done := false, err := false, errcode := 0, op := o, pos := s.inStart }

/-- Invalidate the table, as DECOMPRESS and LOAD_TABLE do at their start (rules R212, R213). -/
def State.clearTable (s : State) : State :=
  { s with tblCount := 0, tblValid := false, tblPf := false }

/-- Clear the decode state, as DECOMPRESS and DECODE do at their start (rules R212, R214). -/
def State.clearDecode (s : State) : State :=
  { s with outLen := 0, cursor := 0, accLen := 0, accOvf := false }

/-- A CTRL write of a command other than NOP and ABORT: IE first, then the command, or CMD_OVR while busy
(rules R210, R216). -/
def State.command (s : State) (ie : Bool) (start : State → State) : State :=
  let s1 := { s with ie := ie }
  if s1.busy then { s1 with cmdOvr := true } else start s1

/-- The reset event (rules R56, R270, R271). It keeps the instance's capacities, and the table entries
and accumulator bits, which reset does not clear. The contents of INBUF and OUTBUF are unspecified after it: nothing is
listed in either, and every unspecified byte is a new one (MODEL'S CHOICE, log entries 7, 8, 20). -/
def State.resetEvent (s : State) : State :=
  { State.resetOf s.inCap s.outCap with
    acc := s.acc
    ent := s.ent
    events := s.events
    rdata := s.rdata
    resets := s.resets + 1 }

end Sys2Proof.Machine
end

