-- ==== Sys2Proof/Machine/Commands.lean ====
section
/-! DEFINITION. The host commands: what a CTRL write does (spec/44_host_commands.md rules R210 to R217). -/

namespace Sys2Proof.Machine

/-- NOP (rule R211): no effect beyond IE, busy or not. -/
def execNop (ie : Bool) (s : State) : Result := .next { s with ie := ie }

/-- DECOMPRESS (rules R212, R216). -/
def execDecompress (ie : Bool) (s : State) : Result :=
  .next (s.command ie fun t =>
    { (t.cmdStart Op.decompress).clearTable.clearDecode with bitlen := 0, phase := Phase.hdr })

/-- LOAD_TABLE (rules R213, R216). -/
def execLoadTable (ie : Bool) (s : State) : Result :=
  .next (s.command ie fun t =>
    { (t.cmdStart Op.loadTable).clearTable with phase := Phase.tSym })

/-- DECODE (rules R214, R216). -/
def execDecode (ie : Bool) (s : State) : Result :=
  .next (s.command ie fun t =>
    let u := t.cmdStart Op.decode
    if u.tblValid then { u.clearDecode with phase := Phase.pCheck } else u.raise .noTable)

/-- Reserved commands (rules R216, R217). -/
def execReservedCmd (_cmd : BitVec 4) (ie : Bool) (s : State) : Result :=
  .next (s.command ie fun t => State.raise { t with done := false, op := Op.none } .badCommand)

/-- ABORT (rule R215). -/
def execAbort (ie : Bool) (s : State) : Result :=
  let t := { s with ie := ie }
  .next (if t.busy then t.raise .aborted else t)

end Sys2Proof.Machine
end

