-- ==== Sys2Proof/Machine/Engine.lean ====
section
/-! DEFINITION. The decode engine's steps DECODE and FINISH, and the two phases that have no step, IDLE and the codes
that are never held (spec/43_decode_engine.md rules R184 to R186; spec/10_state.md rule R21). -/

namespace Sys2Proof.Machine

/-- The next payload bit taken: the cursor advanced and the bit appended (rule R184). -/
def State.withBit (s : State) (b : Bool) : State := { s with cursor := s.cursor + 1 }.accAppend b

/-- A DECODE step's effect after its emit: the accumulator empty again (rule R184). -/
def State.afterEmit (s : State) : State := { s with accLen := 0 }.endOfPayload

/-- The DECODE step once bit b is read: append, match, emit at most one symbol; a bit that was not stored is not
matched (rules R184, R188). Under PrefixFree the match set has at most one element; its first is taken (log
entry 15). -/
def State.decodeBit (s : State) (b : Bool) : Result :=
  let t := s.withBit b
  match (if s.accHasRoom then t.matchSet else []) with
  | [] => .next t.endOfPayload
  | k :: _ => t.emit (t.entry k).sym State.afterEmit

/-- DECODE (rule R184). The two model refusals come first (rules R188, R83, R247). -/
def execDecodeStep (s : State) : Result :=
  if s.tblPf then
    match s.payloadBit s.cursor.toNat with
    | some b => s.decodeBit b
    | none => .next (s.refuse .uninitInbuf)
  else .next (s.refuse .nonPrefixFreeTable)

/-- FINISH (rule R186). -/
def execFinish (s : State) : Result :=
  if s.accLen = 0 ∧ s.accOvf = false then .next s.complete
  else .next (s.raise .unmatchedTrailingBits)

/-- IDLE: no engine step, so the engine's turn changes nothing (rule R21). -/
def execIdle (s : State) : Result := .next s

/-- Phase codes 0x9–0xF are never held, and the spec gives them no step (rule R21; log entry 13). -/
def execReservedPhase (code : BitVec 4) (_s : State) : Result := .fault (.reservedPhase code)

end Sys2Proof.Machine
end

