-- ==== Sys2Proof/Machine/Framer.lean ====
section
/-! DEFINITION. The container framer's steps HDR and P_CHECK (spec/42_container_framer.md rules R160, R162). -/

namespace Sys2Proof.Machine

/-- HDR (rule R160). -/
def execHdr (s : State) : Result :=
  s.containerField 4 .truncHeader fun h =>
    .next { s with
      bitlen := be32 (byteAt h 0) (byteAt h 1) (byteAt h 2) (byteAt h 3)
      pos := s.pos + 4
      phase := Phase.tSym }

/-- P_CHECK (rule R162). It reads no byte. -/
def execPCheck (s : State) : Result :=
  let nb := ceil8 s.bitlen.toNat
  if s.inRange s.pos.toNat nb then
    .next { s with
      paybase := s.pos
      pos := s.pos + BitVec.ofNat 32 nb
      cursor := 0
      accLen := 0
      accOvf := false
      phase := if s.bitlen = 0 then Phase.finish else Phase.decode }
  else .next (s.raise .truncPayload)

end Sys2Proof.Machine
end

