-- ==== Sys2Proof/Machine/Table.lean ====
section
/-! DEFINITION. The table codec's steps T_SYM, T_LEN, T_CODE and T_MARK, and what each marker and code-length byte
does once its step has read it (spec/41_table_codec.md rules R136 to R139). -/

namespace Sys2Proof.Machine

/-- T_SYM (rule R136). -/
def execTSym (s : State) : Result :=
  s.containerField 1 .truncTable fun bytes =>
    s.storeEntry { s.openEntry with sym := byteAt bytes 0 } fun t =>
      { t with pos := t.pos + 1, phase := Phase.tLen }

/-- The T_LEN step with the length byte read as 0 (rules R106, R137). -/
def execReservedLength (s : State) : Result := .next (s.raise .badCodeLength)

/-- The T_LEN step with the length byte read as L ≠ 0 (rules R106, R137). -/
def execCodeLength (len : Byte) (s : State) : Result :=
  s.storeEntry { s.openEntry with len := len } fun t =>
    { t with pos := t.pos + 1, phase := Phase.tCode }

/-- T_LEN (rule R137): the truncation check, then the length byte selects. -/
def execTLen (s : State) : Result :=
  s.containerField 1 .truncTable fun bytes =>
    if byteAt bytes 0 = 0x00#8 then execReservedLength s else execCodeLength (byteAt bytes 0) s

/-- T_CODE (rule R138): the whole field is checked and read in one step. -/
def execTCode (s : State) : Result :=
  let len := s.openEntry.len.toNat
  let nb := ceil8 len
  s.containerField nb .truncTable fun bytes =>
    s.storeEntry { s.openEntry with code := unpackCode len bytes } fun t =>
      { t with pos := t.pos + BitVec.ofNat 32 nb, phase := Phase.tMark }

/-- The T_MARK step with the marker read as 0x00: commit, then the next entry or TABLE_OVERFLOW (rule R139). -/
def execCont (s : State) : Result :=
  let t := s.commitEntry
  if t.tblCount = 256#9 then .next (t.raise .tableOverflow)
  else .next { t with phase := Phase.tSym }

/-- The T_MARK step with the marker read as 0xFF: commit, the table is valid, then the payload or completion
(rule R139). `tbl_pf` is set here (rule R49). -/
def execLast (s : State) : Result :=
  let t := s.commitEntry
  let u := { t with tblValid := true, tblPf := t.prefixFree t.tblCount.toNat }
  if u.op = Op.decompress then .next { u with phase := Phase.pCheck } else .next u.complete

/-- The T_MARK step with the marker read as 0x01–0xFE (rules R105, R139): the entry is not committed. -/
def execReservedMarker (_m : Byte) (s : State) : Result := .next (s.raise .badMarker)

/-- T_MARK (rule R139): the truncation check, then the marker selects. -/
def execTMark (s : State) : Result :=
  s.containerField 1 .truncTable fun bytes =>
    if byteAt bytes 0 = 0x00#8 then execCont s
    else if byteAt bytes 0 = 0xFF#8 then execLast s
    else execReservedMarker (byteAt bytes 0) s

end Sys2Proof.Machine
end

