-- ==== Sys2Proof/Machine/Dispatch.lean ====
section
/-! DEFINITION. The one dispatch from an instruction to its meaning. -/

namespace Sys2Proof.Machine

-- One arm per row of spec/opcode_table.json, in the table's order.
def exec (i : Instr) (s : State) : Host.Outcome State Fault Refusal :=
  match i with
  | .cont => Sys2Proof.Machine.execCont s
  | .last => Sys2Proof.Machine.execLast s
  | .reservedMarker m => Sys2Proof.Machine.execReservedMarker m s
  | .codeLength len => Sys2Proof.Machine.execCodeLength len s
  | .reservedLength => Sys2Proof.Machine.execReservedLength s
  | .nop ie => Sys2Proof.Machine.execNop ie s
  | .decompress ie => Sys2Proof.Machine.execDecompress ie s
  | .loadTable ie => Sys2Proof.Machine.execLoadTable ie s
  | .decode ie => Sys2Proof.Machine.execDecode ie s
  | .reservedCmd cmd ie => Sys2Proof.Machine.execReservedCmd cmd ie s
  | .abort ie => Sys2Proof.Machine.execAbort ie s
  | .hdr => Sys2Proof.Machine.execHdr s
  | .tSym => Sys2Proof.Machine.execTSym s
  | .tLen => Sys2Proof.Machine.execTLen s
  | .tCode => Sys2Proof.Machine.execTCode s
  | .tMark => Sys2Proof.Machine.execTMark s
  | .pCheck => Sys2Proof.Machine.execPCheck s
  | .decodeStep => Sys2Proof.Machine.execDecodeStep s
  | .finish => Sys2Proof.Machine.execFinish s
  | .idle => Sys2Proof.Machine.execIdle s
  | .reservedPhase code => Sys2Proof.Machine.execReservedPhase code s

end Sys2Proof.Machine
end

