-- ==== Sys2Proof/Machine/Ports.lean ====
section
/-! DEFINITION. The host's accesses to the CSR, INBUF and OUTBUF ports, but for the command a CTRL write runs (that
is `exec`'s): spec/10_state.md rules R33 to R50, spec/20_memory.md rules R70 to R73, R82. -/

namespace Sys2Proof.Machine

/-- The value of the ID register (rule R33). -/
def idValue : Word := 0x454C5031

/-- The registers of the CSR map (rule R34). -/
inductive Csr where
  | id
  | ctrl
  | status
  | errcode
  | inLen
  | inStart
  | pos
  | bitlen
  | bitpos
  | accLen
  | outLen
  | paybase
  | tblCount
  | tblIndex
  | tblEntry
  | inCap
  | tblCode (k : Nat)
  | outCap
  | reserved
deriving DecidableEq, Repr

/-- The CSR at a word address; its offset is four times the address (rules R34, R71). -/
def csrAt (w : BitVec 10) : Csr :=
  match w.toNat with
  | 0 => .id
  | 1 => .ctrl
  | 2 => .status
  | 3 => .errcode
  | 4 => .inLen
  | 5 => .inStart
  | 6 => .pos
  | 7 => .bitlen
  | 8 => .bitpos
  | 9 => .accLen
  | 10 => .outLen
  | 11 => .paybase
  | 12 => .tblCount
  | 13 => .tblIndex
  | 14 => .tblEntry
  | 15 => .inCap
  | 24 => .outCap
  | n => if 16 ≤ n ∧ n < 24 then .tblCode (n - 16) else .reserved

/-- Is the entry TBL_INDEX selects a committed one (rule R48)? -/
def State.indexCommitted (s : State) : Bool := decide (s.tblIndex.toNat < s.tblCount.toNat)

/-- The selected entry. -/
def State.selectedEntry (s : State) : Entry := s.entry s.tblIndex.toNat

/-- TBL_CODEk of an entry: bit (31 − m) is `code[32k + m]` (rule R48). -/
def Entry.codeWord (e : Entry) (k : Nat) : Word := ofBits 32 (fun p => e.code.getLsbD (32 * k + (31 - p))) 32

/-- What a CSR reads (rules R33 to R50). -/
def State.csrValue (s : State) : Csr → Word
  | .id => idValue
  | .ctrl => (BitVec.ofBool s.ie).setWidth 32 <<< 8
  | .status => s.statusWord
  | .errcode => s.errcode.setWidth 32
  | .inLen => s.inLen
  | .inStart => s.inStart
  | .pos => s.pos
  | .bitlen => s.bitlen
  | .bitpos => s.cursor
  | .accLen => s.accLen.setWidth 32 ||| (BitVec.ofBool s.accOvf).setWidth 32 <<< 8
  | .outLen => s.outLen
  | .paybase => s.paybase
  | .tblCount => s.tblCount.setWidth 32
  | .tblIndex => s.tblIndex.setWidth 32
  | .tblEntry =>
    if s.indexCommitted then
      s.selectedEntry.len.setWidth 32 <<< 8 ||| s.selectedEntry.sym.setWidth 32
    else 0
  | .inCap => s.inCap
  | .tblCode k => if s.indexCommitted then s.selectedEntry.codeWord k else 0
  | .outCap => s.outCap
  | .reserved => 0

/-- A host write that is dropped, with WR_IGN, while BUSY (rule R280). -/
def State.writeIdle (s : State) (write : State → State) : State :=
  if s.busy then { s with wrIgn := true } else write s

/-- A host write of v to a CSR other than CTRL; a write to an RO register or a reserved offset is ignored with no
flag (rules R36, R38, R39, R41, R47, R50). -/
def State.csrWrite (s : State) (v : Word) : Csr → State
  | .status => s.clearFlags v
  | .inLen => s.writeIdle fun t => { t with inLen := if v.toNat ≤ t.inCap.toNat then v else t.inCap }
  | .inStart => s.writeIdle fun t => { t with inStart := v }
  | .bitlen => s.writeIdle fun t => { t with bitlen := v }
  | .tblIndex => { s with tblIndex := v.setWidth 8 }
  | .id | .ctrl | .errcode | .pos | .bitpos | .accLen | .outLen | .paybase | .tblCount | .tblEntry | .inCap
  | .tblCode _ | .outCap | .reserved => s

/-- Return data to the host. A read has no side effect on the block and is idempotent (rule R82). -/
def State.answer (s : State) (v : Word) : State := { s with rdata := v }

/-- What an INBUF host read returns (rule R72): the byte the host wrote, any byte where it wrote none since reset
(U11), 0 beyond IN_CAP. -/
def State.inbufValue (s : State) (a : Word) : Word :=
  if a.toNat < s.inCap.toNat then
    ((s.inbuf.read a.toNat).getD (Config.anyInByte s.resets a)).setWidth 32
  else 0

/-- What OUTBUF holds for a host read (rule R73): the emitted byte below `out_len`, any byte at or beyond it (U12).
MODEL'S CHOICE (log entry 8): the free byte is one of the resets so far, of the bytes emitted since the last one, and of
the address. What the RAM holds is a function of these, so two stale reads are forced equal only where the RAM itself
cannot have changed between them. -/
def State.outbufByte (s : State) (a : Word) : Byte :=
  let free := Config.anyOutByte s.resets s.outbuf a
  if a.toNat < s.outLen.toNat then (s.outbuf.read a.toNat).getD free else free

/-- What an OUTBUF host read returns (rule R73): 0 beyond OUT_CAP. -/
def State.outbufValue (s : State) (a : Word) : Word :=
  if a.toNat < s.outCap.toNat then (s.outbufByte a).setWidth 32 else 0

/-- An INBUF host write (rule R72). -/
def State.inbufWrite (s : State) (a : Word) (v : Byte) : State :=
  if a.toNat < s.inCap.toNat then s.writeIdle fun t => { t with inbuf := t.inbuf.write a.toNat v }
  else s

/-- The command word of a host access: a CTRL write runs a command (rule R35); no other access does. -/
def commandWord : HostAccess → Option Word
  | .csrWrite w v => if csrAt w = .ctrl then some v else none
  | .csrRead _ | .inRead _ | .inWrite _ _ | .outRead _ | .outWrite _ _ => none

/-- A host access that runs no command. A host write to OUTBUF is dropped with no flag (rule R73). -/
def State.access (s : State) : HostAccess → State
  | .csrRead w => s.answer (s.csrValue (csrAt w))
  | .csrWrite w v => s.csrWrite v (csrAt w)
  | .inRead a => s.answer (s.inbufValue a)
  | .inWrite a v => s.inbufWrite a v
  | .outRead a => s.answer (s.outbufValue a)
  | .outWrite _ _ => s

/-- The next event and the state with it taken; with none left, the engine has the turn (rule R284; log entry 1). -/
def State.nextEvent (s : State) : Event × State :=
  match s.events with
  | [] => (.engine, s)
  | e :: rest => (e, { s with events := rest })

/-- The engine's turn, before any instruction: the instruction `phase` selects (rule R21), or none while the refusal
mark is set (rule R49; log entry 9). -/
def State.engineInstr (s : State) : Except Refusal Instr :=
  match s.refused with
  | some r => .error (.engineRefused r)
  | none => .ok (decodePhase s.phase)

/-- A phase, and at `pos` inside IN_LEN the byte its step reads. A `pos` at or beyond IN_LEN is moved to 0. -/
def State.placeByte (s : State) (p : BitVec 4) (b : Byte) : State :=
  let a : Word := if s.pos.toNat < s.inLen.toNat then s.pos else 0
  { s with
    phase := p
    pos := a
    inLen := if s.inLen = 0 then 1 else s.inLen
    inbuf := s.inbuf.write a.toNat b
    events := .engine :: s.events }

/-- The state in which the very next step reads this selector value and runs its instruction: the value where the
block reads it from, and the event that makes it read. A CTRL word needs the host's write, a phase code the
register, a marker or a code length its phase and its byte. Log entry 3. -/
def State.placeSelector (s : State) : Selector → State
  | .ctrl v => { s with events := .host (.csrWrite 1 v) :: s.events }
  | .phase p => { s with phase := p, events := .engine :: s.events }
  | .marker b => s.placeByte Phase.tMark b
  | .length b => s.placeByte Phase.tLen b

end Sys2Proof.Machine
end

