-- ==== Sys2Proof/Machine/Step.lean ====
section
/-! DEFINITION. One event (rule R284): a host access, a reset, or the engine's turn. Everything an event does stands
in the files it calls. -/

namespace Sys2Proof.Machine

/-- The engine's turn. -/
def State.engineTurn (s : State) : Host.Outcome State Fault Refusal :=
  match s.engineInstr with
  | .error r => .refused r
  | .ok i => exec i s

/-- A host access: a CTRL write runs its command (rule R35), any other access is the ports'. -/
def State.hostTurn (s : State) (h : HostAccess) : Host.Outcome State Fault Refusal :=
  match commandWord h with
  | some v => exec (decodeCtrl v) s
  | none => .next (s.access h)

/-- One step is one event. -/
def step (s : State) : Host.Outcome State Fault Refusal :=
  match s.nextEvent with
  | (.engine, t) => t.engineTurn
  | (.reset, t) => .next t.resetEvent
  | (.host h, t) => t.hostTurn h

/-- The state with the instruction of this table word placed where the next step reads it (log entries 2, 3); the
state itself where the word is no selector's. -/
def State.withFetchWord (s : State) (nbits w : Nat) : State :=
  match tableSelector nbits w with
  | some sel => s.placeSelector sel
  | none => s

end Sys2Proof.Machine
end

