-- ==== Sys2Proof/Machine/Invariant.lean ====
section
/-! DEFINITION. The invariants of every reachable state: rule R58 as the spec lists it, and the stronger one that
each step keeps. -/

namespace Sys2Proof.Machine

/-- Rule R58, clauses (a) to (g). -/
abbrev State.R58 (s : State) : Prop :=
  (s.accLen.toNat ≤ 255 ∧ (s.accOvf = true → s.accLen.toNat = 255))
  ∧ s.outLen.toNat ≤ s.outCap.toNat
  ∧ (s.tblCount.toNat ≤ 256 ∧ (s.tblValid = true → 1 ≤ s.tblCount.toNat))
  ∧ (s.phase = 0x7#4 ∨ s.phase = 0x8#4 →
      s.cursor.toNat ≤ s.bitlen.toNat ∧ s.paybase.toNat + ceil8 s.bitlen.toNat ≤ s.inLen.toNat
        ∧ s.tblValid = true)
  ∧ (s.phase = 0x7#4 → s.cursor.toNat < s.bitlen.toNat)
  ∧ s.inLen.toNat ≤ s.inCap.toNat
  ∧ ∀ i, i < s.tblCount.toNat → 1 ≤ (s.entry i).len.toNat ∧ (s.entry i).len.toNat ≤ 255

/-- Rule R29's guarantee for one entry: a legal length, and 0 in every code bit past it. -/
abbrev Entry.complete (e : Entry) : Prop :=
  1 ≤ e.len.toNat ∧ ∀ j, j < 256 → e.len.toNat ≤ j → e.code.getLsbD j = false

/-- The buffers and capacities (rules R5, R38, R70; the canonical form of Memory). -/
abbrev State.InvBuffers (s : State) : Prop :=
  8 ≤ s.inCap.toNat ∧ s.inLen.toNat ≤ s.inCap.toNat
  ∧ s.inbuf.wf = true ∧ s.inbuf.below s.inCap.toNat = true
  ∧ s.outbuf.wf = true ∧ s.outbuf.below s.outCap.toNat = true
  ∧ s.outLen.toNat ≤ s.outCap.toNat
  ∧ ∀ k, k < s.outLen.toNat → (s.outbuf.read k).isSome = true

/-- The code-table store (rules R29, R30, R49). -/
abbrev State.InvTable (s : State) : Prop :=
  s.ent.wf = true ∧ s.ent.below 256 = true
  ∧ s.tblCount.toNat ≤ 256
  ∧ (∀ i, i < s.tblCount.toNat → (s.entry i).complete)
  ∧ (s.tblValid = true → 1 ≤ s.tblCount.toNat ∧ s.tblPf = s.prefixFree s.tblCount.toNat)

/-- The flags: none is set during an operation, and DONE and ERR exclude each other (rules R31, R36, R243, R246). -/
abbrev State.InvFlags (s : State) : Prop :=
  (s.accOvf = true → s.accLen = 255#8)
  ∧ (s.busy = true → s.done = false ∧ s.err = false ∧ s.errcode = 0#8)
  ∧ (s.err = true → s.done = false ∧ s.errcode ≠ 0#8)

/-- While a container or a table loads: phases HDR and T_SYM to T_MARK (rules R136 to R139, R160, R212, R213). -/
abbrev State.InvLoading (s : State) : Prop :=
  (s.phase = 0x1#4 → s.op = 1#2 ∧ s.tblCount = 0#9 ∧ s.bitlen = 0#32)
  ∧ (1 ≤ s.phase.toNat ∧ s.phase.toNat ≤ 5 →
      s.tblCount.toNat < 256 ∧ s.tblValid = false ∧ (s.op = 1#2 ∨ s.op = 2#2)
        ∧ (s.op = 1#2 → s.outLen = 0#32 ∧ s.cursor = 0#32))
  ∧ (s.phase = 0x4#4 ∨ s.phase = 0x5#4 → 1 ≤ s.openEntry.len.toNat)
  ∧ (s.phase = 0x5#4 → s.openEntry.complete)

/-- While a payload is checked and decoded: phases P_CHECK, DECODE and FINISH (rules R162, R184, R191). -/
abbrev State.InvDecoding (s : State) : Prop :=
  (6 ≤ s.phase.toNat → s.tblValid = true ∧ (s.op = 1#2 ∨ s.op = 3#2))
  ∧ (s.phase = 0x6#4 → s.outLen = 0#32 ∧ s.cursor = 0#32)
  ∧ (7 ≤ s.phase.toNat →
      s.pos.toNat = s.paybase.toNat + ceil8 s.bitlen.toNat ∧ s.pos.toNat ≤ s.inLen.toNat
        ∧ s.outLen.toNat ≤ s.cursor.toNat ∧ s.cursor.toNat ≤ s.bitlen.toNat)
  ∧ (s.phase = 0x7#4 → s.cursor.toNat < s.bitlen.toNat)
  ∧ (s.phase = 0x8#4 → s.cursor = s.bitlen)
  ∧ s.phase.toNat ≤ 8

/-- The invariant that every step keeps. -/
abbrev State.Inv (s : State) : Prop :=
  s.InvBuffers ∧ s.InvTable ∧ s.InvFlags ∧ s.InvLoading ∧ s.InvDecoding

end Sys2Proof.Machine
end

