-- ==== Sys2Proof/Machine/Producer.lean ====
section
/-! DEFINITION. The reference producer (spec/41_table_codec.md rules R130 to R135): not hardware of the block (rule
R4), but what defines a well-formed container for the round-trip laws. -/

namespace Sys2Proof.Machine

/-- A code table: symbols and codes, each code a bit sequence (rule R130). -/
abbrev CodeTable := List (Byte × List Bool)

/-- Rule R130's conditions, with rule R134's bound on the number of entries. -/
def CodeTable.wf (T : CodeTable) : Bool :=
  decide (1 ≤ T.length) && decide (T.length ≤ 256)
    && T.all fun e => decide (1 ≤ e.2.length) && decide (e.2.length ≤ 255)

/-- Byte k of `Pack(c)`: bit `7 − m` is `c[8k + m]`, and 0 past the end (rule R132). -/
def packByte (c : List Bool) (k : Nat) : Byte := ofBits 8 (fun p => c.getD (8 * k + (7 - p)) false) 8

/-- `Pack(c)` (rule R132). -/
def pack (c : List Bool) : List Byte := (List.range (ceil8 c.length)).map (packByte c)

/-- The bytes of one entry (rule R131). -/
def entryBytes (e : Byte × List Bool) (mk : Byte) : List Byte :=
  e.1 :: BitVec.ofNat 8 e.2.length :: (pack e.2 ++ [mk])

/-- `Serialize(T)`: the marker is 0x00 but for the last entry's 0xFF (rules R130, R133). -/
def serialize : CodeTable → List Byte
  | [] => []
  | [e] => entryBytes e 0xFF
  | e :: f :: T => entryBytes e 0x00 ++ serialize (f :: T)

/-- `BE32bytes(B)` (rule R134). -/
def be32bytes (b : Word) : List Byte :=
  [b.extractLsb' 24 8, b.extractLsb' 16 8, b.extractLsb' 8 8, b.extractLsb' 0 8]

/-- `Container(B, T, P)` (rule R134). -/
def container (b : Word) (T : CodeTable) (payload : List Byte) : List Byte :=
  be32bytes b ++ serialize T ++ payload

/-- Rule R134's P for a bit length B: `|P| = ceil8(B)`, and the bits at indexes `≥ B` are 0. -/
def IsPayload (b : Word) (payload : List Byte) : Prop :=
  payload.length = ceil8 b.toNat
  ∧ ∀ i, b.toNat ≤ i → i < 8 * payload.length → packedBit payload i = false

/-- The codes of the entries `ks`, one after the other. -/
def concatCodes (T : CodeTable) (ks : List Nat) : List Bool := ks.flatMap fun k => (T.getD k (0, [])).2

/-- The payload's first B bits are the codes of the entries `ks`, one after the other (rule R134). -/
def Carries (b : Word) (T : CodeTable) (payload : List Byte) (ks : List Nat) : Prop :=
  (∀ k ∈ ks, k < T.length) ∧ (concatCodes T ks).length = b.toNat
  ∧ ∀ i, i < b.toNat → packedBit payload i = (concatCodes T ks).getD i false

/-- The table's codes are prefix-free (rules R134, R180). -/
def CodeTable.prefixFree (T : CodeTable) : Bool :=
  (List.range T.length).all fun i => (List.range T.length).all fun j =>
    i == j || !((T.getD i (0, [])).2.isPrefixOf (T.getD j (0, [])).2)

/-- `Container(B, T, P)` is well-formed for decoding (rule R134). -/
def WellFormedContainer (b : Word) (T : CodeTable) (payload : List Byte) : Prop :=
  T.wf = true ∧ IsPayload b payload ∧ T.prefixFree = true ∧ ∃ ks, Carries b T payload ks

/-- The bytes stand in INBUF from offset a, each written since reset. -/
def State.holdsBytes (s : State) (a : Nat) (bytes : List Byte) : Prop :=
  ∀ k, k < bytes.length → s.inbuf.read (a + k) = some (bytes.getD k 0)

end Sys2Proof.Machine
end

