-- ==== Sys2Proof/Safety.lean ====
section
/-! DEFINITION. Runs, reachable states, and what counts as a safe run and as a result. -/

namespace Sys2Proof.Machine

/-- n steps, ending at the first stop. -/
def runSteps : Nat → State → Host.Outcome State Fault Refusal
  | 0, s => .next s
  | n + 1, s =>
    match step s with
    | .next t => runSteps n t
    | .fault f => .fault f
    | .refused r => .refused r

/-- A state some run from reset reaches: any instance rule R5 allows, and any finite sequence of events (rule R284:
"Proofs must hold for every order"). -/
def State.Reachable (s : State) : Prop :=
  ∃ (inCap outCap : Word) (evs : List Event) (n : Nat),
    8 ≤ inCap.toNat ∧ runSteps n { State.resetOf inCap outCap with events := evs } = .next s

/-- A step is safe if it answers a next state that carries no refusal mark (rule R49: a refused state is never a
final state). -/
def Safe (o : Host.Outcome State Fault Refusal) : Prop := ∃ t, o = .next t ∧ t.refused = none

/-- A result exists only with BUSY = 0 and DONE = 1, only after a DECOMPRESS or a DECODE, which are what emits (rule
R44), and never over a refusal (rules R245, R282, R49). A LOAD_TABLE that completes keeps the bytes of the operation
before it, which may have failed (U20): they are no result. -/
abbrev State.HasResult (s : State) : Prop :=
  s.busy = false ∧ s.done = true ∧ (s.op = Op.decompress ∨ s.op = Op.decode) ∧ s.refused = none

/-- Byte k of a result (rule R282); none where there is no result (rule R245). -/
def State.resultByte (s : State) (k : Nat) : Option Byte :=
  if s.HasResult ∧ k < s.outLen.toNat then s.outbuf.read k else none

/-- Rule R284's runs, which may be unending: `e n` is the event that takes `r n` to `r (n + 1)`, and it is free. An engine
event in IDLE changes nothing (log entry 17); while the refusal mark is set there is none (log entry 9). -/
def IsRun (e : Nat → Event) (r : Nat → State) : Prop :=
  ∀ n, step { r n with events := [e n] } = .next (r (n + 1))

/-- "while BUSY = 1 and `refused` is false, one engine step" is enabled (rule R284). -/
def State.EngineEnabled (s : State) : Prop := s.busy = true ∧ s.refused = none

/-- Rule R284's fairness: an engine step that stays enabled is taken eventually. No other fairness is assumed. -/
def IsFair (e : Nat → Event) (r : Nat → State) : Prop :=
  ∀ n, (∀ m, n ≤ m → (r m).EngineEnabled) → ∃ m, n ≤ m ∧ e m = .engine

/-- How many of the first n events are the engine's. -/
def engineSteps (e : Nat → Event) (n : Nat) : Nat := ((List.range n).filter fun m => e m == .engine).length

end Sys2Proof.Machine
end

