-- ==== Sys2Proof/Certificates/Slice0/Obligations.lean ====
section
/-! DEFINITION. The statements for the provers, in the spec's own terms: register values as numbers, bits by index,
bytes through `Memory.read`. A next state written `{ s with f := t.f, … }` says that every field not named is
unchanged. -/

open Sys2Proof Sys2Proof.Machine

/-! ### Encodings -/

/-- Rules R105, R106, R110, R21, R112: no bit of an encoding is dropped. -/
def Obligations.DecodingAnEncodedInstructionGivesItBack : Prop :=
  ∀ i : Instr, i.wf = true → decode (encode i) = i

/-- Every selector value decodes to a well-formed instruction, which encodes back to the value; of a CTRL word only
CMD and IE are kept (rules R105, R106, R110, R111, R21). -/
def Obligations.EncodingADecodedSelectorKeepsItsBits : Prop :=
  ∀ sel : Selector, (decode sel).wf = true ∧
    encode (decode sel) = match sel with
      | .ctrl v => .ctrl (v &&& 0x0000010F#32)
      | .marker b => .marker b
      | .length b => .length b
      | .phase p => .phase p

/-- Selector values written out from rules R105, R106, R110 and R21. -/
def Obligations.WrittenOutWordsDecode : Prop :=
  decode (.marker 0b00000000#8) = .cont
  ∧ decode (.marker 0b11111111#8) = .last
  ∧ decode (.marker 0b01111111#8) = .reservedMarker 0x7F#8
  ∧ decode (.length 0b00001001#8) = .codeLength 9#8
  ∧ decode (.ctrl 0b00000000000000000000000100000001#32) = .decompress true
  ∧ decode (.ctrl 0b11111111111111111111111011110010#32) = .loadTable false
  ∧ decode (.ctrl 0b00000000000000000000000100001111#32) = .abort true
  ∧ decode (.phase 0b0111#4) = .decodeStep

/-- An engine turn runs the instruction `phase` selects, a CTRL write the command in its word, and the T_MARK and
T_LEN steps the instruction of the byte they read (rules R21, R35, R112, R139, R137). Around `exec` a step only takes
the event from the list of events to come, which is the model's own (log entry 1). -/
def Obligations.StepRunsTheDecodedInstruction : Prop :=
  (∀ s : State, s.refused = none → s.events = [] → step s = exec (decode (.phase s.phase)) s)
  ∧ (∀ (s : State) (rest : List Event), s.refused = none → s.events = .engine :: rest →
      step s = exec (decode (.phase s.phase)) { s with events := rest })
  ∧ (∀ (s : State) (rest : List Event) (v : Word), s.events = .host (.csrWrite 1#10 v) :: rest →
      step s = exec (decode (.ctrl v)) { s with events := rest })
  ∧ (∀ (s : State) (m : Byte), s.pos.toNat + 1 ≤ s.inLen.toNat → s.inbuf.read s.pos.toNat = some m →
      exec .tMark s = exec (decode (.marker m)) s)
  ∧ (∀ (s : State) (len : Byte), s.pos.toNat + 1 ≤ s.inLen.toNat → s.inbuf.read s.pos.toNat = some len →
      exec .tLen s = exec (decode (.length len)) s)

/-- MODEL'S CHOICE (log entries 2, 3): the table word placed by `withFetchWord` is the one the next step runs. -/
def Obligations.PlacedTableWordRunsNext : Prop :=
  ∀ (s : State) (nbits w : Nat) (i : Instr), s.refused = none → decodeTableWord nbits w = some i →
    step (s.withFetchWord nbits w) = exec i { s.withFetchWord nbits w with events := s.events }

/-! ### The container framer -/

/-- HDR (rule R160): a present header is loaded big-endian; a truncated one raises TRUNC_HEADER and changes nothing
else. -/
def Obligations.HdrLoadsTheBigEndianHeader : Prop :=
  (∀ (s : State) (h0 h1 h2 h3 : Byte), s.pos.toNat + 4 ≤ s.inLen.toNat →
    s.inbuf.read s.pos.toNat = some h0 → s.inbuf.read (s.pos.toNat + 1) = some h1 →
    s.inbuf.read (s.pos.toNat + 2) = some h2 → s.inbuf.read (s.pos.toNat + 3) = some h3 →
    ∃ t, exec .hdr s = .next t
      ∧ t.bitlen.toNat = h0.toNat * 2 ^ 24 + h1.toNat * 2 ^ 16 + h2.toNat * 2 ^ 8 + h3.toNat
      ∧ t.pos.toNat = s.pos.toNat + 4 ∧ t.phase = 0x2#4
      ∧ t = { s with bitlen := t.bitlen, pos := t.pos, phase := t.phase })
  ∧ (∀ s : State, s.inLen.toNat < s.pos.toNat + 4 →
    exec .hdr s = .next { s with errcode := 0x01#8, err := true, done := false, phase := 0x0#4 })

/-- P_CHECK (rule R162): a present payload region is placed and the accumulator and cursor cleared, with no byte
read; a truncated one raises TRUNC_PAYLOAD and changes nothing else. -/
def Obligations.PCheckPlacesThePayload : Prop :=
  (∀ s : State, s.pos.toNat + (s.bitlen.toNat + 7) / 8 ≤ s.inLen.toNat →
    ∃ t, exec .pCheck s = .next t
      ∧ t.paybase = s.pos ∧ t.pos.toNat = s.pos.toNat + (s.bitlen.toNat + 7) / 8
      ∧ t.cursor = 0#32 ∧ t.accLen = 0#8 ∧ t.accOvf = false
      ∧ (s.bitlen = 0#32 → t.phase = 0x8#4) ∧ (s.bitlen ≠ 0#32 → t.phase = 0x7#4)
      ∧ t = { s with paybase := t.paybase, pos := t.pos, cursor := t.cursor, accLen := t.accLen,
                     accOvf := t.accOvf, phase := t.phase })
  ∧ (∀ s : State, s.inLen.toNat < s.pos.toNat + (s.bitlen.toNat + 7) / 8 →
    exec .pCheck s = .next { s with errcode := 0x03#8, err := true, done := false, phase := 0x0#4 })

/-! ### The table codec -/

/-- T_SYM (rule R136): any symbol byte is stored in the open entry, which keeps its other fields; no other entry
changes. A missing byte raises TRUNC_TABLE and changes nothing else. -/
def Obligations.TSymStoresTheSymbol : Prop :=
  (∀ (s : State) (b : Byte), s.tblCount.toNat < 256 → s.pos.toNat + 1 ≤ s.inLen.toNat →
    s.inbuf.read s.pos.toNat = some b →
    ∃ t, exec .tSym s = .next t
      ∧ (t.entry s.tblCount.toNat).sym = b
      ∧ (t.entry s.tblCount.toNat).len = (s.entry s.tblCount.toNat).len
      ∧ (t.entry s.tblCount.toNat).code = (s.entry s.tblCount.toNat).code
      ∧ (∀ i, i ≠ s.tblCount.toNat → t.entry i = s.entry i)
      ∧ t.pos.toNat = s.pos.toNat + 1 ∧ t.phase = 0x3#4
      ∧ t = { s with ent := t.ent, pos := t.pos, phase := t.phase })
  ∧ (∀ s : State, s.inLen.toNat < s.pos.toNat + 1 →
    exec .tSym s = .next { s with errcode := 0x02#8, err := true, done := false, phase := 0x0#4 })

/-- T_LEN (rule R137): the truncation check comes first; then a length 0 raises BAD_CODE_LENGTH at that offset, and
any other length is stored in the open entry. -/
def Obligations.TLenChecksAndStoresTheLength : Prop :=
  (∀ (s : State) (b : Byte), s.tblCount.toNat < 256 → s.pos.toNat + 1 ≤ s.inLen.toNat →
    s.inbuf.read s.pos.toNat = some b → b.toNat ≠ 0 →
    ∃ t, exec .tLen s = .next t
      ∧ (t.entry s.tblCount.toNat).len = b
      ∧ (t.entry s.tblCount.toNat).sym = (s.entry s.tblCount.toNat).sym
      ∧ (t.entry s.tblCount.toNat).code = (s.entry s.tblCount.toNat).code
      ∧ (∀ i, i ≠ s.tblCount.toNat → t.entry i = s.entry i)
      ∧ t.pos.toNat = s.pos.toNat + 1 ∧ t.phase = 0x4#4
      ∧ t = { s with ent := t.ent, pos := t.pos, phase := t.phase })
  ∧ (∀ s : State, s.pos.toNat + 1 ≤ s.inLen.toNat → s.inbuf.read s.pos.toNat = some 0#8 →
    exec .tLen s = .next { s with errcode := 0x06#8, err := true, done := false, phase := 0x0#4 })
  ∧ (∀ s : State, s.inLen.toNat < s.pos.toNat + 1 →
    exec .tLen s = .next { s with errcode := 0x02#8, err := true, done := false, phase := 0x0#4 })

/-- The code-length selector's own two rows (rules R106, R137), once T_LEN has read the byte: 1 to 255 is a legal
length, and 0 is reserved. -/
def Obligations.CodeLengthByteActs : Prop :=
  (∀ (s : State) (len : Byte), len.toNat ≠ 0 → s.tblCount.toNat < 256 →
    ∃ t, exec (.codeLength len) s = .next t
      ∧ (t.entry s.tblCount.toNat).len = len
      ∧ (t.entry s.tblCount.toNat).sym = (s.entry s.tblCount.toNat).sym
      ∧ (t.entry s.tblCount.toNat).code = (s.entry s.tblCount.toNat).code
      ∧ (∀ i, i ≠ s.tblCount.toNat → t.entry i = s.entry i)
      ∧ t.pos = s.pos + 1#32 ∧ t.phase = 0x4#4
      ∧ t = { s with ent := t.ent, pos := t.pos, phase := t.phase })
  ∧ (∀ s : State, exec .reservedLength s =
      .next { s with errcode := 0x06#8, err := true, done := false, phase := 0x0#4 })

/-- T_CODE (rule R138): code bit j is byte `j >> 3`, bit `7 − (j & 7)`, of the field, and 0 from L on, whatever the
padding; a short field raises TRUNC_TABLE and leaves the code unwritten. -/
def Obligations.TCodeUnpacksTheCodeBits : Prop :=
  (∀ (s : State) (len : Nat) (byte : Nat → Byte), s.tblCount.toNat < 256 →
    (s.entry s.tblCount.toNat).len.toNat = len →
    s.pos.toNat + (len + 7) / 8 ≤ s.inLen.toNat →
    (∀ k, k < (len + 7) / 8 → s.inbuf.read (s.pos.toNat + k) = some (byte k)) →
    ∃ t, exec .tCode s = .next t
      ∧ (∀ j, j < 256 → (t.entry s.tblCount.toNat).code.getLsbD j =
          if j < len then (byte (j / 8)).getLsbD (7 - j % 8) else false)
      ∧ (t.entry s.tblCount.toNat).sym = (s.entry s.tblCount.toNat).sym
      ∧ (t.entry s.tblCount.toNat).len = (s.entry s.tblCount.toNat).len
      ∧ (∀ i, i ≠ s.tblCount.toNat → t.entry i = s.entry i)
      ∧ t.pos.toNat = s.pos.toNat + (len + 7) / 8 ∧ t.phase = 0x5#4
      ∧ t = { s with ent := t.ent, pos := t.pos, phase := t.phase })
  ∧ (∀ s : State,
      s.inLen.toNat < s.pos.toNat + ((s.entry s.tblCount.toNat).len.toNat + 7) / 8 →
    exec .tCode s = .next { s with errcode := 0x02#8, err := true, done := false, phase := 0x0#4 })

/-- T_MARK (rule R139), the step: the truncation check comes first and leaves the entry uncommitted; a reserved
marker raises BAD_MARKER at its offset; 0x00 and 0xFF commit the entry and advance `pos`. -/
def Obligations.TMarkReadsTheMarker : Prop :=
  (∀ s : State, s.inLen.toNat < s.pos.toNat + 1 →
    exec .tMark s = .next { s with errcode := 0x02#8, err := true, done := false, phase := 0x0#4 })
  ∧ (∀ (s : State) (m : Byte), s.pos.toNat + 1 ≤ s.inLen.toNat → s.inbuf.read s.pos.toNat = some m →
      1 ≤ m.toNat → m.toNat ≤ 254 →
    exec .tMark s = .next { s with errcode := 0x05#8, err := true, done := false, phase := 0x0#4 })
  ∧ (∀ (s : State) (m : Byte), s.tblCount.toNat < 256 → s.pos.toNat + 1 ≤ s.inLen.toNat →
      s.inbuf.read s.pos.toNat = some m → m.toNat = 0 ∨ m.toNat = 255 →
    ∃ t, exec .tMark s = .next t ∧ t.tblCount.toNat = s.tblCount.toNat + 1
      ∧ t.pos.toNat = s.pos.toNat + 1 ∧ t.ent = s.ent
      ∧ (m.toNat = 255 → t.tblValid = true) ∧ (m.toNat = 0 → t.tblValid = s.tblValid))

/-- Marker 0x00 (rule R139): the entry is committed; after the 256th it raises TABLE_OVERFLOW, else T_SYM follows. -/
def Obligations.ContCommitsAndContinues : Prop :=
  ∀ s : State, s.tblCount.toNat < 256 →
    ∃ t, exec .cont s = .next t
      ∧ t.tblCount.toNat = s.tblCount.toNat + 1 ∧ t.pos = s.pos + 1#32
      ∧ (s.tblCount.toNat = 255 → t.errcode = 0x07#8 ∧ t.err = true ∧ t.done = false ∧ t.phase = 0x0#4)
      ∧ (s.tblCount.toNat < 255 → t.errcode = s.errcode ∧ t.err = s.err ∧ t.done = s.done ∧ t.phase = 0x2#4)
      ∧ t = { s with tblCount := t.tblCount, pos := t.pos, errcode := t.errcode, err := t.err,
                     done := t.done, phase := t.phase }

/-- Marker 0xFF (rule R139): the entry is committed, the table is valid, and `tbl_pf` says whether its codes are
prefix-free (rule R180, stated here by bits); DECOMPRESS goes to P_CHECK, LOAD_TABLE completes. -/
def Obligations.LastEndsTheTable : Prop :=
  ∀ s : State, s.tblCount.toNat < 256 → s.op = 1#2 ∨ s.op = 2#2 →
    ∃ t, exec .last s = .next t
      ∧ t.tblCount.toNat = s.tblCount.toNat + 1 ∧ t.pos = s.pos + 1#32 ∧ t.tblValid = true
      ∧ (t.tblPf = true ↔ ∀ i j, i < t.tblCount.toNat → j < t.tblCount.toNat → i ≠ j →
          ¬((s.entry i).len.toNat ≤ (s.entry j).len.toNat
            ∧ ∀ b, b < (s.entry i).len.toNat →
                (s.entry i).code.getLsbD b = (s.entry j).code.getLsbD b))
      ∧ (s.op = 1#2 → t.phase = 0x6#4 ∧ t.done = s.done)
      ∧ (s.op = 2#2 → t.phase = 0x0#4 ∧ t.done = true)
      ∧ t = { s with tblCount := t.tblCount, pos := t.pos, tblValid := t.tblValid, tblPf := t.tblPf,
                     phase := t.phase, done := t.done }

/-- Markers 0x01–0xFE (rules R105, R139): BAD_MARKER, the entry not committed and `pos` left at the marker. -/
def Obligations.ReservedMarkerRaisesBadMarker : Prop :=
  ∀ (s : State) (m : Byte), 1 ≤ m.toNat → m.toNat ≤ 254 →
    decode (.marker m) = .reservedMarker m
    ∧ exec (.reservedMarker m) s =
        .next { s with errcode := 0x05#8, err := true, done := false, phase := 0x0#4 }

/-! ### The decode engine -/

/-- DECODE with room in the accumulator and no entry equal to the accumulator and the new bit (rule R184): the bit is
appended and nothing is emitted. -/
def Obligations.DecodeStepAccumulates : Prop :=
  ∀ (s : State) (b : Byte), s.tblPf = true → s.cursor.toNat < s.bitlen.toNat →
    s.inbuf.read (s.paybase.toNat + s.cursor.toNat / 8) = some b →
    s.accOvf = false → s.accLen.toNat < 255 →
    (∀ k, k < s.tblCount.toNat →
      ¬((s.entry k).len.toNat = s.accLen.toNat + 1
        ∧ (∀ j, j < s.accLen.toNat → (s.entry k).code.getLsbD j = s.acc.getLsbD j)
        ∧ (s.entry k).code.getLsbD s.accLen.toNat = b.getLsbD (7 - s.cursor.toNat % 8))) →
    ∃ t, exec .decodeStep s = .next t
      ∧ t.cursor.toNat = s.cursor.toNat + 1 ∧ t.accLen.toNat = s.accLen.toNat + 1
      ∧ (∀ j, j < s.accLen.toNat → t.acc.getLsbD j = s.acc.getLsbD j)
      ∧ t.acc.getLsbD s.accLen.toNat = b.getLsbD (7 - s.cursor.toNat % 8)
      ∧ (s.cursor.toNat + 1 = s.bitlen.toNat → t.phase = 0x8#4)
      ∧ (s.cursor.toNat + 1 ≠ s.bitlen.toNat → t.phase = s.phase)
      ∧ t = { s with cursor := t.cursor, acc := t.acc, accLen := t.accLen, phase := t.phase }

/-- DECODE with a prefix-free table and an entry k equal to the accumulator and the new bit (rules R184, R185): its
symbol is appended to the output, no other output byte changes, and the accumulator is empty again. -/
def Obligations.DecodeStepEmitsTheMatchedSymbol : Prop :=
  ∀ (s : State) (b : Byte) (k : Nat), s.tblPf = true → s.prefixFree s.tblCount.toNat = true →
    s.cursor.toNat < s.bitlen.toNat →
    s.inbuf.read (s.paybase.toNat + s.cursor.toNat / 8) = some b →
    s.accOvf = false → s.accLen.toNat < 255 → k < s.tblCount.toNat →
    (s.entry k).len.toNat = s.accLen.toNat + 1 →
    (∀ j, j < s.accLen.toNat → (s.entry k).code.getLsbD j = s.acc.getLsbD j) →
    (s.entry k).code.getLsbD s.accLen.toNat = b.getLsbD (7 - s.cursor.toNat % 8) →
    s.outLen.toNat < s.outCap.toNat →
    ∃ t, exec .decodeStep s = .next t
      ∧ t.outbuf.read s.outLen.toNat = some (s.entry k).sym
      ∧ (∀ a, a ≠ s.outLen.toNat → t.outbuf.read a = s.outbuf.read a)
      ∧ t.outLen.toNat = s.outLen.toNat + 1
      ∧ t.cursor.toNat = s.cursor.toNat + 1 ∧ t.accLen = 0#8
      ∧ (s.cursor.toNat + 1 = s.bitlen.toNat → t.phase = 0x8#4)
      ∧ (s.cursor.toNat + 1 ≠ s.bitlen.toNat → t.phase = s.phase)
      ∧ t = { s with outbuf := t.outbuf, outLen := t.outLen, cursor := t.cursor, acc := t.acc,
                     accLen := t.accLen, phase := t.phase }

/-- DECODE with a match and a full output (rules R184, R185, R244): OUTPUT_OVERFLOW, the cursor advanced and the
accumulator holding the matched code; no byte is written. -/
def Obligations.DecodeStepOverflowsAFullOutput : Prop :=
  ∀ (s : State) (b : Byte) (k : Nat), s.tblPf = true → s.cursor.toNat < s.bitlen.toNat →
    s.inbuf.read (s.paybase.toNat + s.cursor.toNat / 8) = some b →
    s.accOvf = false → s.accLen.toNat < 255 → k < s.tblCount.toNat →
    (s.entry k).len.toNat = s.accLen.toNat + 1 →
    (∀ j, j < s.accLen.toNat → (s.entry k).code.getLsbD j = s.acc.getLsbD j) →
    (s.entry k).code.getLsbD s.accLen.toNat = b.getLsbD (7 - s.cursor.toNat % 8) →
    s.outLen = s.outCap →
    ∃ t, exec .decodeStep s = .next t
      ∧ t.cursor.toNat = s.cursor.toNat + 1 ∧ t.accLen.toNat = s.accLen.toNat + 1
      ∧ (∀ j, j < t.accLen.toNat → t.acc.getLsbD j = (s.entry k).code.getLsbD j)
      ∧ t = { s with cursor := t.cursor, acc := t.acc, accLen := t.accLen,
                     errcode := 0x08#8, err := true, done := false, phase := 0x0#4 }

/-- DECODE with a full or overflowed accumulator (rules R182, R184): the bit is counted, not stored, the overflow mark
is set, and nothing matches. -/
def Obligations.DecodeStepPastTheLongestCode : Prop :=
  ∀ (s : State) (b : Byte), s.tblPf = true → s.cursor.toNat < s.bitlen.toNat →
    s.inbuf.read (s.paybase.toNat + s.cursor.toNat / 8) = some b →
    s.accOvf = true ∨ s.accLen.toNat = 255 →
    ∃ t, exec .decodeStep s = .next t
      ∧ t.cursor.toNat = s.cursor.toNat + 1 ∧ t.accOvf = true
      ∧ (s.cursor.toNat + 1 = s.bitlen.toNat → t.phase = 0x8#4)
      ∧ (s.cursor.toNat + 1 ≠ s.bitlen.toNat → t.phase = s.phase)
      ∧ t = { s with cursor := t.cursor, accOvf := t.accOvf, phase := t.phase }

/-- FINISH (rule R186): DONE exactly when the accumulator is empty; otherwise UNMATCHED_TRAILING_BITS. -/
def Obligations.FinishAcceptsOnlyAnEmptyAccumulator : Prop :=
  ∀ s : State,
    (s.accLen.toNat = 0 ∧ s.accOvf = false →
      exec .finish s = .next { s with done := true, phase := 0x0#4 })
    ∧ (s.accLen.toNat ≠ 0 ∨ s.accOvf = true →
      exec .finish s = .next { s with errcode := 0x04#8, err := true, done := false, phase := 0x0#4 })

/-- Under PrefixFree at most one entry matches, in any accumulator state (rules R183, R188). -/
def Obligations.GreedyMatchIsUnique : Prop :=
  ∀ s : State, s.prefixFree s.tblCount.toNat = true → s.matchSet.length ≤ 1

/-- The engine's turn in phase IDLE changes nothing but the event list (rule R21; MODEL'S CHOICE, log entry 17: the
engine's turn is an event of its own even while idle). -/
def Obligations.IdleTurnChangesNothing : Prop :=
  (∀ s : State, exec .idle s = .next s)
  ∧ (∀ (s : State) (rest : List Event), s.phase = 0x0#4 → s.refused = none → s.events = .engine :: rest →
      step s = .next { s with events := rest })

/-- MODEL'S CHOICE (log entry 13): in phase codes 0x9–0xF, of which rule R21 says "Codes 0x9–0xF are never held.",
the model stops by name. -/
def Obligations.ReservedPhaseStops : Prop :=
  ∀ (s : State) (p : BitVec 4), 9 ≤ p.toNat →
    decode (.phase p) = .reservedPhase p ∧ exec (.reservedPhase p) s = .fault (.reservedPhase p)

/-! ### The host commands -/

/-- NOP (rules R210, R211): busy or idle, only IE is written. -/
def Obligations.NopWritesOnlyIe : Prop :=
  ∀ (s : State) (v : Word), v.toNat % 16 = 0 →
    exec (decode (.ctrl v)) s = .next { s with ie := v.getLsbD 8 }

/-- DECOMPRESS while idle (rules R210, R212). -/
def Obligations.DecompressStarts : Prop :=
  ∀ (s : State) (ie : Bool), s.phase = 0x0#4 →
    exec (.decompress ie) s = .next { s with
      ie := ie, done := false, err := false, errcode := 0#8, op := 1#2, pos := s.inStart,
      bitlen := 0#32, tblCount := 0#9, tblValid := false, tblPf := false, outLen := 0#32, cursor := 0#32,
      accLen := 0#8, accOvf := false, phase := 0x1#4 }

/-- LOAD_TABLE while idle (rules R210, R213): bitlen, cursor, out_len, paybase and the accumulator are unchanged. -/
def Obligations.LoadTableStarts : Prop :=
  ∀ (s : State) (ie : Bool), s.phase = 0x0#4 →
    exec (.loadTable ie) s = .next { s with
      ie := ie, done := false, err := false, errcode := 0#8, op := 2#2, pos := s.inStart,
      tblCount := 0#9, tblValid := false, tblPf := false, phase := 0x2#4 }

/-- DECODE while idle (rules R210, R214): with a table it starts at P_CHECK; without one it raises NO_TABLE after the
command start's writes and changes nothing else. -/
def Obligations.DecodeCommandNeedsATable : Prop :=
  (∀ (s : State) (ie : Bool), s.phase = 0x0#4 → s.tblValid = true →
    exec (.decode ie) s = .next { s with
      ie := ie, done := false, err := false, errcode := 0#8, op := 3#2, pos := s.inStart,
      outLen := 0#32, cursor := 0#32, accLen := 0#8, accOvf := false, phase := 0x6#4 })
  ∧ (∀ (s : State) (ie : Bool), s.phase = 0x0#4 → s.tblValid = false →
    exec (.decode ie) s = .next { s with
      ie := ie, done := false, err := true, errcode := 0x09#8, op := 3#2, pos := s.inStart,
      phase := 0x0#4 })

/-- Reserved commands 0x4–0xE (rules R110, R217): idle, BAD_COMMAND with op NONE, and nothing else changes. -/
def Obligations.ReservedCommandRaisesBadCommand : Prop :=
  ∀ (s : State) (v : Word), s.phase = 0x0#4 → 4 ≤ v.toNat % 16 → v.toNat % 16 ≤ 14 →
    exec (decode (.ctrl v)) s = .next { s with
      ie := v.getLsbD 8, done := false, err := true, errcode := 0x0A#8, op := 0#2 }

/-- ABORT (rule R215): while busy it raises ABORTED before any other write; while idle it has no effect but IE's. -/
def Obligations.AbortStopsTheOperation : Prop :=
  (∀ (s : State) (ie : Bool), s.phase ≠ 0x0#4 →
    exec (.abort ie) s = .next { s with
      ie := ie, errcode := 0x0B#8, err := true, done := false, phase := 0x0#4 })
  ∧ (∀ (s : State) (ie : Bool), s.phase = 0x0#4 → exec (.abort ie) s = .next { s with ie := ie })

/-- A CTRL write of CMD 0x1 to 0xE while busy (rules R210, R216): dropped, CMD_OVR set, the operation unchanged. -/
def Obligations.BusyCommandIsDropped : Prop :=
  ∀ (s : State) (v : Word), s.phase ≠ 0x0#4 → 1 ≤ v.toNat % 16 → v.toNat % 16 ≤ 14 →
    exec (decode (.ctrl v)) s = .next { s with ie := v.getLsbD 8, cmdOvr := true }

/-! ### Errors, refusals, the interrupt -/

/-- Errors are precise (rules R243, R244): an engine step that raises changes nothing beside the error entry, but for
TABLE_OVERFLOW (count and pos advanced) and OUTPUT_OVERFLOW (cursor and accumulator advanced). -/
def Obligations.EngineErrorsArePrecise : Prop :=
  ∀ (s t : State) (i : Instr),
    i ∈ [Instr.hdr, .tSym, .tLen, .tCode, .tMark, .pCheck, .decodeStep, .finish] →
    exec i s = .next t → s.err = false → t.err = true →
    t.done = false ∧ t.phase = 0x0#4
    ∧ (t.errcode ≠ 0x07#8 → t.errcode ≠ 0x08#8 →
        t = { s with errcode := t.errcode, err := true, done := false, phase := 0x0#4 })
    ∧ (t.errcode = 0x07#8 → i = .tMark ∧
        t = { s with tblCount := s.tblCount + 1#9, pos := s.pos + 1#32,
                     errcode := 0x07#8, err := true, done := false, phase := 0x0#4 })
    ∧ (t.errcode = 0x08#8 → i = .decodeStep ∧
        t = { s with cursor := s.cursor + 1#32, acc := t.acc, accLen := s.accLen + 1#8,
                     errcode := 0x08#8, err := true, done := false, phase := 0x0#4 })

/-- An engine step whose read covers a byte not written since reset refuses, with no other effect (rule R83). -/
def Obligations.UnwrittenByteRefuses : Prop :=
  (∀ (s : State) (k : Nat), k < 4 → s.pos.toNat + 4 ≤ s.inLen.toNat →
    s.inbuf.read (s.pos.toNat + k) = none → exec .hdr s = .next { s with refused := some .uninitInbuf })
  ∧ (∀ (s : State) (i : Instr), i ∈ [Instr.tSym, .tLen, .tMark] → s.pos.toNat + 1 ≤ s.inLen.toNat →
    s.inbuf.read s.pos.toNat = none → exec i s = .next { s with refused := some .uninitInbuf })
  ∧ (∀ (s : State) (k : Nat), k < ((s.entry s.tblCount.toNat).len.toNat + 7) / 8 →
    s.pos.toNat + ((s.entry s.tblCount.toNat).len.toNat + 7) / 8 ≤ s.inLen.toNat →
    s.inbuf.read (s.pos.toNat + k) = none → exec .tCode s = .next { s with refused := some .uninitInbuf })
  ∧ (∀ s : State, s.tblPf = true → s.inbuf.read (s.paybase.toNat + s.cursor.toNat / 8) = none →
    exec .decodeStep s = .next { s with refused := some .uninitInbuf })

/-- A DECODE step over a table that is not prefix-free refuses before anything else (rules R184, R188). -/
def Obligations.NonPrefixFreeTableRefuses : Prop :=
  ∀ s : State, s.tblPf = false →
    exec .decodeStep s = .next { s with refused := some .nonPrefixFreeTable }

/-- The refusal mark is sticky (rule R49): while it is set the engine has no step (MODEL'S CHOICE, log entry 9: the
engine's turn answers `engineRefused`), no host access clears it, and a reset does. -/
def Obligations.RefusalMarkIsSticky : Prop :=
  (∀ (s : State) (r : RefuseReason), s.refused = some r →
    s.events = [] ∨ (∃ rest, s.events = .engine :: rest) → step s = .refused (.engineRefused r))
  ∧ (∀ (s t : State) (h : HostAccess) (rest : List Event), s.events = .host h :: rest →
    step s = .next t → t.refused = s.refused)
  ∧ (∀ (s : State) (rest : List Event), s.events = .reset :: rest →
    ∃ t, step s = .next t ∧ t.refused = none)

/-- The interrupt (rules R54, R250): a level that a step can raise only by setting DONE, ERR or IE. -/
def Obligations.IrqFollowsDoneAndErr : Prop :=
  (∀ s : State, s.irq = true ↔ s.ie = true ∧ (s.done = true ∨ s.err = true))
  ∧ (∀ s t : State, step s = .next t → s.irq = false → t.irq = true →
    (s.done = false ∧ t.done = true) ∨ (s.err = false ∧ t.err = true) ∨ (s.ie = false ∧ t.ie = true))

/-! ### The ports -/

/-- STATUS reads (rule R36), bit by bit. -/
def Obligations.StatusReadsEachField : Prop :=
  ∀ s : State, ∀ p, p < 32 → (s.csrValue (csrAt 2#10)).getLsbD p =
    if p = 0 then decide (s.phase ≠ 0x0#4)
    else if p = 1 then s.done
    else if p = 2 then s.err
    else if p = 3 then s.cmdOvr
    else if p = 4 then s.wrIgn
    else if 8 ≤ p ∧ p ≤ 11 then s.phase.getLsbD (p - 8)
    else if p = 12 then s.tblValid
    else if 13 ≤ p ∧ p ≤ 14 then s.op.getLsbD (p - 13)
    else false

/-- What every other register of the map reads, at its word address (rules R33 to R35, R37 to R47). -/
def Obligations.CsrMapReads : Prop :=
  ∀ s : State,
    s.csrValue (csrAt 0#10) = 0x454C5031#32
    ∧ (s.csrValue (csrAt 1#10)).toNat = (if s.ie then 256 else 0)
    ∧ (s.csrValue (csrAt 3#10)).toNat = s.errcode.toNat
    ∧ s.csrValue (csrAt 4#10) = s.inLen
    ∧ s.csrValue (csrAt 5#10) = s.inStart
    ∧ s.csrValue (csrAt 6#10) = s.pos
    ∧ s.csrValue (csrAt 7#10) = s.bitlen
    ∧ s.csrValue (csrAt 8#10) = s.cursor
    ∧ (s.csrValue (csrAt 9#10)).toNat = s.accLen.toNat + (if s.accOvf then 256 else 0)
    ∧ s.csrValue (csrAt 10#10) = s.outLen
    ∧ s.csrValue (csrAt 11#10) = s.paybase
    ∧ (s.csrValue (csrAt 12#10)).toNat = s.tblCount.toNat
    ∧ (s.csrValue (csrAt 13#10)).toNat = s.tblIndex.toNat
    ∧ s.csrValue (csrAt 15#10) = s.inCap
    ∧ s.csrValue (csrAt 24#10) = s.outCap

/-- TBL_ENTRY and TBL_CODE0–7 (rule R48): the selected entry if it is committed, else 0. -/
def Obligations.TableReadoutShowsCommittedEntries : Prop :=
  (∀ s : State, s.tblIndex.toNat < s.tblCount.toNat →
    (s.csrValue (csrAt 14#10)).toNat =
      (s.entry s.tblIndex.toNat).len.toNat * 256 + (s.entry s.tblIndex.toNat).sym.toNat
    ∧ ∀ k m, k < 8 → m < 32 →
        (s.csrValue (csrAt (BitVec.ofNat 10 (16 + k)))).getLsbD (31 - m) =
          (s.entry s.tblIndex.toNat).code.getLsbD (32 * k + m))
  ∧ (∀ s : State, s.tblCount.toNat ≤ s.tblIndex.toNat →
    s.csrValue (csrAt 14#10) = 0#32
    ∧ ∀ k, k < 8 → s.csrValue (csrAt (BitVec.ofNat 10 (16 + k))) = 0#32)

/-- A host read of any port changes nothing of the block and is idempotent (rules R82, R53). It writes only the
model's own read-data field and event list, and the data v it returns is the same whatever was read before (`r`) and
whatever comes after (`rest`): the same read again, at once or after other reads, returns v again. -/
def Obligations.HostReadsHaveNoSideEffects : Prop :=
  ∀ (s : State) (h : HostAccess),
    (∃ w, h = .csrRead w) ∨ (∃ a, h = .inRead a) ∨ (∃ a, h = .outRead a) →
    ∃ v : Word, ∀ (rest : List Event) (r : Word),
      step { s with events := .host h :: rest, rdata := r } = .next { s with events := rest, rdata := v }

/-- Reserved offsets read 0, and writes to them and to read-only registers are ignored with no flag (rule R50). -/
def Obligations.ReservedAndReadOnlyRegistersIgnoreWrites : Prop :=
  (∀ (s : State) (w : BitVec 10), 25 ≤ w.toNat → s.csrValue (csrAt w) = 0#32)
  ∧ (∀ (s : State) (w : BitVec 10) (v : Word) (rest : List Event),
    (w.toNat ∈ [0, 3, 6, 8, 9, 10, 11, 12, 14, 15] ∨ 16 ≤ w.toNat) →
    s.events = .host (.csrWrite w v) :: rest → step s = .next { s with events := rest })

/-- STATUS writes clear the flags written 1 and change nothing else, in any phase (rule R36); TBL_INDEX takes its low
eight bits in any phase (rule R47). -/
def Obligations.StatusWritesClearFlags : Prop :=
  (∀ (s : State) (v : Word) (rest : List Event), s.events = .host (.csrWrite 2#10 v) :: rest →
    ∃ t, step s = .next t
      ∧ (t.done = true ↔ s.done = true ∧ v.getLsbD 1 = false)
      ∧ (t.err = true ↔ s.err = true ∧ v.getLsbD 2 = false)
      ∧ (t.cmdOvr = true ↔ s.cmdOvr = true ∧ v.getLsbD 3 = false)
      ∧ (t.wrIgn = true ↔ s.wrIgn = true ∧ v.getLsbD 4 = false)
      ∧ t = { s with events := rest, done := t.done, err := t.err, cmdOvr := t.cmdOvr, wrIgn := t.wrIgn })
  ∧ (∀ (s : State) (v : Word) (rest : List Event), s.events = .host (.csrWrite 13#10 v) :: rest →
    ∃ t, step s = .next t ∧ t.tblIndex.toNat = v.toNat % 256
      ∧ t = { s with events := rest, tblIndex := t.tblIndex })

/-- Host writes while idle (rules R38, R39, R41, R72): IN_LEN is clamped to IN_CAP, IN_START and BITLEN take all 32
bits, and an INBUF write stores one byte and counts it as written; beyond IN_CAP it is dropped. -/
def Obligations.IdleHostWritesTakeEffect : Prop :=
  ∀ (s : State) (v : Word) (rest : List Event), s.phase = 0x0#4 →
    (s.events = .host (.csrWrite 4#10 v) :: rest →
      ∃ t, step s = .next t ∧ t.inLen.toNat = min v.toNat s.inCap.toNat
        ∧ t = { s with events := rest, inLen := t.inLen })
    ∧ (s.events = .host (.csrWrite 5#10 v) :: rest → step s = .next { s with events := rest, inStart := v })
    ∧ (s.events = .host (.csrWrite 7#10 v) :: rest → step s = .next { s with events := rest, bitlen := v })
    ∧ (∀ b : Byte, s.events = .host (.inWrite v b) :: rest →
      (v.toNat < s.inCap.toNat →
        ∃ t, step s = .next t ∧ t.inbuf.read v.toNat = some b
          ∧ (∀ a, a ≠ v.toNat → t.inbuf.read a = s.inbuf.read a)
          ∧ t = { s with events := rest, inbuf := t.inbuf })
      ∧ (s.inCap.toNat ≤ v.toNat → step s = .next { s with events := rest }))

/-- Host writes while busy (rules R280, R72, R38, R39, R41): IN_LEN, IN_START, BITLEN and INBUF writes are dropped
and set WR_IGN; an INBUF write beyond IN_CAP sets no flag. -/
def Obligations.BusyHostWritesAreDropped : Prop :=
  ∀ (s : State) (v : Word) (rest : List Event), s.phase ≠ 0x0#4 →
    (∀ w : BitVec 10, w = 4#10 ∨ w = 5#10 ∨ w = 7#10 → s.events = .host (.csrWrite w v) :: rest →
      step s = .next { s with events := rest, wrIgn := true })
    ∧ (∀ b : Byte, s.events = .host (.inWrite v b) :: rest →
      (v.toNat < s.inCap.toNat → step s = .next { s with events := rest, wrIgn := true })
      ∧ (s.inCap.toNat ≤ v.toNat → step s = .next { s with events := rest }))

/-- What host reads return, in the model's own field `rdata` (rules R34, R72, R73; MODEL'S CHOICE, log entries 10,
19): the value of the register at a CSR word address, a written INBUF byte, an OUTBUF byte below `out_len`, and 0
beyond the capacity. Host writes to OUTBUF are dropped with no flag. -/
def Obligations.HostReadsReturnTheirData : Prop :=
  (∀ (s : State) (w : BitVec 10) (rest : List Event), s.events = .host (.csrRead w) :: rest →
    ∃ t, step s = .next t ∧ t.rdata = s.csrValue (csrAt w))
  ∧ ∀ (s : State) (a : Word) (rest : List Event),
    (s.events = .host (.inRead a) :: rest →
      (∀ b, a.toNat < s.inCap.toNat → s.inbuf.read a.toNat = some b →
        ∃ t, step s = .next t ∧ t.rdata.toNat = b.toNat)
      ∧ (s.inCap.toNat ≤ a.toNat → ∃ t, step s = .next t ∧ t.rdata = 0#32))
    ∧ (s.events = .host (.outRead a) :: rest →
      (∀ b, a.toNat < s.outCap.toNat → a.toNat < s.outLen.toNat → s.outbuf.read a.toNat = some b →
        ∃ t, step s = .next t ∧ t.rdata.toNat = b.toNat)
      ∧ (s.outCap.toNat ≤ a.toNat → ∃ t, step s = .next t ∧ t.rdata = 0#32))
    ∧ (∀ b : Byte, s.events = .host (.outWrite a b) :: rest → step s = .next { s with events := rest })

/-! ### Reset -/

/-- The reset event (rules R56, R270, R271): every register at rule R56's value, whatever the block was doing, and
every INBUF byte unwritten. -/
def Obligations.ResetEventClearsTheBlock : Prop :=
  ∀ (s : State) (rest : List Event), s.events = .reset :: rest →
    ∃ t, step s = .next t
      ∧ t.phase = 0x0#4 ∧ t.op = 0#2
      ∧ t.pos = 0#32 ∧ t.bitlen = 0#32 ∧ t.paybase = 0#32 ∧ t.cursor = 0#32 ∧ t.outLen = 0#32
      ∧ t.inLen = 0#32 ∧ t.inStart = 0#32 ∧ t.accLen = 0#8 ∧ t.accOvf = false
      ∧ t.tblCount = 0#9 ∧ t.tblValid = false ∧ t.tblIndex = 0#8
      ∧ t.done = false ∧ t.err = false ∧ t.cmdOvr = false ∧ t.wrIgn = false ∧ t.ie = false
      ∧ t.errcode = 0#8 ∧ t.refused = none ∧ t.tblPf = false
      ∧ (∀ a, t.inbuf.read a = none)
      ∧ t.inCap = s.inCap ∧ t.outCap = s.outCap ∧ t.events = rest ∧ t.irq = false

/-! ### Rules of the whole machine -/

/-- The invariant that every step keeps, whatever the events (rules R58, R29, R30, R31, R36, R49, R191). From a state
with the invariant a step never faults (log entries 13, 14), and it stops only at the engine's turn while the refusal
mark is set (log entry 9). -/
def Obligations.EveryStepKeepsTheInvariant : Prop :=
  ∀ s : State, s.Inv →
    (∃ t, step s = .next t ∧ t.Inv) ∨ (∃ r, s.refused = some r ∧ step s = .refused (.engineRefused r))

/-- The invariant holds after reset, of every instance rule R5 allows; the events to come may be any. -/
def Obligations.ResetMeetsTheInvariant : Prop :=
  State.reset.Inv
  ∧ ∀ (inCap outCap : Word) (evs : List Event), 8 ≤ inCap.toNat →
      State.Inv { State.resetOf inCap outCap with events := evs }

/-- Rule R58, clauses (a) to (g), of every state that any sequence of events reaches from reset. -/
def Obligations.EveryReachableStateMeetsR58 : Prop :=
  ∀ s : State, s.Reachable → s.R58

/-- The table store is written only by T_SYM, T_LEN and T_CODE steps, at index `tbl_count` (rule R29); a reset, after
which the entries are unspecified (rule R56), is left out. -/
def Obligations.TableStoreIsWrittenOnlyWhileLoading : Prop :=
  ∀ (s t : State) (i : Nat), (∀ rest, s.events ≠ .reset :: rest) → step s = .next t → t.entry i ≠ s.entry i →
    (s.events = [] ∨ ∃ rest, s.events = .engine :: rest)
    ∧ (s.phase = 0x2#4 ∨ s.phase = 0x3#4 ∨ s.phase = 0x4#4) ∧ i = s.tblCount.toNat

/-- `paybase` is written only by a P_CHECK step that passes, and by a reset (rules R25, R56). -/
def Obligations.PaybaseIsWrittenOnlyByPCheck : Prop :=
  ∀ s t : State, step s = .next t → t.paybase ≠ s.paybase →
    (∃ rest, s.events = .reset :: rest)
    ∨ ((s.events = [] ∨ ∃ rest, s.events = .engine :: rest) ∧ s.phase = 0x6#4
        ∧ s.pos.toNat + (s.bitlen.toNat + 7) / 8 ≤ s.inLen.toNat ∧ t.paybase = s.pos)

/-- The table stays valid until the next DECOMPRESS or LOAD_TABLE start, or a reset (rule R30). -/
def Obligations.ValidTableLastsUntilTheNextLoad : Prop :=
  ∀ s t : State, step s = .next t → s.tblValid = true → t.tblValid = false →
    (∃ rest, s.events = .reset :: rest)
    ∨ (∃ (v : Word) (rest : List Event), s.events = .host (.csrWrite 1#10 v) :: rest
        ∧ (v.toNat % 16 = 1 ∨ v.toNat % 16 = 2) ∧ s.phase = 0x0#4)

/-- An operation reads the `inbuf`, `in_len` and `in_start` that held when its command started: while busy no event
but a reset changes them (rule R89). -/
def Obligations.OperationInputIsFrozen : Prop :=
  ∀ s t : State, s.phase ≠ 0x0#4 → step s = .next t → (∀ rest, s.events ≠ .reset :: rest) →
    t.inbuf = s.inbuf ∧ t.inLen = s.inLen ∧ t.inStart = s.inStart

/-- An emitted byte is final (rule R87): no step but a reset, after which OUTBUF is unspecified (rule R56), changes an
output byte below `out_len`. `out_len` itself stays, grows by one, or is cleared. -/
def Obligations.EmittedBytesAreFinal : Prop :=
  ∀ s t : State, step s = .next t →
    ((∀ rest, s.events ≠ .reset :: rest) → ∀ k, k < s.outLen.toNat → t.outbuf.read k = s.outbuf.read k)
    ∧ (t.outLen = s.outLen ∨ t.outLen = s.outLen + 1#32 ∨ t.outLen = 0#32)

/-- Termination (rule R285), the engine alone moving (an empty event list, log entry 1): every operation reaches IDLE
with DONE or ERR, or the model's refusal, within the step counts of the rule, at most 256 entries being read. -/
def Obligations.EveryOperationEnds : Prop :=
  ∀ s : State, s.Inv → s.events = [] → s.refused = none →
    (s.phase = 0x1#4 → ∃ n t, n ≤ 1 + 4 * 256 + 1 + t.bitlen.toNat + 1 ∧ runSteps n s = .next t
      ∧ (t.phase = 0x0#4 ∧ (t.done = true ∨ t.err = true) ∨ t.refused ≠ none))
    ∧ (s.phase = 0x2#4 → s.op = 2#2 → ∃ n t, n ≤ 4 * 256 ∧ runSteps n s = .next t
      ∧ (t.phase = 0x0#4 ∧ (t.done = true ∨ t.err = true) ∨ t.refused ≠ none))
    ∧ (s.phase = 0x6#4 → ∃ n t, n ≤ 1 + s.bitlen.toNat + 1 ∧ runSteps n s = .next t
      ∧ (t.phase = 0x0#4 ∧ (t.done = true ∨ t.err = true) ∨ t.refused ≠ none))

/-- Termination under fairness (rules R284, R285): in every fair run, whatever the host does between the engine's
steps and however often, a running operation ends. It is over once the block is IDLE, with DONE or ERR unless a reset
ended it (rule R270), or refused; until then it has taken at most the rule's number of engine steps. -/
def Obligations.EveryFairRunEndsItsOperation : Prop :=
  ∀ (e : Nat → Event) (r : Nat → State), IsRun e r → IsFair e r →
    (r 0).Inv → (r 0).phase ≠ 0x0#4 → (r 0).refused = none →
    ∃ n, (∀ m, m ≤ n → (r m).phase ≠ 0x0#4 ∧ (r m).refused = none)
      ∧ ((r (n + 1)).refused ≠ none
        ∨ (r (n + 1)).phase = 0x0#4 ∧ (e n = .reset ∨ (r (n + 1)).done = true ∨ (r (n + 1)).err = true))
      ∧ engineSteps e (n + 1) ≤ 1 + 4 * 256 + 1 + (r n).bitlen.toNat + 1

/-- Results (rules R245, R246, R44): a result appears only with a FINISH step over an empty accumulator, so neither a
failed operation nor a LOAD_TABLE after it ever shows one, and while it stands no byte of it changes. -/
def Obligations.ResultsComeOnlyFromFinish : Prop :=
  ∀ s t : State, s.Inv → step s = .next t → t.HasResult →
    (s.HasResult ∧ ∀ k, t.resultByte k = s.resultByte k)
    ∨ (¬s.HasResult ∧ (s.events = [] ∨ ∃ rest, s.events = .engine :: rest) ∧ s.phase = 0x8#4
        ∧ s.accLen.toNat = 0 ∧ s.accOvf = false ∧ s.cursor = s.bitlen
        ∧ ∀ k, k < s.outLen.toNat → t.resultByte k = s.outbuf.read k)

/-- The reference producer (rules R132, R134): over a prefix-free table, the packed codes of any entries make a
well-formed container, which carries those entries. -/
def Obligations.PackedCodesMakeAWellFormedContainer : Prop :=
  ∀ (T : CodeTable) (ks : List Nat), T.wf = true → T.prefixFree = true → (∀ k ∈ ks, k < T.length) →
    (concatCodes T ks).length < 2 ^ 32 →
    WellFormedContainer (BitVec.ofNat 32 (concatCodes T ks).length) T (pack (concatCodes T ks))
    ∧ Carries (BitVec.ofNat 32 (concatCodes T ks).length) T (pack (concatCodes T ks)) ks

/-- The table round trip (rules R140, R141): the table steps over `Serialize(T)` load T, entry for entry and in
order, in four steps an entry, and stop at the byte after the sentinel. -/
def Obligations.SerializedTableLoadsBack : Prop :=
  ∀ (s : State) (T : CodeTable), T.wf = true → s.events = [] → s.refused = none →
    s.phase = 0x2#4 → s.op = 1#2 ∨ s.op = 2#2 → s.tblCount = 0#9 →
    s.holdsBytes s.pos.toNat (serialize T) → s.pos.toNat + (serialize T).length ≤ s.inLen.toNat →
    ∃ t, runSteps (4 * T.length) s = .next t
      ∧ t.tblValid = true ∧ t.tblCount.toNat = T.length
      ∧ t.pos.toNat = s.pos.toNat + (serialize T).length
      ∧ (∀ i, i < T.length →
          (t.entry i).sym = (T.getD i (0, [])).1
          ∧ (t.entry i).len.toNat = (T.getD i (0, [])).2.length
          ∧ ∀ j, j < (T.getD i (0, [])).2.length →
              (t.entry i).code.getLsbD j = (T.getD i (0, [])).2.getD j false)
      ∧ (s.op = 1#2 → t.phase = 0x6#4) ∧ (s.op = 2#2 → t.phase = 0x0#4 ∧ t.done = true)

/-- The decoding law (rule R187): over a prefix-free table, payload bits that are the concatenation of the codes of
entries `ks` decode to their symbols, one engine step a bit; if the output is too small, OUTPUT_OVERFLOW with
`out_len = OUT_CAP`. -/
def Obligations.ConcatenatedCodesDecodeToTheirSymbols : Prop :=
  ∀ (s : State) (ks : List Nat) (bits : List Bool), s.Inv → s.events = [] → s.refused = none →
    s.prefixFree s.tblCount.toNat = true →
    (s.bitlen = 0#32 → s.phase = 0x8#4) → (s.bitlen ≠ 0#32 → s.phase = 0x7#4) →
    s.cursor = 0#32 → s.outLen = 0#32 → s.accLen = 0#8 → s.accOvf = false →
    (∀ k ∈ ks, k < s.tblCount.toNat) →
    bits = ks.flatMap (fun k =>
      (List.range (s.entry k).len.toNat).map fun j => (s.entry k).code.getLsbD j) →
    bits.length = s.bitlen.toNat →
    (∀ i, i < bits.length → ∃ b : Byte, s.inbuf.read (s.paybase.toNat + i / 8) = some b
      ∧ b.getLsbD (7 - i % 8) = bits.getD i false) →
    (ks.length ≤ s.outCap.toNat →
      ∃ t, runSteps (s.bitlen.toNat + 1) s = .next t ∧ t.done = true ∧ t.err = false ∧ t.phase = 0x0#4
        ∧ t.outLen.toNat = ks.length ∧ t.cursor = s.bitlen
        ∧ ∀ j, j < ks.length → t.outbuf.read j = some (s.entry (ks.getD j 0)).sym)
    ∧ (s.outCap.toNat < ks.length →
      ∃ n t, n ≤ s.bitlen.toNat ∧ runSteps n s = .next t ∧ t.err = true ∧ t.errcode = 0x08#8
        ∧ t.phase = 0x0#4 ∧ t.outLen = s.outCap)

/-- The round-trip law (rule R189): a DECOMPRESS command over a well-formed container in INBUF (rule R134; its padding
bits may be any, rule R115) completes with DONE and gives back the data, one symbol for each entry index in `ks`. -/
def Obligations.DecompressGivesBackTheData : Prop :=
  ∀ (s : State) (b : Word) (T : CodeTable) (payload : List Byte) (ks : List Nat) (ie : Bool),
    s.Inv → s.phase = 0x0#4 → s.refused = none →
    s.events = [.host (.csrWrite 1#10 (encodeCtrl 0x1#4 ie))] →
    T.wf = true → T.prefixFree = true → payload.length = (b.toNat + 7) / 8 →
    s.holdsBytes s.inStart.toNat (container b T payload) →
    s.inStart.toNat + (container b T payload).length ≤ s.inLen.toNat →
    Carries b T payload ks → ks.length ≤ s.outCap.toNat →
    ∃ t, runSteps (1 + (1 + 4 * T.length + 1 + b.toNat + 1)) s = .next t
      ∧ t.HasResult ∧ t.err = false ∧ t.outLen.toNat = ks.length
      ∧ (∀ j, j < ks.length → t.resultByte j = some (T.getD (ks.getD j 0) (0, [])).1)
      ∧ t.cursor = b ∧ t.pos.toNat = s.inStart.toNat + (container b T payload).length
end

