-- ==== Sys2Proof/Laws/Bits.lean ====
section
/-! SUPPORT. Bit sequences: setting one bit, building a sequence, and comparing prefixes. -/

namespace Sys2Proof.Machine

/-- Setting bit i gives b there and leaves every other bit alone. -/
@[simp] theorem getLsbD_setBit {w : Nat} (v : BitVec w) (i j : Nat) (b : Bool) :
    (setBit v i b).getLsbD j = if j = i ∧ i < w then b else v.getLsbD j := by
  unfold setBit
  by_cases hj : j < w
  · cases b <;> by_cases h : j = i <;> simp_all
  · have h1 : ¬(j = i ∧ i < w) := by omega
    simp [h1, BitVec.getLsbD_of_ge _ _ (Nat.le_of_not_lt hj)]

/-- Bit j of a built sequence is `f j` below its length and 0 from there on. -/
@[simp] theorem getLsbD_ofBits (w : Nat) (f : Nat → Bool) (n j : Nat) :
    (ofBits w f n).getLsbD j = (decide (j < n) && decide (j < w) && f j) := by
  induction n with
  | zero => simp [ofBits]
  | succ n ih =>
    simp only [ofBits, getLsbD_setBit, ih]
    by_cases h : j = n
    · subst h
      by_cases hw : j < w <;> simp [hw]
    · have : (j < n + 1) ↔ (j < n) := by omega
      simp [h, this]

/-- Prefix comparison, bit by bit. -/
theorem sameBits_iff {u v : Nat} (n : Nat) (x : BitVec u) (y : BitVec v) :
    sameBits n x y = true ↔ ∀ j, j < n → x.getLsbD j = y.getLsbD j := by
  simp [sameBits]

/-- `code[j] = (j < L) ? bytes[j >> 3][7 − (j & 7)] : 0` (rule R138). -/
theorem getLsbD_unpackCode (len : Nat) (bytes : List Byte) (j : Nat) (hj : j < 256) :
    (unpackCode len bytes).getLsbD j = (decide (j < len) && packedBit bytes j) := by
  unfold unpackCode
  rw [getLsbD_ofBits]
  simp [hj]

/-- BE32 is the sum of rule R6. -/
theorem toNat_be32 (b0 b1 b2 b3 : Byte) :
    (be32 b0 b1 b2 b3).toNat =
      b0.toNat * 2 ^ 24 + b1.toNat * 2 ^ 16 + b2.toNat * 2 ^ 8 + b3.toNat := by
  have h1 := b1.isLt
  have h2 := b2.isLt
  have h3 := b3.isLt
  simp only [be32, BitVec.toNat_append]
  rw [← Nat.shiftLeft_add_eq_or_of_lt h1, ← Nat.shiftLeft_add_eq_or_of_lt h2,
    ← Nat.shiftLeft_add_eq_or_of_lt h3]
  simp only [Nat.shiftLeft_eq]
  omega

end Sys2Proof.Machine
end

