-- ==== Sys2Proof/Laws/Memory.lean ====
section
/-! SUPPORT. Sparse storage: a read after a write, and that a write keeps the canonical form. -/

namespace Sys2Proof.Machine

variable {α : Type}

@[simp] theorem Memory.read_nil (a : Nat) : Memory.read ([] : Memory α) a = none := rfl

/-- A write gives its value at its index and leaves every other index alone. -/
@[simp] theorem Memory.read_write (m : Memory α) (hm : m.wf = true) (a b : Nat) (v : α) :
    (m.write a v).read b = if b = a then some v else m.read b := by
  induction m with
  | nil => simp [Memory.write, Memory.read, eq_comm]
  | cons x m ih =>
    obtain ⟨c, u⟩ := x
    have hw : Memory.wf m = true := by
      cases m with
      | nil => rfl
      | cons y m => simp [Memory.wf] at hm; exact hm.2
    simp only [Memory.write]
    split
    · simp [Memory.read, eq_comm]
    · split
      · rename_i h; subst h; simp only [Memory.read, eq_comm]; split <;> simp_all
      · simp only [Memory.read, ih hw]
        by_cases h1 : c = b <;> by_cases h2 : b = a <;> simp_all

/-- Reading what was just written, whatever the memory. -/
theorem Memory.read_write_self (m : Memory α) (a : Nat) (v : α) : (m.write a v).read a = some v := by
  induction m with
  | nil => simp [Memory.write, Memory.read]
  | cons x m ih =>
    obtain ⟨c, u⟩ := x
    simp only [Memory.write]
    split
    · simp [Memory.read]
    · split
      · simp [Memory.read]
      · rename_i h; simp [Memory.read, ih, Ne.symm h]

/-- A write leaves every other index alone, whatever the memory. -/
theorem Memory.read_write_ne (m : Memory α) (a b : Nat) (v : α) (h : b ≠ a) :
    (m.write a v).read b = m.read b := by
  induction m with
  | nil => simp [Memory.write, Memory.read, Ne.symm h]
  | cons x m ih =>
    obtain ⟨c, u⟩ := x
    simp only [Memory.write]
    split
    · simp [Memory.read, Ne.symm h]
    · split
      · rename_i h2; subst h2; simp [Memory.read, Ne.symm h]
      · simp [Memory.read, ih]

/-- The first index of a write is the written one or the first one there was. -/
theorem Memory.wf_write_cons (c : Nat) (u : α) (m : Memory α) (a : Nat) (v : α)
    (h : Memory.wf ((c, u) :: m) = true) (hc : c < a) (hw : (m.write a v).wf = true) :
    Memory.wf ((c, u) :: m.write a v) = true := by
  cases m with
  | nil => simpa [Memory.write, Memory.wf] using hc
  | cons y m =>
    obtain ⟨d, w⟩ := y
    simp only [Memory.wf, Bool.and_eq_true, decide_eq_true_eq] at h
    simp only [Memory.write] at hw ⊢
    split
    · simp_all [Memory.wf]
    · split <;> simp_all [Memory.wf]

/-- Every write keeps the canonical form. -/
theorem Memory.write_wf (m : Memory α) (a : Nat) (v : α) (h : m.wf = true) : (m.write a v).wf = true := by
  induction m with
  | nil => rfl
  | cons x m ih =>
    obtain ⟨c, u⟩ := x
    have hw : Memory.wf m = true := by
      cases m with
      | nil => rfl
      | cons y m => simp [Memory.wf] at h; exact h.2
    by_cases h1 : a < c
    · simp only [Memory.write, h1, if_true, Memory.wf, Bool.and_eq_true, decide_eq_true_eq, true_and]
      exact h
    · by_cases h2 : a = c
      · subst h2
        simp only [Memory.write, h1, if_false, if_true]
        cases m with
        | nil => rfl
        | cons y m => simpa [Memory.wf] using h
      · simp only [Memory.write, h1, h2, if_false]
        exact Memory.wf_write_cons c u m a v h (by omega) (ih hw)

/-- A write below n keeps every index below n. -/
theorem Memory.write_below (m : Memory α) (a n : Nat) (v : α) (h : m.below n = true) (ha : a < n) :
    (m.write a v).below n = true := by
  induction m with
  | nil => simpa [Memory.write, Memory.below] using ha
  | cons x m ih =>
    obtain ⟨c, u⟩ := x
    simp only [Memory.below, List.all_cons, Bool.and_eq_true, decide_eq_true_eq] at h
    have hm : Memory.below m n = true := h.2
    have hall (y : α) : Memory.below ((c, y) :: m) n = true := by
      simp only [Memory.below, List.all_cons, Bool.and_eq_true, decide_eq_true_eq]
      exact h
    simp only [Memory.write]
    split
    · have := hall u
      simp only [Memory.below, List.all_cons, Bool.and_eq_true, decide_eq_true_eq] at this ⊢
      exact ⟨ha, this⟩
    · split
      · rename_i hac; subst hac; exact hall v
      · have hi := ih hm
        simp only [Memory.below, List.all_cons, Bool.and_eq_true, decide_eq_true_eq] at hi ⊢
        exact ⟨h.1, hi⟩

/-- The engine's read of n bytes gives them exactly when each was written. -/
theorem State.memReadIn_eq_some (s : State) (n : Nat) : ∀ (a : Nat) (bytes : List Byte),
    s.memReadIn a n = some bytes ↔
      bytes.length = n ∧ ∀ k, k < n → s.inbuf.read (a + k) = some (bytes.getD k 0) := by
  induction n with
  | zero => intro a bytes; cases bytes <;> simp [State.memReadIn]
  | succ n ih =>
    intro a bytes
    constructor
    · intro h
      simp only [State.memReadIn] at h
      split at h
      · rename_i b bs hb hbs
        obtain rfl := Option.some.inj h
        obtain ⟨hl, hk⟩ := (ih (a + 1) bs).1 hbs
        refine ⟨by simp [hl], fun k hlt => ?_⟩
        cases k with
        | zero => simpa using hb
        | succ k => simpa [Nat.add_comm, Nat.add_left_comm] using hk k (by omega)
      · cases h
    · rintro ⟨hl, hk⟩
      cases bytes with
      | nil => simp at hl
      | cons b bs =>
        have h0 := hk 0 (by omega)
        have h1 := (ih (a + 1) bs).2 ⟨by simpa using hl, fun k hlt => by
          simpa [Nat.add_comm, Nat.add_left_comm] using hk (k + 1) (by omega)⟩
        simp only [State.memReadIn, h1]
        simp only [Nat.add_zero, List.getD_cons_zero] at h0
        simp [h0]

/-- The engine's read of n bytes fails exactly when one of them was never written. -/
theorem State.memReadIn_eq_none (s : State) (n : Nat) : ∀ (a : Nat),
    s.memReadIn a n = none ↔ ∃ k, k < n ∧ s.inbuf.read (a + k) = none := by
  induction n with
  | zero => simp [State.memReadIn]
  | succ n ih =>
    intro a
    simp only [State.memReadIn]
    constructor
    · intro h
      split at h
      · cases h
      · rename_i hno
        cases hb : s.inbuf.read a with
        | none => exact ⟨0, by omega, hb⟩
        | some b =>
          cases hbs : s.memReadIn (a + 1) n with
          | none =>
            obtain ⟨k, hk, hr⟩ := (ih (a + 1)).1 hbs
            exact ⟨k + 1, by omega, by simpa [Nat.add_comm, Nat.add_left_comm] using hr⟩
          | some bs => exact absurd hbs (hno b bs hb)
    · rintro ⟨k, hk, hr⟩
      cases k with
      | zero => simp only [Nat.add_zero] at hr; simp [hr]
      | succ k =>
        have := (ih (a + 1)).2 ⟨k, by omega, by simpa [Nat.add_comm, Nat.add_left_comm] using hr⟩
        simp [this]

end Sys2Proof.Machine
end

