-- ==== Sys2Proof/Laws/State.lean ====
section
/-! SUPPORT. What each named update leaves in each field, so that no later proof unfolds a record update. Each lemma
has one clause per field, true by rfl; simp takes the clauses as separate rewrite rules. -/

namespace Sys2Proof.Machine

/-- Error entry (rule R243). -/
@[simp] theorem State.raise_fields (s : State) (k : ErrKind) :
    (s.raise k).phase = Phase.idle ∧ (s.raise k).op = s.op ∧ (s.raise k).pos = s.pos ∧ (s.raise k).bitlen = s.bitlen
    ∧ (s.raise k).paybase = s.paybase ∧ (s.raise k).cursor = s.cursor ∧ (s.raise k).acc = s.acc
    ∧ (s.raise k).accLen = s.accLen ∧ (s.raise k).accOvf = s.accOvf ∧ (s.raise k).outLen = s.outLen
    ∧ (s.raise k).ent = s.ent ∧ (s.raise k).tblCount = s.tblCount ∧ (s.raise k).tblValid = s.tblValid
    ∧ (s.raise k).done = false ∧ (s.raise k).err = true ∧ (s.raise k).cmdOvr = s.cmdOvr ∧ (s.raise k).wrIgn = s.wrIgn
    ∧ (s.raise k).errcode = k.code ∧ (s.raise k).ie = s.ie ∧ (s.raise k).inLen = s.inLen
    ∧ (s.raise k).inStart = s.inStart ∧ (s.raise k).tblIndex = s.tblIndex ∧ (s.raise k).inbuf = s.inbuf
    ∧ (s.raise k).outbuf = s.outbuf ∧ (s.raise k).inCap = s.inCap ∧ (s.raise k).outCap = s.outCap
    ∧ (s.raise k).refused = s.refused ∧ (s.raise k).tblPf = s.tblPf ∧ (s.raise k).events = s.events
    ∧ (s.raise k).rdata = s.rdata ∧ (s.raise k).resets = s.resets := by
  refine ⟨rfl, rfl, rfl, rfl, rfl, rfl, rfl, rfl, rfl, rfl, rfl, rfl, rfl, rfl, rfl, rfl, rfl, rfl, rfl, rfl, rfl, rfl, rfl, rfl, rfl, rfl, rfl, rfl, rfl, rfl, rfl⟩

/-- Completion (rule R246). -/
@[simp] theorem State.complete_fields (s : State) :
    (s.complete).phase = Phase.idle ∧ (s.complete).op = s.op ∧ (s.complete).pos = s.pos
    ∧ (s.complete).bitlen = s.bitlen ∧ (s.complete).paybase = s.paybase ∧ (s.complete).cursor = s.cursor
    ∧ (s.complete).acc = s.acc ∧ (s.complete).accLen = s.accLen ∧ (s.complete).accOvf = s.accOvf
    ∧ (s.complete).outLen = s.outLen ∧ (s.complete).ent = s.ent ∧ (s.complete).tblCount = s.tblCount
    ∧ (s.complete).tblValid = s.tblValid ∧ (s.complete).done = true ∧ (s.complete).err = s.err
    ∧ (s.complete).cmdOvr = s.cmdOvr ∧ (s.complete).wrIgn = s.wrIgn ∧ (s.complete).errcode = s.errcode
    ∧ (s.complete).ie = s.ie ∧ (s.complete).inLen = s.inLen ∧ (s.complete).inStart = s.inStart
    ∧ (s.complete).tblIndex = s.tblIndex ∧ (s.complete).inbuf = s.inbuf ∧ (s.complete).outbuf = s.outbuf
    ∧ (s.complete).inCap = s.inCap ∧ (s.complete).outCap = s.outCap ∧ (s.complete).refused = s.refused
    ∧ (s.complete).tblPf = s.tblPf ∧ (s.complete).events = s.events ∧ (s.complete).rdata = s.rdata
    ∧ (s.complete).resets = s.resets := by
  refine ⟨rfl, rfl, rfl, rfl, rfl, rfl, rfl, rfl, rfl, rfl, rfl, rfl, rfl, rfl, rfl, rfl, rfl, rfl, rfl, rfl, rfl, rfl, rfl, rfl, rfl, rfl, rfl, rfl, rfl, rfl, rfl⟩

/-- A refusal marks and does nothing else (rule R7). -/
@[simp] theorem State.refuse_fields (s : State) (r : RefuseReason) :
    (s.refuse r).phase = s.phase ∧ (s.refuse r).op = s.op ∧ (s.refuse r).pos = s.pos ∧ (s.refuse r).bitlen = s.bitlen
    ∧ (s.refuse r).paybase = s.paybase ∧ (s.refuse r).cursor = s.cursor ∧ (s.refuse r).acc = s.acc
    ∧ (s.refuse r).accLen = s.accLen ∧ (s.refuse r).accOvf = s.accOvf ∧ (s.refuse r).outLen = s.outLen
    ∧ (s.refuse r).ent = s.ent ∧ (s.refuse r).tblCount = s.tblCount ∧ (s.refuse r).tblValid = s.tblValid
    ∧ (s.refuse r).done = s.done ∧ (s.refuse r).err = s.err ∧ (s.refuse r).cmdOvr = s.cmdOvr
    ∧ (s.refuse r).wrIgn = s.wrIgn ∧ (s.refuse r).errcode = s.errcode ∧ (s.refuse r).ie = s.ie
    ∧ (s.refuse r).inLen = s.inLen ∧ (s.refuse r).inStart = s.inStart ∧ (s.refuse r).tblIndex = s.tblIndex
    ∧ (s.refuse r).inbuf = s.inbuf ∧ (s.refuse r).outbuf = s.outbuf ∧ (s.refuse r).inCap = s.inCap
    ∧ (s.refuse r).outCap = s.outCap ∧ (s.refuse r).refused = some r ∧ (s.refuse r).tblPf = s.tblPf
    ∧ (s.refuse r).events = s.events ∧ (s.refuse r).rdata = s.rdata ∧ (s.refuse r).resets = s.resets := by
  refine ⟨rfl, rfl, rfl, rfl, rfl, rfl, rfl, rfl, rfl, rfl, rfl, rfl, rfl, rfl, rfl, rfl, rfl, rfl, rfl, rfl, rfl, rfl, rfl, rfl, rfl, rfl, rfl, rfl, rfl, rfl, rfl⟩

/-- Write 1 to clear (rule R36). -/
@[simp] theorem State.clearFlags_fields (s : State) (v : Word) :
    (s.clearFlags v).phase = s.phase ∧ (s.clearFlags v).op = s.op ∧ (s.clearFlags v).pos = s.pos
    ∧ (s.clearFlags v).bitlen = s.bitlen ∧ (s.clearFlags v).paybase = s.paybase ∧ (s.clearFlags v).cursor = s.cursor
    ∧ (s.clearFlags v).acc = s.acc ∧ (s.clearFlags v).accLen = s.accLen ∧ (s.clearFlags v).accOvf = s.accOvf
    ∧ (s.clearFlags v).outLen = s.outLen ∧ (s.clearFlags v).ent = s.ent ∧ (s.clearFlags v).tblCount = s.tblCount
    ∧ (s.clearFlags v).tblValid = s.tblValid ∧ (s.clearFlags v).done = (s.done && !v.getLsbD 1)
    ∧ (s.clearFlags v).err = (s.err && !v.getLsbD 2) ∧ (s.clearFlags v).cmdOvr = (s.cmdOvr && !v.getLsbD 3)
    ∧ (s.clearFlags v).wrIgn = (s.wrIgn && !v.getLsbD 4) ∧ (s.clearFlags v).errcode = s.errcode
    ∧ (s.clearFlags v).ie = s.ie ∧ (s.clearFlags v).inLen = s.inLen ∧ (s.clearFlags v).inStart = s.inStart
    ∧ (s.clearFlags v).tblIndex = s.tblIndex ∧ (s.clearFlags v).inbuf = s.inbuf ∧ (s.clearFlags v).outbuf = s.outbuf
    ∧ (s.clearFlags v).inCap = s.inCap ∧ (s.clearFlags v).outCap = s.outCap ∧ (s.clearFlags v).refused = s.refused
    ∧ (s.clearFlags v).tblPf = s.tblPf ∧ (s.clearFlags v).events = s.events ∧ (s.clearFlags v).rdata = s.rdata
    ∧ (s.clearFlags v).resets = s.resets := by
  refine ⟨rfl, rfl, rfl, rfl, rfl, rfl, rfl, rfl, rfl, rfl, rfl, rfl, rfl, rfl, rfl, rfl, rfl, rfl, rfl, rfl, rfl, rfl, rfl, rfl, rfl, rfl, rfl, rfl, rfl, rfl, rfl⟩

/-- T_MARK's commit (rule R139). -/
@[simp] theorem State.commitEntry_fields (s : State) :
    (s.commitEntry).phase = s.phase ∧ (s.commitEntry).op = s.op ∧ (s.commitEntry).pos = s.pos + 1
    ∧ (s.commitEntry).bitlen = s.bitlen ∧ (s.commitEntry).paybase = s.paybase ∧ (s.commitEntry).cursor = s.cursor
    ∧ (s.commitEntry).acc = s.acc ∧ (s.commitEntry).accLen = s.accLen ∧ (s.commitEntry).accOvf = s.accOvf
    ∧ (s.commitEntry).outLen = s.outLen ∧ (s.commitEntry).ent = s.ent ∧ (s.commitEntry).tblCount = s.tblCount + 1
    ∧ (s.commitEntry).tblValid = s.tblValid ∧ (s.commitEntry).done = s.done ∧ (s.commitEntry).err = s.err
    ∧ (s.commitEntry).cmdOvr = s.cmdOvr ∧ (s.commitEntry).wrIgn = s.wrIgn ∧ (s.commitEntry).errcode = s.errcode
    ∧ (s.commitEntry).ie = s.ie ∧ (s.commitEntry).inLen = s.inLen ∧ (s.commitEntry).inStart = s.inStart
    ∧ (s.commitEntry).tblIndex = s.tblIndex ∧ (s.commitEntry).inbuf = s.inbuf ∧ (s.commitEntry).outbuf = s.outbuf
    ∧ (s.commitEntry).inCap = s.inCap ∧ (s.commitEntry).outCap = s.outCap ∧ (s.commitEntry).refused = s.refused
    ∧ (s.commitEntry).tblPf = s.tblPf ∧ (s.commitEntry).events = s.events ∧ (s.commitEntry).rdata = s.rdata
    ∧ (s.commitEntry).resets = s.resets := by
  refine ⟨rfl, rfl, rfl, rfl, rfl, rfl, rfl, rfl, rfl, rfl, rfl, rfl, rfl, rfl, rfl, rfl, rfl, rfl, rfl, rfl, rfl, rfl, rfl, rfl, rfl, rfl, rfl, rfl, rfl, rfl, rfl⟩

/-- Command start (rule R210). -/
@[simp] theorem State.cmdStart_fields (s : State) (o : BitVec 2) :
    (s.cmdStart o).phase = s.phase ∧ (s.cmdStart o).op = o ∧ (s.cmdStart o).pos = s.inStart
    ∧ (s.cmdStart o).bitlen = s.bitlen ∧ (s.cmdStart o).paybase = s.paybase ∧ (s.cmdStart o).cursor = s.cursor
    ∧ (s.cmdStart o).acc = s.acc ∧ (s.cmdStart o).accLen = s.accLen ∧ (s.cmdStart o).accOvf = s.accOvf
    ∧ (s.cmdStart o).outLen = s.outLen ∧ (s.cmdStart o).ent = s.ent ∧ (s.cmdStart o).tblCount = s.tblCount
    ∧ (s.cmdStart o).tblValid = s.tblValid ∧ (s.cmdStart o).done = false ∧ (s.cmdStart o).err = false
    ∧ (s.cmdStart o).cmdOvr = s.cmdOvr ∧ (s.cmdStart o).wrIgn = s.wrIgn ∧ (s.cmdStart o).errcode = 0
    ∧ (s.cmdStart o).ie = s.ie ∧ (s.cmdStart o).inLen = s.inLen ∧ (s.cmdStart o).inStart = s.inStart
    ∧ (s.cmdStart o).tblIndex = s.tblIndex ∧ (s.cmdStart o).inbuf = s.inbuf ∧ (s.cmdStart o).outbuf = s.outbuf
    ∧ (s.cmdStart o).inCap = s.inCap ∧ (s.cmdStart o).outCap = s.outCap ∧ (s.cmdStart o).refused = s.refused
    ∧ (s.cmdStart o).tblPf = s.tblPf ∧ (s.cmdStart o).events = s.events ∧ (s.cmdStart o).rdata = s.rdata
    ∧ (s.cmdStart o).resets = s.resets := by
  refine ⟨rfl, rfl, rfl, rfl, rfl, rfl, rfl, rfl, rfl, rfl, rfl, rfl, rfl, rfl, rfl, rfl, rfl, rfl, rfl, rfl, rfl, rfl, rfl, rfl, rfl, rfl, rfl, rfl, rfl, rfl, rfl⟩

/-- A table load's start (rules R212, R213). -/
@[simp] theorem State.clearTable_fields (s : State) :
    (s.clearTable).phase = s.phase ∧ (s.clearTable).op = s.op ∧ (s.clearTable).pos = s.pos
    ∧ (s.clearTable).bitlen = s.bitlen ∧ (s.clearTable).paybase = s.paybase ∧ (s.clearTable).cursor = s.cursor
    ∧ (s.clearTable).acc = s.acc ∧ (s.clearTable).accLen = s.accLen ∧ (s.clearTable).accOvf = s.accOvf
    ∧ (s.clearTable).outLen = s.outLen ∧ (s.clearTable).ent = s.ent ∧ (s.clearTable).tblCount = 0
    ∧ (s.clearTable).tblValid = false ∧ (s.clearTable).done = s.done ∧ (s.clearTable).err = s.err
    ∧ (s.clearTable).cmdOvr = s.cmdOvr ∧ (s.clearTable).wrIgn = s.wrIgn ∧ (s.clearTable).errcode = s.errcode
    ∧ (s.clearTable).ie = s.ie ∧ (s.clearTable).inLen = s.inLen ∧ (s.clearTable).inStart = s.inStart
    ∧ (s.clearTable).tblIndex = s.tblIndex ∧ (s.clearTable).inbuf = s.inbuf ∧ (s.clearTable).outbuf = s.outbuf
    ∧ (s.clearTable).inCap = s.inCap ∧ (s.clearTable).outCap = s.outCap ∧ (s.clearTable).refused = s.refused
    ∧ (s.clearTable).tblPf = false ∧ (s.clearTable).events = s.events ∧ (s.clearTable).rdata = s.rdata
    ∧ (s.clearTable).resets = s.resets := by
  refine ⟨rfl, rfl, rfl, rfl, rfl, rfl, rfl, rfl, rfl, rfl, rfl, rfl, rfl, rfl, rfl, rfl, rfl, rfl, rfl, rfl, rfl, rfl, rfl, rfl, rfl, rfl, rfl, rfl, rfl, rfl, rfl⟩

/-- A decode's start (rules R212, R214). -/
@[simp] theorem State.clearDecode_fields (s : State) :
    (s.clearDecode).phase = s.phase ∧ (s.clearDecode).op = s.op ∧ (s.clearDecode).pos = s.pos
    ∧ (s.clearDecode).bitlen = s.bitlen ∧ (s.clearDecode).paybase = s.paybase ∧ (s.clearDecode).cursor = 0
    ∧ (s.clearDecode).acc = s.acc ∧ (s.clearDecode).accLen = 0 ∧ (s.clearDecode).accOvf = false
    ∧ (s.clearDecode).outLen = 0 ∧ (s.clearDecode).ent = s.ent ∧ (s.clearDecode).tblCount = s.tblCount
    ∧ (s.clearDecode).tblValid = s.tblValid ∧ (s.clearDecode).done = s.done ∧ (s.clearDecode).err = s.err
    ∧ (s.clearDecode).cmdOvr = s.cmdOvr ∧ (s.clearDecode).wrIgn = s.wrIgn ∧ (s.clearDecode).errcode = s.errcode
    ∧ (s.clearDecode).ie = s.ie ∧ (s.clearDecode).inLen = s.inLen ∧ (s.clearDecode).inStart = s.inStart
    ∧ (s.clearDecode).tblIndex = s.tblIndex ∧ (s.clearDecode).inbuf = s.inbuf ∧ (s.clearDecode).outbuf = s.outbuf
    ∧ (s.clearDecode).inCap = s.inCap ∧ (s.clearDecode).outCap = s.outCap ∧ (s.clearDecode).refused = s.refused
    ∧ (s.clearDecode).tblPf = s.tblPf ∧ (s.clearDecode).events = s.events ∧ (s.clearDecode).rdata = s.rdata
    ∧ (s.clearDecode).resets = s.resets := by
  refine ⟨rfl, rfl, rfl, rfl, rfl, rfl, rfl, rfl, rfl, rfl, rfl, rfl, rfl, rfl, rfl, rfl, rfl, rfl, rfl, rfl, rfl, rfl, rfl, rfl, rfl, rfl, rfl, rfl, rfl, rfl, rfl⟩

/-- The reset event (rules R56, R270). -/
@[simp] theorem State.resetEvent_fields (s : State) :
    (s.resetEvent).phase = 0 ∧ (s.resetEvent).op = 0 ∧ (s.resetEvent).pos = 0 ∧ (s.resetEvent).bitlen = 0
    ∧ (s.resetEvent).paybase = 0 ∧ (s.resetEvent).cursor = 0 ∧ (s.resetEvent).acc = s.acc ∧ (s.resetEvent).accLen = 0
    ∧ (s.resetEvent).accOvf = false ∧ (s.resetEvent).outLen = 0 ∧ (s.resetEvent).ent = s.ent
    ∧ (s.resetEvent).tblCount = 0 ∧ (s.resetEvent).tblValid = false ∧ (s.resetEvent).done = false
    ∧ (s.resetEvent).err = false ∧ (s.resetEvent).cmdOvr = false ∧ (s.resetEvent).wrIgn = false
    ∧ (s.resetEvent).errcode = 0 ∧ (s.resetEvent).ie = false ∧ (s.resetEvent).inLen = 0 ∧ (s.resetEvent).inStart = 0
    ∧ (s.resetEvent).tblIndex = 0 ∧ (s.resetEvent).inbuf = [] ∧ (s.resetEvent).outbuf = []
    ∧ (s.resetEvent).inCap = s.inCap ∧ (s.resetEvent).outCap = s.outCap ∧ (s.resetEvent).refused = none
    ∧ (s.resetEvent).tblPf = false ∧ (s.resetEvent).events = s.events ∧ (s.resetEvent).rdata = s.rdata
    ∧ (s.resetEvent).resets = s.resets + 1 := by
  refine ⟨rfl, rfl, rfl, rfl, rfl, rfl, rfl, rfl, rfl, rfl, rfl, rfl, rfl, rfl, rfl, rfl, rfl, rfl, rfl, rfl, rfl, rfl, rfl, rfl, rfl, rfl, rfl, rfl, rfl, rfl, rfl⟩

/-- A host read's data (rule R82). -/
@[simp] theorem State.answer_fields (s : State) (v : Word) :
    (s.answer v).phase = s.phase ∧ (s.answer v).op = s.op ∧ (s.answer v).pos = s.pos ∧ (s.answer v).bitlen = s.bitlen
    ∧ (s.answer v).paybase = s.paybase ∧ (s.answer v).cursor = s.cursor ∧ (s.answer v).acc = s.acc
    ∧ (s.answer v).accLen = s.accLen ∧ (s.answer v).accOvf = s.accOvf ∧ (s.answer v).outLen = s.outLen
    ∧ (s.answer v).ent = s.ent ∧ (s.answer v).tblCount = s.tblCount ∧ (s.answer v).tblValid = s.tblValid
    ∧ (s.answer v).done = s.done ∧ (s.answer v).err = s.err ∧ (s.answer v).cmdOvr = s.cmdOvr
    ∧ (s.answer v).wrIgn = s.wrIgn ∧ (s.answer v).errcode = s.errcode ∧ (s.answer v).ie = s.ie
    ∧ (s.answer v).inLen = s.inLen ∧ (s.answer v).inStart = s.inStart ∧ (s.answer v).tblIndex = s.tblIndex
    ∧ (s.answer v).inbuf = s.inbuf ∧ (s.answer v).outbuf = s.outbuf ∧ (s.answer v).inCap = s.inCap
    ∧ (s.answer v).outCap = s.outCap ∧ (s.answer v).refused = s.refused ∧ (s.answer v).tblPf = s.tblPf
    ∧ (s.answer v).events = s.events ∧ (s.answer v).rdata = v ∧ (s.answer v).resets = s.resets := by
  refine ⟨rfl, rfl, rfl, rfl, rfl, rfl, rfl, rfl, rfl, rfl, rfl, rfl, rfl, rfl, rfl, rfl, rfl, rfl, rfl, rfl, rfl, rfl, rfl, rfl, rfl, rfl, rfl, rfl, rfl, rfl, rfl⟩

/-- Taking an event changes the event list only. -/
theorem State.nextEvent_nil (s : State) (h : s.events = []) : s.nextEvent = (.engine, s) := by
  simp [State.nextEvent, h]

theorem State.nextEvent_cons (s : State) (e : Event) (rest : List Event) (h : s.events = e :: rest) :
    s.nextEvent = (e, { s with events := rest }) := by
  simp [State.nextEvent, h]

/-- BUSY is a function of the phase alone (rule R21). -/
theorem State.busy_iff (s : State) : s.busy = true ↔ s.phase ≠ 0#4 := by
  simp [State.busy, Phase.idle]

@[simp] theorem State.raise_busy (s : State) (k : ErrKind) : (s.raise k).busy = false := rfl

@[simp] theorem State.complete_busy (s : State) : s.complete.busy = false := rfl

@[simp] theorem State.resetEvent_busy (s : State) : s.resetEvent.busy = false := rfl

end Sys2Proof.Machine
end

