-- ==== Sys2Proof/Laws/Ops.lean ====
section
/-! SUPPORT. What each shared operation can do, once: the provers cite these instead of unfolding the operations. -/

namespace Sys2Proof.Machine

/-- A container field answers in one of three ways: out of range it raises, with an unwritten byte it refuses, and
otherwise the step goes on with the bytes. -/
theorem State.containerField_cases (s : State) (n : Nat) (trunc : ErrKind) (k : List Byte → Result) :
    (s.inLen.toNat < s.pos.toNat + n ∧ s.containerField n trunc k = .next (s.raise trunc))
    ∨ (s.pos.toNat + n ≤ s.inLen.toNat ∧ s.memReadIn s.pos.toNat n = none
        ∧ s.containerField n trunc k = .next (s.refuse .uninitInbuf))
    ∨ ∃ bytes, s.pos.toNat + n ≤ s.inLen.toNat ∧ s.memReadIn s.pos.toNat n = some bytes
        ∧ s.containerField n trunc k = k bytes := by
  unfold State.containerField State.inRange
  by_cases h : s.pos.toNat + n ≤ s.inLen.toNat
  · cases hm : s.memReadIn s.pos.toNat n with
    | none => exact .inr (.inl ⟨h, rfl, by simp [h]⟩)
    | some bytes => exact .inr (.inr ⟨bytes, h, rfl, by simp [h]⟩)
  · exact .inl ⟨by omega, by simp [h]⟩

/-- Storing the open entry goes on below 256 entries and stops from there on. -/
theorem State.storeEntry_cases (s : State) (e : Entry) (k : State → State) :
    (s.tblCount.toNat < 256
      ∧ s.storeEntry e k = .next (k { s with ent := s.ent.write s.tblCount.toNat e }))
    ∨ (256 ≤ s.tblCount.toNat ∧ s.storeEntry e k = .fault .tableEntryNonexistent) := by
  unfold State.storeEntry
  by_cases h : s.tblCount.toNat < 256
  · exact .inl ⟨h, by simp [h]⟩
  · exact .inr ⟨by omega, by simp [h]⟩

/-- Emitting raises on a full buffer, writes the byte at `out_len` below its capacity, and stops beyond it. -/
theorem State.emit_cases (s : State) (v : Byte) (k : State → State) :
    (s.outLen = s.outCap ∧ s.emit v k = .next (s.raise .outputOverflow))
    ∨ (s.outLen.toNat < s.outCap.toNat
        ∧ s.emit v k = .next (k { s with
            outbuf := s.outbuf.write s.outLen.toNat v, outLen := s.outLen + 1 }))
    ∨ (s.outCap.toNat < s.outLen.toNat ∧ s.emit v k = .fault .outputByteNonexistent) := by
  unfold State.emit
  by_cases h : s.outLen = s.outCap
  · exact .inl ⟨h, by simp [h]⟩
  · have hn : s.outLen.toNat ≠ s.outCap.toNat := fun hh => h (BitVec.eq_of_toNat_eq hh)
    by_cases h2 : s.outLen.toNat < s.outCap.toNat
    · exact .inr (.inl ⟨h2, by simp [h, h2]⟩)
    · exact .inr (.inr ⟨by omega, by simp [h, h2]⟩)

/-- Appending a bit does nothing after an overflow, sets the overflow mark on the 256th bit, and stores the bit
otherwise (rule R182). -/
theorem State.accAppend_cases (s : State) (b : Bool) :
    (s.accOvf = true ∧ s.accAppend b = s)
    ∨ (s.accOvf = false ∧ s.accLen = 255#8 ∧ s.accAppend b = { s with accOvf := true })
    ∨ (s.accOvf = false ∧ s.accLen.toNat < 255
        ∧ s.accAppend b = { s with acc := setBit s.acc s.accLen.toNat b, accLen := s.accLen + 1 }) := by
  unfold State.accAppend
  by_cases h : s.accOvf = true
  · exact .inl ⟨h, by simp [h]⟩
  · have hf : s.accOvf = false := by simpa using h
    by_cases h2 : s.accLen = 255#8
    · exact .inr (.inl ⟨hf, h2, by simp [h2, hf]⟩)
    · have hl : s.accLen.toNat ≠ 255 := fun hh => h2 (BitVec.eq_of_toNat_eq (by simpa using hh))
      have := s.accLen.isLt
      exact .inr (.inr ⟨hf, by omega, by simp [h2, hf]⟩)

/-- A command sets CMD_OVR while busy and starts otherwise; IE is written in either case (rules R210, R216). -/
theorem State.command_cases (s : State) (ie : Bool) (start : State → State) :
    (s.busy = true ∧ s.command ie start = { s with ie := ie, cmdOvr := true })
    ∨ (s.busy = false ∧ s.command ie start = start { s with ie := ie }) := by
  by_cases h : s.busy = true
  · exact .inl ⟨h, by simp only [State.command]; simp only [State.busy] at h ⊢; simp [h]⟩
  · have hf : s.busy = false := by simpa using h
    exact .inr ⟨hf, by simp only [State.command]; simp only [State.busy] at hf ⊢; simp [hf]⟩

/-- A dropped write sets WR_IGN and does nothing else (rule R280). -/
theorem State.writeIdle_cases (s : State) (write : State → State) :
    (s.busy = true ∧ s.writeIdle write = { s with wrIgn := true })
    ∨ (s.busy = false ∧ s.writeIdle write = write s) := by
  unfold State.writeIdle
  cases h : s.busy <;> simp

/-- An entry matches exactly when the accumulator has not overflowed and they are equal in length and in every bit
(rule R183). -/
theorem State.matchesEntry_iff (s : State) (i : Nat) :
    s.matchesEntry i = true ↔
      s.accOvf = false ∧ (s.entry i).len = s.accLen
        ∧ ∀ j, j < s.accLen.toNat → (s.entry i).code.getLsbD j = s.acc.getLsbD j := by
  simp [State.matchesEntry, sameBits_iff, and_assoc]

/-- The match set holds the matching committed entries and no others (rule R183). -/
theorem State.mem_matchSet (s : State) (i : Nat) :
    i ∈ s.matchSet ↔ i < s.tblCount.toNat ∧ s.matchesEntry i = true := by
  simp [State.matchSet]

/-- Code a is a prefix of code b (rule R180). -/
theorem Entry.isPrefix_iff (a b : Entry) :
    a.isPrefix b = true ↔
      a.len.toNat ≤ b.len.toNat ∧ ∀ j, j < a.len.toNat → a.code.getLsbD j = b.code.getLsbD j := by
  simp [Entry.isPrefix, sameBits_iff]

/-- PrefixFree, unfolded once (rule R180). -/
theorem State.prefixFree_iff (s : State) (n : Nat) :
    s.prefixFree n = true ↔
      ∀ i, i < n → ∀ j, j < n → i ≠ j → (s.entry i).isPrefix (s.entry j) = false := by
  simp only [State.prefixFree, List.all_eq_true, List.mem_range, Bool.or_eq_true, beq_iff_eq,
    Bool.not_eq_true']
  constructor
  · intro h i hi j hj hij
    exact (h i hi j hj).resolve_left hij
  · intro h i hi j hj
    by_cases hij : i = j
    · exact .inl hij
    · exact .inr (h i hi j hj hij)

/-- Reading an entry after the store is written at one index. -/
theorem State.entry_write (s : State) (a i : Nat) (e : Entry) :
    State.entry { s with ent := s.ent.write a e } i = if i = a then e else s.entry i := by
  unfold State.entry
  by_cases h : i = a
  · subst h; simp [Memory.read_write_self]
  · simp [Memory.read_write_ne _ _ _ _ h, h]

/-- PrefixFree looks at the entries only. -/
theorem State.prefixFree_congr (s t : State) (n : Nat) (h : ∀ i, i < n → s.entry i = t.entry i) :
    s.prefixFree n = t.prefixFree n := by
  have key : ∀ u v : State, (∀ i, i < n → u.entry i = v.entry i) → u.prefixFree n = true →
      v.prefixFree n = true := by
    intro u v huv hu
    rw [State.prefixFree_iff] at hu ⊢
    intro i hi j hj hij
    rw [← huv i hi, ← huv j hj]
    exact hu i hi j hj hij
  cases hs : s.prefixFree n <;> cases ht : t.prefixFree n <;> simp_all
  · exact absurd (key t s (fun i hi => (h i hi).symm) ht) (by simp [hs])
  · exact absurd (key s t h hs) (by simp [ht])

end Sys2Proof.Machine
end

