-- ==== Sys2Proof/Laws/Engine.lean ====
section
/-! SUPPORT. What the decode engine's step can do, once (rule R184). -/

namespace Sys2Proof.Machine

/-- The end of a DECODE step moves to FINISH at the last bit and changes nothing before it. -/
theorem State.endOfPayload_cases (s : State) :
    (s.cursor = s.bitlen ∧ s.endOfPayload = { s with phase := Phase.finish })
    ∨ (s.cursor ≠ s.bitlen ∧ s.endOfPayload = s) := by
  unfold State.endOfPayload
  by_cases h : s.cursor = s.bitlen
  · exact .inl ⟨h, by simp [h]⟩
  · exact .inr ⟨h, by simp [h]⟩

/-- With room in the accumulator the bit is stored at its end. -/
theorem State.withBit_room (s : State) (b : Bool) (h : s.accHasRoom = true) :
    s.accOvf = false ∧ s.accLen.toNat < 255 ∧
      s.withBit b = { s with
        cursor := s.cursor + 1, acc := setBit s.acc s.accLen.toNat b, accLen := s.accLen + 1 } := by
  simp only [State.accHasRoom, Bool.and_eq_true, Bool.not_eq_true', decide_eq_true_eq] at h
  refine ⟨h.1, h.2, ?_⟩
  rcases State.accAppend_cases { s with cursor := s.cursor + 1 } b with ⟨h1, -⟩ | ⟨-, h1, -⟩ | ⟨-, -, h1⟩
  · exact absurd (h.1.symm.trans h1) (by simp)
  · exact absurd (congrArg BitVec.toNat h1) (by simpa using Nat.ne_of_lt h.2)
  · exact h1

/-- Without room the bit is only counted, and the overflow mark is set. -/
theorem State.withBit_full (s : State) (b : Bool) (h : s.accHasRoom = false) :
    s.withBit b = { s with cursor := s.cursor + 1, accOvf := true } := by
  rcases State.accAppend_cases { s with cursor := s.cursor + 1 } b with ⟨h1, h2⟩ | ⟨-, -, h1⟩ | ⟨h1, h2, -⟩
  · have h1' : s.accOvf = true := h1
    refine (show s.withBit b = { s with cursor := s.cursor + 1 } from h2).trans ?_
    rw [h1']
  · exact h1
  · have h1' : s.accOvf = false := h1
    have h2' : s.accLen.toNat < 255 := h2
    simp [State.accHasRoom, h1', h2'] at h

/-- A bit that is not stored is not matched; a stored one is matched against every committed entry, and the match
emits its symbol. -/
theorem State.decodeBit_cases (s : State) (b : Bool) :
    (s.accHasRoom = false ∧ s.decodeBit b = .next (s.withBit b).endOfPayload)
    ∨ (s.accHasRoom = true ∧ (s.withBit b).matchSet = [] ∧ s.decodeBit b = .next (s.withBit b).endOfPayload)
    ∨ ∃ k rest, s.accHasRoom = true ∧ (s.withBit b).matchSet = k :: rest
        ∧ s.decodeBit b = (s.withBit b).emit ((s.withBit b).entry k).sym State.afterEmit := by
  unfold State.decodeBit
  cases hr : s.accHasRoom with
  | false => exact .inl ⟨rfl, by simp⟩
  | true =>
    cases hm : (s.withBit b).matchSet with
    | nil => exact .inr (.inl ⟨rfl, rfl, by simp [hm]⟩)
    | cons k rest => exact .inr (.inr ⟨k, rest, rfl, rfl, by simp [hm]⟩)

/-- A DECODE step refuses over a table that is not prefix-free, refuses an unwritten payload byte, and otherwise
decodes one bit. -/
theorem execDecodeStep_cases (s : State) :
    (s.tblPf = false ∧ execDecodeStep s = .next (s.refuse .nonPrefixFreeTable))
    ∨ (s.tblPf = true ∧ s.payloadBit s.cursor.toNat = none
        ∧ execDecodeStep s = .next (s.refuse .uninitInbuf))
    ∨ ∃ b, s.tblPf = true ∧ s.payloadBit s.cursor.toNat = some b ∧ execDecodeStep s = s.decodeBit b := by
  unfold execDecodeStep
  cases hp : s.tblPf with
  | false => exact .inl ⟨rfl, by simp⟩
  | true =>
    cases hb : s.payloadBit s.cursor.toNat with
    | none => exact .inr (.inl ⟨rfl, rfl, by simp⟩)
    | some b => exact .inr (.inr ⟨b, rfl, rfl, by simp⟩)

end Sys2Proof.Machine
end

