-- ==== Sys2Proof/Laws/Frames.lean ====
section
/-! SUPPORT. The frames, once for each agent: the fields a host access, a command and an engine step can write. A next
state written `{ s with f := t.f, … }` says that every field not named is unchanged. -/

namespace Sys2Proof.Machine

/-- While idle a command starts. -/
theorem State.command_of_idle (s : State) (ie : Bool) (start : State → State) (h : s.phase = 0#4) :
    s.command ie start = start { s with ie := ie } := by
  rcases s.command_cases ie start with ⟨h1, -⟩ | ⟨-, h1⟩
  · exact absurd h ((State.busy_iff s).1 h1)
  · exact h1

/-- While busy a command sets CMD_OVR (rule R216). -/
theorem State.command_of_busy (s : State) (ie : Bool) (start : State → State) (h : s.phase ≠ 0#4) :
    s.command ie start = { s with ie := ie, cmdOvr := true } := by
  rcases s.command_cases ie start with ⟨-, h1⟩ | ⟨h1, -⟩
  · exact h1
  · rw [(State.busy_iff s).2 h] at h1; cases h1

/-- While idle a guarded write takes effect. -/
theorem State.writeIdle_of_idle (s : State) (write : State → State) (h : s.phase = 0#4) :
    s.writeIdle write = write s := by
  rcases s.writeIdle_cases write with ⟨h1, -⟩ | ⟨-, h1⟩
  · exact absurd h ((State.busy_iff s).1 h1)
  · exact h1

/-- While busy a guarded write is dropped (rule R280). -/
theorem State.writeIdle_of_busy (s : State) (write : State → State) (h : s.phase ≠ 0#4) :
    s.writeIdle write = { s with wrIgn := true } := by
  rcases s.writeIdle_cases write with ⟨-, h1⟩ | ⟨h1, -⟩
  · exact h1
  · rw [(State.busy_iff s).2 h] at h1; cases h1

/-- A host read of a port: no write, no command. -/
def HostAccess.IsRead (h : HostAccess) : Prop := (∃ w, h = .csrRead w) ∨ (∃ a, h = .inRead a) ∨ (∃ a, h = .outRead a)

/-- What a host read returns. -/
def State.readValue (s : State) : HostAccess → Word
  | .csrRead w => s.csrValue (csrAt w)
  | .inRead a => s.inbufValue a
  | .outRead a => s.outbufValue a
  | .csrWrite _ _ | .inWrite _ _ | .outWrite _ _ => 0

/-- A host read writes the model's read data and nothing else (rule R82). -/
theorem State.access_read (s : State) (h : HostAccess) (hr : h.IsRead) : s.access h = s.answer (s.readValue h) := by
  rcases hr with ⟨w, rfl⟩ | ⟨a, rfl⟩ | ⟨a, rfl⟩ <;> rfl

/-- A host read runs no command. -/
theorem commandWord_read (h : HostAccess) (hr : h.IsRead) : commandWord h = none := by
  rcases hr with ⟨w, rfl⟩ | ⟨a, rfl⟩ | ⟨a, rfl⟩ <;> rfl

/-- What a read returns rests neither on the events to come nor on the data read last (rule R82). -/
theorem State.readValue_congr (s : State) (h : HostAccess) (evs : List Event) (v : Word) :
    State.readValue { s with events := evs, rdata := v } h = s.readValue h := by
  cases h with
  | csrRead w => simp only [State.readValue]; cases csrAt w <;> rfl
  | _ => rfl

/-- What a host access that runs no command can write; while busy it writes no input (rules R280, R89). -/
def AccessFrame (s t : State) : Prop :=
  t = { s with
    done := t.done, err := t.err, cmdOvr := t.cmdOvr, wrIgn := t.wrIgn, inLen := t.inLen, inStart := t.inStart,
    bitlen := t.bitlen, inbuf := t.inbuf, tblIndex := t.tblIndex, rdata := t.rdata }
  ∧ (t.done = true → s.done = true) ∧ (t.err = true → s.err = true)
  ∧ (s.phase ≠ 0#4 → t.inbuf = s.inbuf ∧ t.inLen = s.inLen ∧ t.inStart = s.inStart ∧ t.bitlen = s.bitlen)

/-- A guarded write of the host keeps the frame. -/
theorem State.writeIdle_frame (s : State) (write : State → State)
    (hw : write s = { s with
      inLen := (write s).inLen, inStart := (write s).inStart, bitlen := (write s).bitlen,
      inbuf := (write s).inbuf }) : AccessFrame s (s.writeIdle write) := by
  by_cases h : s.phase = 0#4
  · rw [s.writeIdle_of_idle write h, hw]
    exact ⟨rfl, id, id, fun hp => absurd h hp⟩
  · rw [s.writeIdle_of_busy write h]
    exact ⟨rfl, id, id, fun _ => ⟨rfl, rfl, rfl, rfl⟩⟩

/-- Every host access that runs no command keeps the frame. -/
theorem State.access_frame (s : State) (h : HostAccess) : AccessFrame s (s.access h) := by
  have read : ∀ t : State, t = { s with rdata := t.rdata } → AccessFrame s t := by
    intro t ht; rw [ht]; exact ⟨rfl, id, id, fun _ => ⟨rfl, rfl, rfl, rfl⟩⟩
  cases h with
  | csrRead w => exact read _ rfl
  | inRead a => exact read _ rfl
  | outRead a => exact read _ rfl
  | outWrite a v => exact read _ rfl
  | inWrite a v =>
    simp only [State.access, State.inbufWrite]
    split
    · exact s.writeIdle_frame _ rfl
    · exact read _ rfl
  | csrWrite w v =>
    rw [show s.access (.csrWrite w v) = s.csrWrite v (csrAt w) from rfl]
    cases csrAt w with
    | status =>
      refine ⟨rfl, fun hd => ?_, fun he => ?_, fun _ => ⟨rfl, rfl, rfl, rfl⟩⟩
      · exact (Bool.and_eq_true _ _ ▸ (show (s.done && !v.getLsbD 1) = true from hd)).1
      · exact (Bool.and_eq_true _ _ ▸ (show (s.err && !v.getLsbD 2) = true from he)).1
    | tblIndex => exact ⟨rfl, id, id, fun _ => ⟨rfl, rfl, rfl, rfl⟩⟩
    | inLen => simp only [State.csrWrite]; exact s.writeIdle_frame _ rfl
    | inStart => simp only [State.csrWrite]; exact s.writeIdle_frame _ rfl
    | bitlen => simp only [State.csrWrite]; exact s.writeIdle_frame _ rfl
    | _ => exact read _ rfl

/-- What a CTRL write can write (rules R210 to R217). -/
def CommandFrame (s t : State) : Prop :=
  t = { s with
    ie := t.ie, done := t.done, err := t.err, cmdOvr := t.cmdOvr, errcode := t.errcode, op := t.op, pos := t.pos,
    bitlen := t.bitlen, tblCount := t.tblCount, tblValid := t.tblValid, tblPf := t.tblPf, outLen := t.outLen,
    cursor := t.cursor, accLen := t.accLen, accOvf := t.accOvf, phase := t.phase }
  ∧ (t.outLen = s.outLen ∨ t.outLen = 0#32)

/-- Every CTRL write answers a next state inside the frame. -/
theorem command_frame (s : State) (v : Word) : ∃ t, exec (decodeCtrl v) s = .next t ∧ CommandFrame s t := by
  have start : ∀ (ie : Bool) (f : State → State), (∀ u, CommandFrame u (f u)) → CommandFrame s (s.command ie f) := by
    intro ie f hf
    rcases s.command_cases ie f with ⟨-, e⟩ | ⟨-, e⟩ <;> rw [e]
    · exact ⟨rfl, .inl rfl⟩
    · obtain ⟨h, ho⟩ := hf { s with ie := ie }
      exact ⟨by rw [h], ho⟩
  simp only [decodeCtrl]
  split
  · exact ⟨_, rfl, rfl, .inl rfl⟩
  split
  · exact ⟨_, rfl, start _ _ fun u => ⟨rfl, .inr rfl⟩⟩
  split
  · exact ⟨_, rfl, start _ _ fun u => ⟨rfl, .inl rfl⟩⟩
  split
  · refine ⟨_, rfl, start _ _ fun u => ?_⟩
    dsimp only
    split
    · exact ⟨rfl, .inr rfl⟩
    · exact ⟨rfl, .inl rfl⟩
  split
  · refine ⟨_, rfl, ?_⟩
    split <;> exact ⟨rfl, .inl rfl⟩
  · exact ⟨_, rfl, start _ _ fun u => ⟨rfl, .inl rfl⟩⟩

/-- What an engine step can write: no host configuration, no input, no hazard flag. -/
def EngineFrame (s t : State) : Prop :=
  t = { s with
    phase := t.phase, pos := t.pos, bitlen := t.bitlen, paybase := t.paybase, cursor := t.cursor, acc := t.acc,
    accLen := t.accLen, accOvf := t.accOvf, outLen := t.outLen, ent := t.ent, tblCount := t.tblCount,
    tblValid := t.tblValid, done := t.done, err := t.err, errcode := t.errcode, outbuf := t.outbuf,
    refused := t.refused, tblPf := t.tblPf }
  ∧ (s.tblValid = true → t.tblValid = true)

/-- A container step's next state is an error entry, a refusal, or what the step makes of the bytes it read. -/
theorem State.containerField_next (s t : State) (n : Nat) (trunc : ErrKind) (k : List Byte → Result)
    (h : s.containerField n trunc k = .next t) :
    (s.inLen.toNat < s.pos.toNat + n ∧ t = s.raise trunc)
    ∨ (s.pos.toNat + n ≤ s.inLen.toNat ∧ t = s.refuse .uninitInbuf)
    ∨ ∃ bytes, s.pos.toNat + n ≤ s.inLen.toNat ∧ s.memReadIn s.pos.toNat n = some bytes ∧ k bytes = .next t := by
  rcases s.containerField_cases n trunc k with ⟨h1, h2⟩ | ⟨h1, -, h2⟩ | ⟨b, h1, h3, h2⟩
  · rw [h2] at h; cases h; exact .inl ⟨h1, rfl⟩
  · rw [h2] at h; cases h; exact .inr (.inl ⟨h1, rfl⟩)
  · exact .inr (.inr ⟨b, h1, h3, h2.symm.trans h⟩)

/-- A store of the open entry that answers a next state wrote the entry at `tbl_count`. -/
theorem State.storeEntry_next (s t : State) (e : Entry) (k : State → State) (h : s.storeEntry e k = .next t) :
    s.tblCount.toNat < 256 ∧ t = k { s with ent := s.ent.write s.tblCount.toNat e } := by
  rcases s.storeEntry_cases e k with ⟨h1, h2⟩ | ⟨-, h2⟩ <;> rw [h2] at h <;> cases h
  exact ⟨h1, rfl⟩

/-- A DECODE step's next state, in one of four shapes: a refusal, no symbol, a full output, one symbol. -/
theorem execDecodeStep_next (s t : State) (h : execDecodeStep s = .next t) :
    (∃ r, t = s.refuse r)
    ∨ t = { s with cursor := t.cursor, acc := t.acc, accLen := t.accLen, accOvf := t.accOvf, phase := t.phase }
    ∨ (∃ b, s.accHasRoom = true ∧ s.outLen = s.outCap ∧ t = State.raise { s with
        cursor := s.cursor + 1, acc := setBit s.acc s.accLen.toNat b, accLen := s.accLen + 1 } .outputOverflow)
    ∨ (s.outLen.toNat < s.outCap.toNat ∧ ∃ v, t = { s with
        cursor := t.cursor, acc := t.acc, accLen := 0, phase := t.phase,
        outbuf := s.outbuf.write s.outLen.toNat v, outLen := s.outLen + 1 }) := by
  have done : ∀ w : State, w = { s with cursor := w.cursor, acc := w.acc, accLen := w.accLen, accOvf := w.accOvf } →
      w.endOfPayload = { s with
        cursor := w.endOfPayload.cursor, acc := w.endOfPayload.acc, accLen := w.endOfPayload.accLen,
        accOvf := w.endOfPayload.accOvf, phase := w.endOfPayload.phase } := by
    intro w hw
    rcases w.endOfPayload_cases with ⟨-, e⟩ | ⟨-, e⟩ <;> rw [e, hw]
  rcases execDecodeStep_cases s with ⟨-, e⟩ | ⟨-, -, e⟩ | ⟨b, -, -, e⟩ <;> rw [e] at h
  · cases h; exact .inl ⟨_, rfl⟩
  · cases h; exact .inl ⟨_, rfl⟩
  rcases s.decodeBit_cases b with ⟨hr, e⟩ | ⟨hr, -, e⟩ | ⟨k, r, hr, -, e⟩ <;> rw [e] at h
  · cases h; exact .inr (.inl (done _ (by rw [s.withBit_full b hr])))
  · cases h; exact .inr (.inl (done _ (by rw [(s.withBit_room b hr).2.2])))
  · generalize ((s.withBit b).entry k).sym = v at h
    rw [(s.withBit_room b hr).2.2] at h
    rcases State.emit_cases { s with
        cursor := s.cursor + 1, acc := setBit s.acc s.accLen.toNat b, accLen := s.accLen + 1 }
        v State.afterEmit with ⟨hc, e⟩ | ⟨hc, e⟩ | ⟨-, e⟩ <;> rw [e] at h <;> cases h
    · exact .inr (.inr (.inl ⟨b, hr, hc, rfl⟩))
    · refine .inr (.inr (.inr ⟨hc, v, ?_⟩))
      simp only [State.afterEmit]
      rcases State.endOfPayload_cases { s with
        cursor := s.cursor + 1, acc := setBit s.acc s.accLen.toNat b, accLen := 0,
        outbuf := s.outbuf.write s.outLen.toNat v, outLen := s.outLen + 1 } with ⟨-, e⟩ | ⟨-, e⟩ <;> rw [e]

/-- Every engine step keeps the frame. -/
theorem engine_frame (s t : State) (p : BitVec 4) (h : exec (decodePhase p) s = .next t) : EngineFrame s t := by
  simp only [decodePhase] at h
  split at h
  · cases h; exact ⟨rfl, id⟩
  split at h
  · rcases s.containerField_next t _ _ _ h with ⟨-, h⟩ | ⟨-, h⟩ | ⟨b, -, -, h⟩
    · rw [h]; exact ⟨rfl, id⟩
    · rw [h]; exact ⟨rfl, id⟩
    · cases h; exact ⟨rfl, id⟩
  split at h
  · rcases s.containerField_next t _ _ _ h with ⟨-, h⟩ | ⟨-, h⟩ | ⟨b, -, -, h⟩
    · rw [h]; exact ⟨rfl, id⟩
    · rw [h]; exact ⟨rfl, id⟩
    · rw [(s.storeEntry_next t _ _ h).2]; exact ⟨rfl, id⟩
  split at h
  · rcases s.containerField_next t _ _ _ h with ⟨-, h⟩ | ⟨-, h⟩ | ⟨b, -, -, h⟩
    · rw [h]; exact ⟨rfl, id⟩
    · rw [h]; exact ⟨rfl, id⟩
    · split at h
      · cases h; exact ⟨rfl, id⟩
      · rw [(s.storeEntry_next t _ _ h).2]; exact ⟨rfl, id⟩
  split at h
  · rcases s.containerField_next t _ _ _ h with ⟨-, h⟩ | ⟨-, h⟩ | ⟨b, -, -, h⟩
    · rw [h]; exact ⟨rfl, id⟩
    · rw [h]; exact ⟨rfl, id⟩
    · rw [(s.storeEntry_next t _ _ h).2]; exact ⟨rfl, id⟩
  split at h
  · rcases s.containerField_next t _ _ _ h with ⟨-, h⟩ | ⟨-, h⟩ | ⟨b, -, -, h⟩
    · rw [h]; exact ⟨rfl, id⟩
    · rw [h]; exact ⟨rfl, id⟩
    · split at h
      · simp only [execCont] at h
        split at h <;> cases h <;> exact ⟨rfl, id⟩
      split at h
      · simp only [execLast] at h
        split at h <;> cases h <;> exact ⟨rfl, fun _ => rfl⟩
      · cases h; exact ⟨rfl, id⟩
  split at h
  · simp only [exec, execPCheck] at h
    split at h <;> cases h <;> exact ⟨rfl, id⟩
  split at h
  · rcases execDecodeStep_next s t h with ⟨r, h⟩ | h | ⟨b, -, -, h⟩ | ⟨-, v, h⟩ <;> rw [h] <;> exact ⟨rfl, id⟩
  split at h
  · simp only [exec, execFinish] at h
    split at h <;> cases h <;> exact ⟨rfl, id⟩
  · cases h

end Sys2Proof.Machine
end

