-- ==== Sys2Proof/Laws/PerInstr.lean ====
section
/-! SUPPORT. Facts about every instruction as syntax, one lemma per constructor. Family `EncodesInRow`: the encoder's
word of a well-formed instruction lies in the format and the `match` range, under the `mask`, that
spec/opcode_table.json gives its row. -/

namespace Sys2Proof.Laws

/-- The row of spec/opcode_table.json an instruction stands for: does this selector value lie in it? -/
def InRow : Instr → Selector → Bool
  | .cont, .marker b => b.toNat &&& 0xFF == 0x00
  | .last, .marker b => b.toNat &&& 0xFF == 0xFF
  | .reservedMarker _, .marker b => decide (0x01 ≤ b.toNat &&& 0xFF) && decide (b.toNat &&& 0xFF ≤ 0xFE)
  | .codeLength _, .length b => decide (0x01 ≤ b.toNat &&& 0xFF) && decide (b.toNat &&& 0xFF ≤ 0xFF)
  | .reservedLength, .length b => b.toNat &&& 0xFF == 0x00
  | .nop _, .ctrl v => v &&& 0xF#32 == 0x0#32
  | .decompress _, .ctrl v => v &&& 0xF#32 == 0x1#32
  | .loadTable _, .ctrl v => v &&& 0xF#32 == 0x2#32
  | .decode _, .ctrl v => v &&& 0xF#32 == 0x3#32
  | .reservedCmd _ _, .ctrl v => decide (4 ≤ (v &&& 0xF#32).toNat) && decide ((v &&& 0xF#32).toNat ≤ 0xE)
  | .abort _, .ctrl v => v &&& 0xF#32 == 0xF#32
  | .hdr, .phase p => p == 0x1#4
  | .tSym, .phase p => p == 0x2#4
  | .tLen, .phase p => p == 0x3#4
  | .tCode, .phase p => p == 0x4#4
  | .tMark, .phase p => p == 0x5#4
  | .pCheck, .phase p => p == 0x6#4
  | .decodeStep, .phase p => p == 0x7#4
  | .finish, .phase p => p == 0x8#4
  | .idle, .phase p => p == 0x0#4
  | .reservedPhase _, .phase p => decide (0x9 ≤ p.toNat) && decide (p.toNat ≤ 0xF)
  | _, _ => false

namespace EncodesInRow

/-- A well-formed instruction is encoded inside its own row. -/
def Statement (i : Instr) : Prop := i.wf = true → InRow i (encode i) = true

theorem cont : Statement .cont := by unfold Statement; decide

theorem last : Statement .last := by unfold Statement; decide

theorem reservedMarker (m : Byte) : Statement (.reservedMarker m) := by
  revert m; unfold Statement; decide

theorem codeLength (len : Byte) : Statement (.codeLength len) := by
  revert len; unfold Statement; decide

theorem reservedLength : Statement .reservedLength := by unfold Statement; decide

theorem nop (ie : Bool) : Statement (.nop ie) := by unfold Statement; cases ie <;> decide

theorem decompress (ie : Bool) : Statement (.decompress ie) := by unfold Statement; cases ie <;> decide

theorem loadTable (ie : Bool) : Statement (.loadTable ie) := by unfold Statement; cases ie <;> decide

theorem decode (ie : Bool) : Statement (.decode ie) := by unfold Statement; cases ie <;> decide

theorem reservedCmd (cmd : BitVec 4) (ie : Bool) : Statement (.reservedCmd cmd ie) := by
  revert cmd ie; unfold Statement; decide

theorem abort (ie : Bool) : Statement (.abort ie) := by unfold Statement; cases ie <;> decide

theorem hdr : Statement .hdr := by unfold Statement; decide

theorem tSym : Statement .tSym := by unfold Statement; decide

theorem tLen : Statement .tLen := by unfold Statement; decide

theorem tCode : Statement .tCode := by unfold Statement; decide

theorem tMark : Statement .tMark := by unfold Statement; decide

theorem pCheck : Statement .pCheck := by unfold Statement; decide

theorem decodeStep : Statement .decodeStep := by unfold Statement; decide

theorem finish : Statement .finish := by unfold Statement; decide

theorem idle : Statement .idle := by unfold Statement; decide

theorem reservedPhase (code : BitVec 4) : Statement (.reservedPhase code) := by
  revert code; unfold Statement; decide

end EncodesInRow

end Sys2Proof.Laws
end

