-- ==== Sys2Proof/Laws/Runs.lean ====
section
/-! SUPPORT. The block does not look at the events to come (log entry 1): no meaning reads or writes the list. So a run
under any schedule (rule R284, `IsRun`) is, in each of its finite parts, what `runSteps` does with those events
listed. -/

namespace Sys2Proof.Machine

/-- An outcome with another list of events to come. -/
def Result.withEvents (evs : List Event) : Result → Result
  | .next t => .next { t with events := evs }
  | .fault f => .fault f
  | .refused r => .refused r

/-- A choice between two outcomes that do not look at the events to come does not either. -/
theorem ite_withEvents {c : Prop} [Decidable c] {x : List Event} {a b a' b' : Result}
    (h1 : c → a' = Result.withEvents x a) (h2 : ¬c → b' = Result.withEvents x b) :
    (if c then a' else b') = Result.withEvents x (if c then a else b) := by
  by_cases h : c
  · rw [if_pos h, if_pos h]; exact h1 h
  · rw [if_neg h, if_neg h]; exact h2 h

/-- The same of a choice between two states. -/
theorem ite_stateEvents {c : Prop} [Decidable c] {x : List Event} {a b a' b' : State}
    (h1 : a' = { a with events := x }) (h2 : b' = { b with events := x }) :
    (if c then a' else b') = { (if c then a else b) with events := x } := by
  by_cases h : c
  · rw [if_pos h, if_pos h]; exact h1
  · rw [if_neg h, if_neg h]; exact h2

/-- The container read. -/
theorem State.memReadIn_events (s : State) (x : List Event) (a n : Nat) :
    State.memReadIn { s with events := x } a n = s.memReadIn a n := by
  induction n generalizing a with
  | zero => rfl
  | succ n ih => simp only [State.memReadIn, ih]

/-- A container field, if its step does not look at the events to come. -/
theorem State.containerField_withEvents (s : State) (x : List Event) (n : Nat) (e : ErrKind)
    (k k' : List Byte → Result) (h : ∀ b, k' b = Result.withEvents x (k b)) :
    State.containerField { s with events := x } n e k' = Result.withEvents x (s.containerField n e k) := by
  unfold State.containerField
  refine ite_withEvents (fun _ => ?_) (fun _ => rfl)
  rw [State.memReadIn_events s x s.pos.toNat n]
  cases s.memReadIn s.pos.toNat n with
  | some b => exact h b
  | none => rfl

/-- The write of the open entry. -/
theorem State.storeEntry_withEvents (s : State) (x : List Event) (e : Entry) (k k' : State → State)
    (h : ∀ t, k' { t with events := x } = { k t with events := x }) :
    State.storeEntry { s with events := x } e k' = Result.withEvents x (s.storeEntry e k) :=
  ite_withEvents (fun _ => congrArg Host.Outcome.next (h { s with ent := s.ent.write s.tblCount.toNat e }))
    (fun _ => rfl)

/-- A command. -/
theorem State.command_withEvents (s : State) (x : List Event) (ie : Bool) (f : State → State)
    (h : ∀ t, f { t with events := x } = { f t with events := x }) :
    State.command { s with events := x } ie f = { s.command ie f with events := x } :=
  ite_stateEvents rfl (h { s with ie := ie })

/-- The end of a DECODE step. -/
theorem State.endOfPayload_withEvents (s : State) (x : List Event) :
    State.endOfPayload { s with events := x } = { s.endOfPayload with events := x } := ite_stateEvents rfl rfl

/-- The append of one bit. -/
theorem State.withBit_withEvents (s : State) (x : List Event) (b : Bool) :
    State.withBit { s with events := x } b = { s.withBit b with events := x } :=
  ite_stateEvents rfl (ite_stateEvents rfl rfl)

/-- An emit. -/
theorem State.emit_withEvents (s : State) (x : List Event) (v : Byte) (k : State → State)
    (h : ∀ t, k { t with events := x } = { k t with events := x }) :
    State.emit { s with events := x } v k = Result.withEvents x (s.emit v k) :=
  ite_withEvents (fun _ => rfl) fun _ => ite_withEvents (fun _ => congrArg Host.Outcome.next (h { s with
    outbuf := s.outbuf.write s.outLen.toNat v, outLen := s.outLen + 1 })) fun _ => rfl

/-- The marker and length rows that T_MARK and T_LEN share with `exec`. -/
theorem execCont_withEvents (s : State) (x : List Event) :
    execCont { s with events := x } = Result.withEvents x (execCont s) := ite_withEvents (fun _ => rfl) fun _ => rfl

theorem execLast_withEvents (s : State) (x : List Event) :
    execLast { s with events := x } = Result.withEvents x (execLast s) := ite_withEvents (fun _ => rfl) fun _ => rfl

theorem execCodeLength_withEvents (s : State) (x : List Event) (l : Byte) :
    execCodeLength l { s with events := x } = Result.withEvents x (execCodeLength l s) := by
  unfold execCodeLength; exact State.storeEntry_withEvents s x _ _ _ fun _ => rfl

/-- The decoding of one bit. -/
theorem State.decodeBit_withEvents (s : State) (x : List Event) (b : Bool) :
    State.decodeBit { s with events := x } b = Result.withEvents x (s.decodeBit b) := by
  have hm : ∀ t : State, State.matchSet {t with events := x} = t.matchSet := fun _ => rfl
  have hr : State.accHasRoom { s with events := x } = s.accHasRoom := rfl
  unfold State.decodeBit
  simp only [State.withBit_withEvents, hm, hr]
  cases (if s.accHasRoom = true then (s.withBit b).matchSet else []) with
  | nil => exact congrArg Host.Outcome.next (State.endOfPayload_withEvents _ x)
  | cons k r =>
    exact State.emit_withEvents (s.withBit b) x _ _ fun t => State.endOfPayload_withEvents { t with accLen := 0 } x

/-- No instruction looks at the events to come. -/
theorem exec_withEvents (i : Instr) (s : State) (x : List Event) :
    exec i { s with events := x } = Result.withEvents x (exec i s) := by
  cases i with
  | cont => exact execCont_withEvents s x
  | last => exact execLast_withEvents s x
  | codeLength l => exact execCodeLength_withEvents s x l
  | decompress ie => exact congrArg Host.Outcome.next (State.command_withEvents s x ie _ fun _ => by rfl)
  | loadTable ie => exact congrArg Host.Outcome.next (State.command_withEvents s x ie _ fun _ => by rfl)
  | decode ie =>
    exact congrArg Host.Outcome.next (State.command_withEvents s x ie _ fun t => by exact ite_stateEvents rfl rfl)
  | reservedCmd c ie => exact congrArg Host.Outcome.next (State.command_withEvents s x ie _ fun _ => by rfl)
  | abort ie => exact congrArg Host.Outcome.next (ite_stateEvents rfl rfl)
  | hdr => exact State.containerField_withEvents s x _ _ _ _ fun _ => rfl
  | tSym =>
    exact State.containerField_withEvents s x _ _ _ _ fun _ => State.storeEntry_withEvents s x _ _ _ fun _ => by rfl
  | tLen =>
    exact State.containerField_withEvents s x _ _ _ _ fun b =>
      ite_withEvents (fun _ => rfl) fun _ => execCodeLength_withEvents s x _
  | tCode =>
    exact State.containerField_withEvents s x _ _ _ _ fun _ => State.storeEntry_withEvents s x _ _ _ fun _ => by rfl
  | tMark =>
    exact State.containerField_withEvents s x _ _ _ _ fun b => ite_withEvents (fun _ => execCont_withEvents s x) fun _ =>
      ite_withEvents (fun _ => execLast_withEvents s x) fun _ => rfl
  | pCheck => exact ite_withEvents (fun _ => rfl) fun _ => rfl
  | decodeStep =>
    refine ite_withEvents (fun _ => ?_) fun _ => rfl
    have hb : State.payloadBit { s with events := x } s.cursor.toNat = s.payloadBit s.cursor.toNat := rfl
    rw [hb]
    cases s.payloadBit s.cursor.toNat with
    | none => rfl
    | some b => exact State.decodeBit_withEvents s x b
  | finish => exact ite_withEvents (fun _ => rfl) fun _ => rfl
  | reservedMarker _ | reservedLength | nop _ | idle | reservedPhase _ => rfl

/-- A guarded host write. -/
theorem State.writeIdle_withEvents (s : State) (x : List Event) (f : State → State)
    (h : f { s with events := x } = { f s with events := x }) :
    State.writeIdle { s with events := x } f = { s.writeIdle f with events := x } := ite_stateEvents rfl h

/-- A host access that runs no command. -/
theorem State.access_withEvents (s : State) (x : List Event) (h : HostAccess) :
    State.access { s with events := x } h = { s.access h with events := x } := by
  cases h with
  | csrWrite w v =>
    show State.csrWrite _ v (csrAt w) = _
    change _ = { s.csrWrite v (csrAt w) with events := x }
    cases csrAt w with
    | inLen => simp only [State.csrWrite]; exact State.writeIdle_withEvents s x _ (by rfl)
    | inStart => simp only [State.csrWrite]; exact State.writeIdle_withEvents s x _ (by rfl)
    | bitlen => simp only [State.csrWrite]; exact State.writeIdle_withEvents s x _ (by rfl)
    | _ => rfl
  | inWrite a v =>
    simp only [State.access, State.inbufWrite]
    exact ite_stateEvents (State.writeIdle_withEvents s x _ (by rfl)) rfl
  | csrRead w =>
    show State.answer _ _ = { s.answer _ with events := x }
    cases csrAt w <;> rfl
  | inRead a => rfl
  | outRead a => rfl
  | outWrite a v => rfl

/-- The engine's turn does not look at the events to come. -/
theorem State.engineTurn_withEvents (s : State) (x : List Event) :
    State.engineTurn { s with events := x } = Result.withEvents x s.engineTurn := by
  have turn : ∀ u : State, u.refused = none → u.engineTurn = exec (decodePhase u.phase) u := fun u h => by
    simp [State.engineTurn, State.engineInstr, h]
  by_cases hr : s.refused = none
  · exact (turn { s with events := x } hr).trans
      ((exec_withEvents _ s x).trans (congrArg (Result.withEvents x) (turn s hr).symm))
  · obtain ⟨r, hr⟩ := Option.ne_none_iff_exists'.1 hr
    have stop : ∀ u : State, u.refused = some r → u.engineTurn = .refused (.engineRefused r) := fun u h => by
      simp [State.engineTurn, State.engineInstr, h]
    exact (stop { s with events := x } hr).trans (congrArg (Result.withEvents x) (stop s hr).symm)

/-- A host access does not look at the events to come. -/
theorem State.hostTurn_withEvents (s : State) (x : List Event) (h : HostAccess) :
    State.hostTurn { s with events := x } h = Result.withEvents x (s.hostTurn h) := by
  unfold State.hostTurn
  cases commandWord h with
  | some v => exact exec_withEvents _ s x
  | none => exact congrArg Host.Outcome.next (State.access_withEvents s x h)

/-- A step takes the first event and leaves the rest as it was. -/
theorem step_withEvents (s t : State) (e : Event) (rest : List Event) (h : step { s with events := [e] } = .next t) :
    step { s with events := e :: rest } = .next { t with events := rest } := by
  have key : ∀ r : Result, r = .next t → Result.withEvents rest r = .next { t with events := rest } := by
    rintro _ rfl; rfl
  cases e with
  | engine => exact (State.engineTurn_withEvents { s with events := [] } rest).trans (key _ h)
  | reset => exact key _ h
  | host a => exact (State.hostTurn_withEvents { s with events := [] } rest a).trans (key _ h)

/-- n events of a run, from its k-th on, are n steps over the list of these events (rule R284). -/
theorem run_prefix (e : Nat → Event) (r : Nat → State) (h : IsRun e r) (n : Nat) : ∀ (k : Nat) (rest : List Event),
    runSteps n { r k with events := (List.range n).map (fun i => e (k + i)) ++ rest }
      = .next { r (k + n) with events := rest } := by
  induction n with
  | zero => intro k rest; rfl
  | succ n ih =>
    intro k rest
    rw [List.range_succ_eq_map]
    simp only [List.map_cons, List.map_map, List.cons_append, runSteps, Nat.add_zero]
    rw [step_withEvents (r k) _ (e k) _ (h k)]
    have next := ih (k + 1) rest
    simp only [Nat.add_assoc, Nat.add_comm 1] at next
    exact next

end Sys2Proof.Machine
end

