-- ==== Sys2Proof/Laws/Step.lean ====
section
/-! SUPPORT. What a step can do, once: it takes one event, and what it then answers is the engine's, the reset's or
the host access's. -/

namespace Sys2Proof.Machine

/-- Every step is one of four: a step of the engine, a stop of the engine's turn, a reset, or a host access. -/
theorem step_cases (s : State) :
    (∃ t, (s.nextEvent = (.engine, t)) ∧ t.refused = none ∧ step s = exec (decodePhase t.phase) t)
    ∨ (∃ t r, s.nextEvent = (.engine, t) ∧ t.refused = some r ∧ step s = .refused (.engineRefused r))
    ∨ (∃ t, s.nextEvent = (.reset, t) ∧ step s = .next t.resetEvent)
    ∨ (∃ t h v, s.nextEvent = (.host h, t) ∧ commandWord h = some v ∧ step s = exec (decodeCtrl v) t)
    ∨ (∃ t h, s.nextEvent = (.host h, t) ∧ commandWord h = none ∧ step s = .next (t.access h)) := by
  unfold step
  cases hs : s.nextEvent with | mk e t
  cases e with
  | engine =>
    cases hr : t.refused with
    | none => exact .inl ⟨t, rfl, hr, by simp [State.engineTurn, State.engineInstr, hr]⟩
    | some r => exact .inr (.inl ⟨t, r, rfl, hr, by simp [State.engineTurn, State.engineInstr, hr]⟩)
  | reset => exact .inr (.inr (.inl ⟨t, rfl, rfl⟩))
  | host h =>
    cases hc : commandWord h with
    | some v => exact .inr (.inr (.inr (.inl ⟨t, h, v, rfl, hc, by simp [State.hostTurn, hc]⟩)))
    | none => exact .inr (.inr (.inr (.inr ⟨t, h, rfl, hc, by simp [State.hostTurn, hc]⟩)))

/-- Taking the next event changes the event list only. -/
theorem State.nextEvent_state (s t : State) (e : Event) (h : s.nextEvent = (e, t)) :
    t = { s with events := t.events } := by
  unfold State.nextEvent at h
  split at h
  · obtain ⟨-, rfl⟩ := Prod.mk.inj h; rfl
  · obtain ⟨-, rfl⟩ := Prod.mk.inj h; rfl

/-- A host access that runs no command is the ports' alone (rules R70 to R73). -/
theorem step_access (s : State) (h : HostAccess) (rest : List Event) (he : s.events = .host h :: rest)
    (hc : commandWord h = none) : step s = .next (State.access { s with events := rest } h) := by
  unfold step State.nextEvent
  simp [he, State.hostTurn, hc]

end Sys2Proof.Machine
end

