-- ==== Sys2Proof/Tests/Slice0.lean ====
section
/-! SUPPORT. The model's own tests: ill-formed terms the checks refuse, words written out from the spec's encodings,
single steps with the end states of spec/95_test_vectors.md and of the rules' own examples, and a witness for every
statement that has hypotheses. Expected values come from the spec; each theorem names their source. -/

namespace Sys2Proof.Tests

open Sys2Proof.Machine

/-! ### WellFormed: the ill-formed terms are refused -/

theorem test_wf_refuses_marker_cont : Instr.wf (.reservedMarker 0x00#8) = false := by decide

theorem test_wf_refuses_marker_last : Instr.wf (.reservedMarker 0xFF#8) = false := by decide

theorem test_wf_refuses_length_zero : Instr.wf (.codeLength 0#8) = false := by decide

theorem test_wf_refuses_cmd_below : Instr.wf (.reservedCmd 3#4 true) = false := by decide

theorem test_wf_refuses_cmd_above : Instr.wf (.reservedCmd 15#4 false) = false := by decide

theorem test_wf_refuses_phase_held : Instr.wf (.reservedPhase 8#4) = false := by decide

/-! ### Decode: one word for every constructor, bit by bit from rules R105, R106, R110 and R21 -/

theorem test_decode_markers :
    decode (.marker 0b00000000#8) = .cont ∧ decode (.marker 0b11111111#8) = .last
    ∧ decode (.marker 0b00000001#8) = .reservedMarker 1#8
    ∧ decode (.marker 0b11111110#8) = .reservedMarker 254#8 := by decide

theorem test_decode_lengths :
    decode (.length 0b00000000#8) = .reservedLength ∧ decode (.length 0b00000001#8) = .codeLength 1#8
    ∧ decode (.length 0b11111111#8) = .codeLength 255#8 := by decide

theorem test_decode_commands :
    decode (.ctrl 0b00000000000000000000000100000000#32) = .nop true
    ∧ decode (.ctrl 0b00000000000000000000000000000001#32) = .decompress false
    ∧ decode (.ctrl 0b00000000000000000000000100000010#32) = .loadTable true
    ∧ decode (.ctrl 0b00000000000000000000000000000011#32) = .decode false
    ∧ decode (.ctrl 0b00000000000000000000000000000100#32) = .reservedCmd 4#4 false
    ∧ decode (.ctrl 0b00000000000000000000000100001110#32) = .reservedCmd 14#4 true
    ∧ decode (.ctrl 0b00000000000000000000000100001111#32) = .abort true := by decide

/-- Rule R111: bits [7:4] and [31:9] are ignored. -/
theorem test_decode_ignores_reserved_ctrl_bits :
    decode (.ctrl 0b11111111111111111111111011110001#32) = .decompress false := by decide

theorem test_decode_phases :
    decode (.phase 0b0000#4) = .idle ∧ decode (.phase 0b0001#4) = .hdr ∧ decode (.phase 0b0010#4) = .tSym
    ∧ decode (.phase 0b0011#4) = .tLen ∧ decode (.phase 0b0100#4) = .tCode ∧ decode (.phase 0b0101#4) = .tMark
    ∧ decode (.phase 0b0110#4) = .pCheck ∧ decode (.phase 0b0111#4) = .decodeStep
    ∧ decode (.phase 0b1000#4) = .finish ∧ decode (.phase 0b1001#4) = .reservedPhase 9#4
    ∧ decode (.phase 0b1111#4) = .reservedPhase 15#4 := by decide

theorem test_table_words :
    decodeTableWord 8 0x07 = some .decodeStep ∧ decodeTableWord 8 0x0F = some (.abort false)
    ∧ decodeTableWord 8 0xFF = some .last ∧ decodeTableWord 16 0x0105 = some (.reservedCmd 5#4 true)
    ∧ decodeTableWord 8 0x100 = none ∧ decodeTableWord 12 0 = none := by decide

/-! ### States of the ABAC container (spec/95_test_vectors.md), with IN_CAP = OUT_CAP = 64 -/

/-- Bytes as INBUF cells from address 0. -/
def cells (bytes : List Byte) : Memory Byte := bytes.zipIdx.map fun c => (c.2, c.1)

/-- `00 00 00 06 | 41 01 00 00 42 02 80 00 43 02 C0 FF | 4C`. -/
def abac : List Byte :=
  [0x00, 0x00, 0x00, 0x06, 0x41, 0x01, 0x00, 0x00, 0x42, 0x02, 0x80, 0x00, 0x43, 0x02, 0xC0, 0xFF, 0x4C]

/-- Table T1 in the store: 41 "0", 42 "10", 43 "11". -/
def t1 : Memory Entry := [(0, ⟨0x41, 1, 0b0⟩), (1, ⟨0x42, 2, 0b01⟩), (2, ⟨0x43, 2, 0b11⟩)]

/-- The bytes written and IN_LEN set, the block idle. -/
def loaded (bytes : List Byte) : State :=
  { State.resetOf 64 64 with inbuf := cells bytes, inLen := BitVec.ofNat 32 bytes.length }

/-- A phase of a DECOMPRESS over ABAC. -/
def atHdr : State := { loaded abac with phase := 0x1, op := 1 }
def atTSym : State := { atHdr with phase := 0x2, pos := 4, bitlen := 6 }
def atTLen : State := { atTSym with phase := 0x3, pos := 5, ent := [(0, ⟨0x41, 0, 0⟩)] }
def atTCode : State := { atTSym with phase := 0x4, pos := 6, ent := [(0, ⟨0x41, 1, 0⟩)] }
def atTMark : State := { atTSym with phase := 0x5, pos := 7, ent := [(0, ⟨0x41, 1, 0⟩)] }
def atLastMark : State := { atTSym with phase := 0x5, pos := 15, ent := t1, tblCount := 2 }
def atPCheck : State :=
  { atTSym with phase := 0x6, pos := 16, ent := t1, tblCount := 3, tblValid := true, tblPf := true }

/-- The DECODE phase with the cursor at c, the accumulator holding `acc`, and the bytes emitted so far. -/
def atDecode (c : Word) (acc : BitVec 255) (accLen : BitVec 8) (out : List Byte) : State :=
  { atPCheck with
    phase := 0x7, pos := 17, paybase := 16, cursor := c, acc := acc, accLen := accLen
    outbuf := cells out, outLen := BitVec.ofNat 32 out.length }

/-- FINISH after V1's six bits. -/
def atFinish : State := { atDecode 6 0 0 [0x41, 0x42, 0x41, 0x43] with phase := 0x8 }

/-- Does the outcome answer a next state with property p? -/
def nextHas (o : Result) (p : State → Bool) : Bool :=
  match o with
  | .next t => p t
  | .fault _ => false
  | .refused _ => false

/-! ### Single steps -/

/-- R160's example. -/
theorem test_hdr : nextHas (exec .hdr atHdr) (fun t => t.bitlen == 6 && t.pos == 4 && t.phase == 0x2) = true := by
  decide

/-- V21: IN_LEN 3. -/
theorem test_hdr_truncated : nextHas (exec .hdr { atHdr with inLen := 3 })
    (fun t => t.statusWord == 0x2004 && t.errcode == 0x01 && t.pos == 0 && t.bitlen == 0) = true := by decide

/-- R136's example. -/
theorem test_tSym : nextHas (exec .tSym atTSym)
    (fun t => (t.entry 0).sym == 0x41 && t.pos == 5 && t.phase == 0x3) = true := by decide

/-- V31: IN_LEN 4. -/
theorem test_tSym_truncated : nextHas (exec .tSym { atTSym with inLen := 4 })
    (fun t => t.errcode == 0x02 && t.pos == 4 && t.err) = true := by decide

/-- R137's example: length byte 01 here. -/
theorem test_tLen : nextHas (exec .tLen atTLen)
    (fun t => (t.entry 0).len == 1 && (t.entry 0).sym == 0x41 && t.pos == 6 && t.phase == 0x4) = true := by decide

/-- V36: `00 00 00 00 41 00 00 FF`. -/
theorem test_tLen_zero :
    nextHas (exec .tLen { loaded [0, 0, 0, 0, 0x41, 0, 0, 0xFF] with phase := 0x3, op := 1, pos := 5 })
      (fun t => t.statusWord == 0x2004 && t.errcode == 0x06 && t.pos == 5) = true := by decide

/-- R138's example: L = 9, bytes `AA 80` at 6, code "101010101". -/
theorem test_tCode :
    nextHas (exec .tCode { loaded [0, 0, 0, 0, 0x41, 0x09, 0xAA, 0x80] with
        phase := 0x4, pos := 6, ent := [(0, ⟨0x41, 9, 0⟩)] })
      (fun t => (t.entry 0).code == 0b101010101 && t.pos == 8 && t.phase == 0x5) = true := by decide

/-- V7: code byte FF at L = 1 gives "1". -/
theorem test_tCode_padding :
    nextHas (exec .tCode { loaded [0xFF] with phase := 0x4, ent := [(0, ⟨0x41, 1, 0⟩)] })
      (fun t => (t.entry 0).code == 1 && t.pos == 1) = true := by decide

/-- R139: marker 00 commits and goes on. -/
theorem test_tMark_cont : nextHas (exec .tMark atTMark)
    (fun t => t.tblCount == 1 && t.pos == 8 && t.phase == 0x2 && !t.tblValid) = true := by decide

/-- V34: marker 01. -/
theorem test_tMark_reserved :
    nextHas (exec .tMark { loaded [0, 0, 0, 0, 0x41, 1, 0, 1] with phase := 0x5, op := 1, pos := 7 })
      (fun t => t.statusWord == 0x2004 && t.errcode == 0x05 && t.pos == 7 && t.tblCount == 0) = true := by decide

/-- V38's last step: a 00 marker after the 256th entry. -/
theorem test_cont_overflow :
    nextHas (exec .cont { atTMark with tblCount := 255, pos := 1027 })
      (fun t => t.errcode == 0x07 && t.pos == 1028 && t.tblCount == 256 && !t.tblValid) = true := by decide

/-- R139's example: the count goes from 2 to 3 and P_CHECK follows. -/
theorem test_last_decompress : nextHas (exec .last atLastMark)
    (fun t => t.tblCount == 3 && t.tblValid && t.tblPf && t.phase == 0x6 && t.pos == 16) = true := by decide

/-- V40's last step: LOAD_TABLE completes. -/
theorem test_last_loadTable : nextHas (exec .last { atLastMark with op := 2, pos := 11 })
    (fun t => t.statusWord == 0x5002 && t.pos == 12) = true := by decide

/-- V53: codes "1" and "10" are not prefix-free. -/
theorem test_last_not_prefix_free :
    nextHas (exec .last { atTMark with ent := [(0, ⟨0x41, 1, 0b1⟩), (1, ⟨0x42, 2, 0b01⟩)], tblCount := 1 })
      (fun t => t.tblValid && !t.tblPf) = true := by decide

/-- R105. -/
theorem test_reservedMarker : nextHas (exec (.reservedMarker 0x7F) atTMark)
    (fun t => t.errcode == 0x05 && t.pos == 7 && t.tblCount == 0) = true := by decide

/-- R137, the largest length. -/
theorem test_codeLength : nextHas (exec (.codeLength 255) atTLen)
    (fun t => (t.entry 0).len == 255 && t.pos == 6 && t.phase == 0x4) = true := by decide

/-- R106. -/
theorem test_reservedLength : nextHas (exec .reservedLength atTLen)
    (fun t => t.errcode == 0x06 && t.pos == 5 && t.err) = true := by decide

/-- R162's example. -/
theorem test_pCheck : nextHas (exec .pCheck atPCheck)
    (fun t => t.paybase == 16 && t.pos == 17 && t.phase == 0x7) = true := by decide

/-- V20: IN_LEN 16. -/
theorem test_pCheck_truncated : nextHas (exec .pCheck { atPCheck with inLen := 16 })
    (fun t => t.statusWord == 0x3004 && t.errcode == 0x03 && t.pos == 16 && t.paybase == 0) = true := by decide

/-- V1a, cursor 2: bit 0 completes "10" and 42 is emitted. -/
theorem test_decodeStep_emits : nextHas (exec .decodeStep (atDecode 2 0b1 1 [0x41]))
    (fun t => t.outbuf == cells [0x41, 0x42] && t.outLen == 2 && t.accLen == 0 && t.cursor == 3
      && t.phase == 0x7) = true := by decide

/-- V1a, cursor 1: bit 1 gives "1" and no match. -/
theorem test_decodeStep_accumulates : nextHas (exec .decodeStep (atDecode 1 0 0 [0x41]))
    (fun t => t.accLen == 1 && t.acc == 0b1 && t.cursor == 2 && t.outLen == 1) = true := by decide

/-- V50: a left-over bit. -/
theorem test_finish_leftover : nextHas (exec .finish { atFinish with accLen := 1 })
    (fun t => t.statusWord == 0x3004 && t.errcode == 0x04 && t.outLen == 4) = true := by decide

/-- V1's last step. -/
theorem test_finish : nextHas (exec .finish atFinish)
    (fun t => t.statusWord == 0x3002 && t.errcode == 0 && t.pos == 17 && t.cursor == 6) = true := by decide

/-- R211's example. -/
theorem test_nop_busy : nextHas (exec (.nop true) (atDecode 1 0 0 []))
    (fun t => t.ie && t.phase == 0x7 && !t.cmdOvr) = true := by decide

/-- R212, a second container at offset 5 (V6). -/
theorem test_decompress : nextHas (exec (.decompress true) { loaded abac with inStart := 5, done := true })
    (fun t => t.pos == 5 && t.phase == 0x1 && t.op == 1 && t.ie && !t.done) = true := by decide

/-- P4(a): a command while busy, in phase T_LEN. -/
theorem test_loadTable_busy : nextHas (exec (.loadTable false) atTLen)
    (fun t => t.cmdOvr && t.op == 1 && t.phase == 0x3) = true := by decide

/-- R213. -/
theorem test_loadTable : nextHas (exec (.loadTable false) { loaded abac with outLen := 4, tblValid := true })
    (fun t => t.phase == 0x2 && t.op == 2 && t.outLen == 4 && !t.tblValid) = true := by decide

/-- V48: DECODE without a table. -/
theorem test_decode_noTable : nextHas (exec (.decode false) (State.resetOf 64 64))
    (fun t => t.statusWord == 0x6004 && t.errcode == 0x09 && t.pos == 0) = true := by decide

/-- V44's start: a table loaded, the payload at 12. -/
theorem test_decode_starts :
    nextHas (exec (.decode false) { loaded abac with inStart := 12, tblValid := true, tblCount := 3, bitlen := 6 })
      (fun t => t.phase == 0x6 && t.pos == 12 && t.bitlen == 6 && t.op == 3) = true := by decide

/-- V60 and V61. -/
theorem test_reservedCmd : nextHas (exec (.reservedCmd 5 true) (State.resetOf 64 64))
    (fun t => t.statusWord == 0x0004 && t.errcode == 0x0A && t.irq) = true := by decide

/-- V70. -/
theorem test_abort_busy : nextHas (exec (.abort true) (atDecode 3 0 0 [0x41, 0x42]))
    (fun t => t.statusWord == 0x3004 && t.errcode == 0x0B && t.outLen == 2 && t.tblValid && t.irq) = true := by
  decide

/-- V63: ABORT while idle. -/
theorem test_abort_idle : nextHas (exec (.abort false) { State.resetOf 64 64 with errcode := 0x0A })
    (fun t => t.statusWord == 0x0000 && t.errcode == 0x0A) = true := by decide

/-- V53's refusing step leaves the state frozen. -/
theorem test_decodeStep_refuses : nextHas (exec .decodeStep { atDecode 0 0 0 [] with tblPf := false })
    (fun t => t.refused == some .nonPrefixFreeTable && t.cursor == 0 && t.statusWord == 0x3701) = true := by decide

/-- R21: IDLE has no step. -/
theorem test_idle : nextHas (exec .idle (loaded abac)) (fun t => t == loaded abac) = true := by decide

/-- V64: IN_CAP 32, `W IN_LEN 1000`. -/
theorem test_inLen_clamps :
    nextHas (step { State.resetOf 32 64 with events := [.host (.csrWrite 4 1000)] }) (fun t => t.inLen == 32) = true := by
  decide

/-- V40's read-back of entry 1. -/
theorem test_readback :
    State.csrValue { atPCheck with tblIndex := 1 } .tblEntry = 0x0242
    ∧ State.csrValue { atPCheck with tblIndex := 1 } (.tblCode 0) = 0x80000000
    ∧ State.csrValue { atPCheck with tblIndex := 3 } .tblEntry = 0 := by decide

/-- A host read of ID, and V1's STATUS, on the port. -/
theorem test_csr_reads :
    nextHas (step { atFinish with events := [.host (.csrRead 0)] }) (fun t => t.rdata == 0x454C5031) = true
    ∧ nextHas (step { atFinish with done := true, phase := 0, events := [.host (.csrRead 2)] })
      (fun t => t.rdata == 0x3002) = true := by decide

/-- V65: a read of reserved offset 0x100 (word address 0x40), and ID. -/
theorem test_reserved_offset :
    State.csrValue (loaded abac) (csrAt 0x40) = 0 ∧ State.csrValue (loaded abac) (csrAt 0) = 0x454C5031 := by decide

/-- V73: after a reset every INBUF byte counts as unwritten. -/
theorem test_reset_unwrites :
    nextHas (exec .hdr { State.resetEvent atFinish with phase := 0x1, op := 1, inLen := 17 })
      (fun t => t.refused == some .uninitInbuf && t.statusWord == 0x2101 && t.pos == 0) = true := by decide

/-- V72: after a reset OUTBUF lists no byte, so that a read of it is a free value, and OUT_LEN is 0. -/
theorem test_reset_unlists_outbuf :
    nextHas (step { atFinish with events := [.reset] })
      (fun t => t.outbuf == [] && t.outLen == 0 && t.resets == 1 && t.statusWord == 0) = true := by decide

/-! ### Witnesses: for every statement that has hypotheses, states and operands that meet them, clause by clause -/

theorem witness_DecodingAnEncodedInstructionGivesItBack :
    Instr.wf (.reservedMarker 0x01#8) = true ∧ Instr.wf (.reservedMarker 0xFE#8) = true
    ∧ Instr.wf (.codeLength 1#8) = true ∧ Instr.wf (.codeLength 255#8) = true
    ∧ Instr.wf (.reservedCmd 4#4 true) = true ∧ Instr.wf (.reservedCmd 14#4 false) = true
    ∧ Instr.wf (.reservedPhase 9#4) = true ∧ Instr.wf (.reservedPhase 15#4) = true := by decide

theorem witness_StepRunsTheDecodedInstruction :
    (atHdr.refused = none ∧ atHdr.events = [])
    ∧ (atHdr.refused = none ∧ State.events { atHdr with events := [.engine, .reset] } = .engine :: [.reset])
    ∧ State.events { atHdr with events := [.host (.csrWrite 1#10 0x10F#32)] } = .host (.csrWrite 1#10 0x10F#32) :: []
    ∧ (atLastMark.pos.toNat + 1 ≤ atLastMark.inLen.toNat ∧ atLastMark.inbuf.read atLastMark.pos.toNat = some 0xFF)
    ∧ (atTLen.pos.toNat + 1 ≤ atTLen.inLen.toNat ∧ atTLen.inbuf.read atTLen.pos.toNat = some 1) := by decide

theorem witness_PlacedTableWordRunsNext :
    (State.resetOf 64 64).refused = none ∧ decodeTableWord 4 8 = some .finish
    ∧ decodeTableWord 8 255 = some .last ∧ decodeTableWord 8 254 = some (.codeLength 254)
    ∧ decodeTableWord 32 0x101 = some (.decompress true) := by decide

theorem witness_HdrLoadsTheBigEndianHeader :
    (State.pos { atHdr with inLen := 4 }).toNat + 4 ≤ (State.inLen { atHdr with inLen := 4 }).toNat
    ∧ atHdr.inbuf.read 0 = some 0 ∧ atHdr.inbuf.read 1 = some 0 ∧ atHdr.inbuf.read 2 = some 0
    ∧ atHdr.inbuf.read 3 = some 6
    ∧ (State.inLen { atHdr with inLen := 3 }).toNat < atHdr.pos.toNat + 4 := by decide

theorem witness_PCheckPlacesThePayload :
    atPCheck.pos.toNat + (atPCheck.bitlen.toNat + 7) / 8 ≤ atPCheck.inLen.toNat
    ∧ atPCheck.bitlen ≠ 0#32 ∧ State.bitlen { atPCheck with bitlen := 0 } = 0#32
    ∧ (State.inLen { atPCheck with inLen := 16 }).toNat < atPCheck.pos.toNat + (atPCheck.bitlen.toNat + 7) / 8 := by
  decide

theorem witness_TSymStoresTheSymbol :
    atTSym.tblCount.toNat < 256 ∧ (State.tblCount { atTSym with tblCount := 255 }).toNat < 256
    ∧ (State.inLen { atTSym with inLen := 5 }).toNat = atTSym.pos.toNat + 1
    ∧ atTSym.inbuf.read atTSym.pos.toNat = some 0x41
    ∧ (State.inLen { atTSym with inLen := 4 }).toNat < atTSym.pos.toNat + 1 := by decide

theorem witness_TLenChecksAndStoresTheLength :
    (atTLen.tblCount.toNat < 256 ∧ atTLen.pos.toNat + 1 ≤ atTLen.inLen.toNat
      ∧ atTLen.inbuf.read atTLen.pos.toNat = some 1 ∧ (1 : Byte).toNat ≠ 0)
    ∧ (State.pos { loaded [0x41, 0] with pos := 1 }).toNat + 1 ≤ (loaded [0x41, 0]).inLen.toNat
    ∧ (loaded [0x41, 0]).inbuf.read 1 = some 0#8
    ∧ (State.inLen { atTLen with inLen := 5 }).toNat < atTLen.pos.toNat + 1 := by decide

theorem witness_CodeLengthByteActs :
    (1 : Byte).toNat ≠ 0 ∧ (255 : Byte).toNat ≠ 0
    ∧ atTLen.tblCount.toNat < 256 ∧ (State.tblCount { atTLen with tblCount := 255 }).toNat < 256 := by decide

theorem witness_TCodeUnpacksTheCodeBits :
    (atTCode.tblCount.toNat < 256 ∧ (atTCode.entry atTCode.tblCount.toNat).len.toNat = 1
      ∧ atTCode.pos.toNat + (1 + 7) / 8 ≤ atTCode.inLen.toNat
      ∧ ∀ k, k < (1 + 7) / 8 → atTCode.inbuf.read (atTCode.pos.toNat + k) = some 0)
    ∧ (State.inLen { atTCode with inLen := 6 }).toNat
        < atTCode.pos.toNat + ((atTCode.entry atTCode.tblCount.toNat).len.toNat + 7) / 8 := by decide

theorem witness_TMarkReadsTheMarker :
    (State.inLen { atTMark with inLen := 7 }).toNat < atTMark.pos.toNat + 1
    ∧ ((loaded [0x01]).pos.toNat + 1 ≤ (loaded [0x01]).inLen.toNat ∧ (loaded [0x01]).inbuf.read 0 = some 1
      ∧ 1 ≤ (1 : Byte).toNat ∧ (1 : Byte).toNat ≤ 254)
    ∧ ((loaded [0xFE]).inbuf.read 0 = some 0xFE ∧ (0xFE : Byte).toNat ≤ 254)
    ∧ (atTMark.tblCount.toNat < 256 ∧ atTMark.pos.toNat + 1 ≤ atTMark.inLen.toNat
      ∧ atTMark.inbuf.read atTMark.pos.toNat = some 0 ∧ (0 : Byte).toNat = 0)
    ∧ (atLastMark.tblCount.toNat < 256 ∧ atLastMark.inbuf.read atLastMark.pos.toNat = some 0xFF
      ∧ (0xFF : Byte).toNat = 255) := by decide

theorem witness_ContCommitsAndContinues :
    (State.tblCount { atTMark with tblCount := 255 }).toNat = 255
    ∧ (State.tblCount { atTMark with tblCount := 254 }).toNat < 255 ∧ atTMark.tblCount.toNat < 256 := by decide

theorem witness_LastEndsTheTable :
    (atLastMark.tblCount.toNat < 256 ∧ atLastMark.op = 1#2)
    ∧ ((State.tblCount { atLastMark with tblCount := 255 }).toNat < 256
      ∧ State.op { atLastMark with op := 2 } = 2#2) := by decide

theorem witness_ReservedMarkerRaisesBadMarker :
    1 ≤ (0x01 : Byte).toNat ∧ (0x01 : Byte).toNat ≤ 254 ∧ 1 ≤ (0xFE : Byte).toNat ∧ (0xFE : Byte).toNat ≤ 254 := by
  decide

/-- V1a, cursor 1, and the longest accumulator. -/
theorem witness_DecodeStepAccumulates :
    let s := atDecode 1 0 0 [0x41]
    s.tblPf = true ∧ s.cursor.toNat < s.bitlen.toNat
    ∧ s.inbuf.read (s.paybase.toNat + s.cursor.toNat / 8) = some 0x4C
    ∧ s.accOvf = false ∧ s.accLen.toNat < 255 ∧ (atDecode 1 0 254 []).accLen.toNat < 255
    ∧ ∀ k, k < s.tblCount.toNat →
      ¬((s.entry k).len.toNat = s.accLen.toNat + 1
        ∧ (∀ j, j < s.accLen.toNat → (s.entry k).code.getLsbD j = s.acc.getLsbD j)
        ∧ (s.entry k).code.getLsbD s.accLen.toNat = (0x4C : Byte).getLsbD (7 - s.cursor.toNat % 8)) := by decide

/-- V1a, cursor 5: the last bit completes "11", entry 2. -/
theorem witness_DecodeStepEmitsTheMatchedSymbol :
    let s := atDecode 5 0b1 1 [0x41, 0x42, 0x41]
    s.tblPf = true ∧ s.prefixFree s.tblCount.toNat = true ∧ s.cursor.toNat + 1 = s.bitlen.toNat
    ∧ s.inbuf.read (s.paybase.toNat + s.cursor.toNat / 8) = some 0x4C
    ∧ s.accOvf = false ∧ s.accLen.toNat < 255 ∧ 2 < s.tblCount.toNat
    ∧ (s.entry 2).len.toNat = s.accLen.toNat + 1
    ∧ (∀ j, j < s.accLen.toNat → (s.entry 2).code.getLsbD j = s.acc.getLsbD j)
    ∧ (s.entry 2).code.getLsbD s.accLen.toNat = (0x4C : Byte).getLsbD (7 - s.cursor.toNat % 8)
    ∧ s.outLen.toNat < s.outCap.toNat := by decide

/-- V51: OUT_CAP 2, the third match at cursor 3. -/
theorem witness_DecodeStepOverflowsAFullOutput :
    let s : State := { atDecode 3 0 0 [0x41, 0x42] with outCap := 2 }
    s.tblPf = true ∧ s.cursor.toNat < s.bitlen.toNat
    ∧ s.inbuf.read (s.paybase.toNat + s.cursor.toNat / 8) = some 0x4C
    ∧ s.accOvf = false ∧ s.accLen.toNat < 255 ∧ 0 < s.tblCount.toNat
    ∧ (s.entry 0).len.toNat = s.accLen.toNat + 1
    ∧ (∀ j, j < s.accLen.toNat → (s.entry 0).code.getLsbD j = s.acc.getLsbD j)
    ∧ (s.entry 0).code.getLsbD s.accLen.toNat = (0x4C : Byte).getLsbD (7 - s.cursor.toNat % 8)
    ∧ s.outLen = s.outCap := by decide

theorem witness_DecodeStepPastTheLongestCode :
    let s := atDecode 1 0 255 []
    s.tblPf = true ∧ s.cursor.toNat < s.bitlen.toNat
    ∧ s.inbuf.read (s.paybase.toNat + s.cursor.toNat / 8) = some 0x4C
    ∧ s.accLen.toNat = 255 ∧ State.accOvf { s with accOvf := true } = true := by decide

theorem witness_FinishAcceptsOnlyAnEmptyAccumulator :
    (atFinish.accLen.toNat = 0 ∧ atFinish.accOvf = false)
    ∧ (State.accLen { atFinish with accLen := 1 }).toNat ≠ 0
    ∧ State.accOvf { atFinish with accOvf := true } = true := by decide

theorem witness_GreedyMatchIsUnique : atPCheck.prefixFree atPCheck.tblCount.toNat = true := by decide

theorem witness_IdleTurnChangesNothing :
    (loaded abac).phase = 0x0#4 ∧ (loaded abac).refused = none
    ∧ State.events { loaded abac with events := [.engine] } = .engine :: [] := by decide

theorem witness_ReservedPhaseStops : 9 ≤ (9#4).toNat ∧ 9 ≤ (15#4).toNat := by decide

theorem witness_NopWritesOnlyIe : (0x100#32).toNat % 16 = 0 ∧ (0xFFFFFFF0#32).toNat % 16 = 0 := by decide

/-- For DecompressStarts, LoadTableStarts, ReservedCommandRaisesBadCommand and AbortStopsTheOperation's second
clause. -/
theorem witness_idle : (loaded abac).phase = 0x0#4 := by decide

theorem witness_DecodeCommandNeedsATable :
    (State.phase { loaded abac with tblValid := true } = 0x0#4 ∧ State.tblValid { loaded abac with tblValid := true } = true)
    ∧ ((loaded abac).phase = 0x0#4 ∧ (loaded abac).tblValid = false) := by decide

theorem witness_ReservedCommandRaisesBadCommand :
    (loaded abac).phase = 0x0#4 ∧ 4 ≤ (0x104#32).toNat % 16 ∧ (0x104#32).toNat % 16 ≤ 14
    ∧ 4 ≤ (0xE#32).toNat % 16 ∧ (0xE#32).toNat % 16 ≤ 14 := by decide

theorem witness_AbortStopsTheOperation : atHdr.phase ≠ 0x0#4 ∧ (loaded abac).phase = 0x0#4 := by decide

theorem witness_BusyCommandIsDropped :
    atHdr.phase ≠ 0x0#4 ∧ 1 ≤ (1#32).toNat % 16 ∧ (1#32).toNat % 16 ≤ 14
    ∧ 1 ≤ (0x10E#32).toNat % 16 ∧ (0x10E#32).toNat % 16 ≤ 14 := by decide

/-- V21, V38's last step and V51's. -/
theorem witness_EngineErrorsArePrecise :
    (∃ t, exec .hdr { atHdr with inLen := 3 } = .next t ∧ atHdr.err = false ∧ t.err = true
      ∧ t.errcode ≠ 0x07#8 ∧ t.errcode ≠ 0x08#8)
    ∧ (∃ t, exec .tMark { atTMark with tblCount := 255 } = .next t ∧ t.err = true ∧ t.errcode = 0x07#8)
    ∧ (∃ t, exec .decodeStep { atDecode 3 0 0 [0x41, 0x42] with outCap := 2 } = .next t
      ∧ t.err = true ∧ t.errcode = 0x08#8) :=
  ⟨⟨_, rfl, by decide⟩, ⟨_, rfl, by decide⟩, ⟨_, rfl, by decide⟩⟩

theorem witness_UnwrittenByteRefuses :
    (3 < 4 ∧ State.pos { loaded [0, 0, 0] with inLen := 4 } = 0 ∧ (loaded [0, 0, 0]).inbuf.read 3 = none)
    ∧ ((Instr.tMark ∈ [Instr.tSym, .tLen, .tMark]) ∧ (State.inLen { loaded [] with inLen := 1 }).toNat = 0 + 1
      ∧ (loaded []).inbuf.read 0 = none)
    ∧ (0 < ((atTCode.entry atTCode.tblCount.toNat).len.toNat + 7) / 8
      ∧ atTCode.pos.toNat + ((atTCode.entry atTCode.tblCount.toNat).len.toNat + 7) / 8 ≤ atTCode.inLen.toNat
      ∧ (State.inbuf { atTCode with inbuf := cells [0, 0, 0, 6] }).read (atTCode.pos.toNat + 0) = none)
    ∧ (atPCheck.tblPf = true
      ∧ (State.inbuf { atDecode 0 0 0 [] with inbuf := [] }).read (16 + (0 : Word).toNat / 8) = none) := by decide

theorem witness_NonPrefixFreeTableRefuses : State.tblPf { atDecode 0 0 0 [] with tblPf := false } = false := by decide

theorem witness_RefusalMarkIsSticky :
    (State.refused { atHdr with refused := some .uninitInbuf } = some .uninitInbuf ∧ atHdr.events = [])
    ∧ (∃ t, step { atHdr with refused := some .uninitInbuf, events := [.host (.csrWrite 1#10 0xF#32)] } = .next t)
    ∧ State.events { atHdr with refused := some .uninitInbuf, events := [.reset] } = .reset :: [] :=
  ⟨by decide, ⟨_, rfl⟩, rfl⟩

/-- V1's last step with IE set, and V74's IE write after DONE. -/
theorem witness_IrqFollowsDoneAndErr :
    (∃ t, step { atFinish with ie := true } = .next t ∧ State.irq { atFinish with ie := true } = false ∧ t.irq = true)
    ∧ (∃ t, step { loaded abac with done := true, events := [.host (.csrWrite 1#10 0x100#32)] } = .next t
      ∧ State.irq { loaded abac with done := true } = false ∧ t.irq = true) :=
  ⟨⟨_, rfl, by decide⟩, ⟨_, rfl, by decide⟩⟩

theorem witness_TableReadoutShowsCommittedEntries :
    (State.tblIndex { atPCheck with tblIndex := 2 }).toNat < atPCheck.tblCount.toNat
    ∧ atPCheck.tblCount.toNat ≤ (State.tblIndex { atPCheck with tblIndex := 3 }).toNat
    ∧ (7 < 8 ∧ 31 < 32) := by decide

theorem witness_HostReadsHaveNoSideEffects :
    (∃ w, HostAccess.outRead 63 = .csrRead w) ∨ (∃ a, HostAccess.outRead 63 = .inRead a)
      ∨ (∃ a, HostAccess.outRead 63 = .outRead a) := .inr (.inr ⟨63, rfl⟩)

theorem witness_ReservedAndReadOnlyRegistersIgnoreWrites :
    25 ≤ (25#10).toNat ∧ 25 ≤ (1023#10).toNat
    ∧ ((15#10).toNat ∈ [0, 3, 6, 8, 9, 10, 11, 12, 14, 15] ∨ 16 ≤ (15#10).toNat)
    ∧ ((16#10).toNat ∈ [0, 3, 6, 8, 9, 10, 11, 12, 14, 15] ∨ 16 ≤ (16#10).toNat)
    ∧ State.events { atHdr with events := [.host (.csrWrite 16#10 1)] } = .host (.csrWrite 16#10 1) :: [] := by decide

theorem witness_StatusWritesClearFlags :
    State.events { atHdr with events := [.host (.csrWrite 2#10 0x18)] } = .host (.csrWrite 2#10 0x18) :: []
    ∧ State.events { atHdr with events := [.host (.csrWrite 13#10 0x1FF)] } = .host (.csrWrite 13#10 0x1FF) :: [] := by
  decide

theorem witness_IdleHostWritesTakeEffect :
    (loaded abac).phase = 0x0#4
    ∧ State.events { loaded abac with events := [.host (.csrWrite 4#10 65)] } = .host (.csrWrite 4#10 65) :: []
    ∧ State.events { loaded abac with events := [.host (.csrWrite 5#10 65)] } = .host (.csrWrite 5#10 65) :: []
    ∧ State.events { loaded abac with events := [.host (.csrWrite 7#10 65)] } = .host (.csrWrite 7#10 65) :: []
    ∧ State.events { loaded abac with events := [.host (.inWrite 63 9)] } = .host (.inWrite 63 9) :: []
    ∧ (63 : Word).toNat < (loaded abac).inCap.toNat ∧ (loaded abac).inCap.toNat ≤ (64 : Word).toNat := by decide

theorem witness_BusyHostWritesAreDropped :
    atHdr.phase ≠ 0x0#4
    ∧ State.events { atHdr with events := [.host (.csrWrite 7#10 1)] } = .host (.csrWrite 7#10 1) :: []
    ∧ State.events { atHdr with events := [.host (.inWrite 63 9)] } = .host (.inWrite 63 9) :: []
    ∧ (63 : Word).toNat < atHdr.inCap.toNat ∧ atHdr.inCap.toNat ≤ (64 : Word).toNat := by decide

theorem witness_HostReadsReturnTheirData :
    State.events { atFinish with events := [.host (.csrRead 1023)] } = .host (.csrRead 1023) :: []
    ∧ (State.events { atFinish with events := [.host (.inRead 16)] } = .host (.inRead 16) :: []
      ∧ (16 : Word).toNat < atFinish.inCap.toNat ∧ atFinish.inbuf.read 16 = some 0x4C
      ∧ atFinish.inCap.toNat ≤ (64 : Word).toNat)
    ∧ (State.events { atFinish with events := [.host (.outRead 3)] } = .host (.outRead 3) :: []
      ∧ (3 : Word).toNat < atFinish.outCap.toNat ∧ (3 : Word).toNat < atFinish.outLen.toNat
      ∧ atFinish.outbuf.read 3 = some 0x43 ∧ atFinish.outCap.toNat ≤ (64 : Word).toNat)
    ∧ State.events { atFinish with events := [.host (.outWrite 3 9)] } = .host (.outWrite 3 9) :: [] := by decide

theorem witness_ResetEventClearsTheBlock :
    State.events { atFinish with events := [.reset] } = .reset :: [] := by decide

/-- V1's FINISH step, from a state that meets the invariant. -/
theorem witness_EveryStepKeepsTheInvariant :
    (atFinish.Inv ∧ ∃ t, step atFinish = .next t)
    ∧ (State.Inv { atFinish with refused := some .uninitInbuf }
      ∧ ∃ r, step { atFinish with refused := some .uninitInbuf } = .refused (.engineRefused r)) :=
  ⟨⟨⟨by decide, by decide +kernel, by decide, by decide, by decide⟩, _, rfl⟩,
    ⟨⟨by decide, by decide +kernel, by decide, by decide, by decide⟩, _, rfl⟩⟩

theorem witness_ResetMeetsTheInvariant : 8 ≤ (8 : Word).toNat := by decide

/-- Two host writes from reset reach a state with IN_LEN set. -/
theorem witness_EveryReachableStateMeetsR58 :
    State.Reachable { State.resetOf 64 64 with inLen := 17, inStart := 5 } :=
  ⟨64, 64, [.host (.csrWrite 4#10 17), .host (.csrWrite 5#10 5)], 2, by decide, rfl⟩

theorem witness_TableStoreIsWrittenOnlyWhileLoading :
    (∀ rest, atTLen.events ≠ .reset :: rest) ∧ ∃ t, step atTLen = .next t ∧ t.entry 0 ≠ atTLen.entry 0 :=
  ⟨nofun, _, rfl, by decide⟩

theorem witness_PaybaseIsWrittenOnlyByPCheck :
    (∃ t, step atPCheck = .next t ∧ t.paybase ≠ atPCheck.paybase)
    ∧ (∃ t, step { atFinish with events := [.reset] } = .next t ∧ t.paybase ≠ atFinish.paybase) :=
  ⟨⟨_, rfl, by decide⟩, ⟨_, rfl, by decide⟩⟩

theorem witness_ValidTableLastsUntilTheNextLoad :
    ∃ t, step { loaded abac with tblValid := true, events := [.host (.csrWrite 1#10 2)] } = .next t
      ∧ State.tblValid { loaded abac with tblValid := true } = true ∧ t.tblValid = false := ⟨_, rfl, by decide⟩

theorem witness_OperationInputIsFrozen :
    atHdr.phase ≠ 0x0#4 ∧ (∃ t, step { atHdr with events := [.host (.inWrite 0 9)] } = .next t)
    ∧ ∀ rest, State.events { atHdr with events := [.host (.inWrite 0 9)] } ≠ .reset :: rest :=
  ⟨by decide, ⟨_, rfl⟩, by simp⟩

theorem witness_EmittedBytesAreFinal :
    (∃ t, step (atDecode 2 0b1 1 [0x41]) = .next t) ∧ 0 < (atDecode 2 0b1 1 [0x41]).outLen.toNat
    ∧ ∀ rest, (atDecode 2 0b1 1 [0x41]).events ≠ .reset :: rest := ⟨⟨_, rfl⟩, by decide, nofun⟩

theorem witness_EveryOperationEnds :
    (atHdr.Inv ∧ atHdr.events = [] ∧ atHdr.refused = none ∧ atHdr.phase = 0x1#4)
    ∧ (State.Inv { atTSym with op := 2 } ∧ State.phase { atTSym with op := 2 } = 0x2#4
      ∧ State.op { atTSym with op := 2 } = 2#2)
    ∧ (atPCheck.Inv ∧ atPCheck.events = [] ∧ atPCheck.refused = none ∧ atPCheck.phase = 0x6#4) :=
  ⟨⟨⟨by decide, by decide +kernel, by decide, by decide, by decide⟩, by decide⟩,
    ⟨⟨by decide, by decide +kernel, by decide, by decide, by decide⟩, by decide⟩,
    ⟨⟨by decide, by decide +kernel, by decide, by decide, by decide⟩, by decide⟩⟩

/-- V1's end, and then the engine's turns in IDLE. -/
def runFromFinish (n : Nat) : State :=
  if n = 0 then atFinish else { atFinish with done := true, phase := 0x0 }

theorem witness_EveryFairRunEndsItsOperation :
    IsRun (fun _ => .engine) runFromFinish ∧ IsFair (fun _ => .engine) runFromFinish
    ∧ (runFromFinish 0).Inv ∧ (runFromFinish 0).phase ≠ 0x0#4 ∧ (runFromFinish 0).refused = none :=
  ⟨fun n => by cases n <;> rfl, fun n _ => ⟨n, Nat.le_refl n, rfl⟩,
    ⟨by decide, by decide +kernel, by decide, by decide, by decide⟩, by decide, by decide⟩

/-- V1's last step gives a result, and an ID read keeps it. -/
theorem witness_ResultsComeOnlyFromFinish :
    (atFinish.Inv ∧ ∃ t, step atFinish = .next t ∧ t.HasResult ∧ ¬atFinish.HasResult)
    ∧ (State.Inv { runFromFinish 1 with events := [.host (.csrRead 0)] }
      ∧ ∃ t, step { runFromFinish 1 with events := [.host (.csrRead 0)] } = .next t ∧ t.HasResult) :=
  ⟨⟨⟨by decide, by decide +kernel, by decide, by decide, by decide⟩, _, rfl, by decide, by decide⟩,
    ⟨⟨by decide, by decide +kernel, by decide, by decide, by decide⟩, _, rfl, by decide⟩⟩

/-- R245: V50's error, and a LOAD_TABLE that completes after it, show no result. -/
theorem test_failed_run_has_no_result :
    nextHas (exec .finish { atFinish with accLen := 1 }) (fun t => decide t.HasResult || (t.resultByte 0).isSome) = false
    ∧ nextHas (exec .last { atLastMark with op := 2, outLen := 4, outbuf := cells [0x41, 0x42, 0x41, 0x43] })
      (fun t => t.done && !decide t.HasResult && t.resultByte 0 == none) = true := by decide

/-- Table T1 as rule R130 writes it. -/
def tableT1 : CodeTable := [(0x41, [false]), (0x42, [true, false]), (0x43, [true, true])]

theorem test_serialize_T1 : serialize tableT1 = (abac.drop 4).take 12 := by decide

theorem witness_SerializedTableLoadsBack :
    tableT1.wf = true ∧ atTSym.events = [] ∧ atTSym.refused = none ∧ atTSym.phase = 0x2#4 ∧ atTSym.op = 1#2
    ∧ State.op { atTSym with op := 2 } = 2#2 ∧ atTSym.tblCount = 0#9
    ∧ atTSym.holdsBytes atTSym.pos.toNat (serialize tableT1)
    ∧ atTSym.pos.toNat + (serialize tableT1).length ≤ atTSym.inLen.toNat := by
  unfold State.holdsBytes; decide

/-- The invariant of the two states of the next theorem. -/
theorem witness_ConcatenatedCodes_inv : (atDecode 0 0 0 []).Inv ∧ State.Inv { atDecode 0 0 0 [] with outCap := 2 } :=
  ⟨⟨by decide, by decide +kernel, by decide, by decide, by decide⟩,
    ⟨by decide, by decide +kernel, by decide, by decide, by decide⟩⟩

/-- V1's decode, with room for the output and (V51) without. -/
theorem witness_ConcatenatedCodesDecodeToTheirSymbols :
    let s := atDecode 0 0 0 []
    let bits := [false, true, false, false, true, true]
    s.events = [] ∧ s.refused = none ∧ s.prefixFree s.tblCount.toNat = true
    ∧ s.bitlen ≠ 0#32 ∧ s.phase = 0x7#4
    ∧ s.cursor = 0#32 ∧ s.outLen = 0#32 ∧ s.accLen = 0#8 ∧ s.accOvf = false
    ∧ (∀ k ∈ [0, 1, 0, 2], k < s.tblCount.toNat)
    ∧ bits = [0, 1, 0, 2].flatMap (fun k =>
      (List.range (s.entry k).len.toNat).map fun j => (s.entry k).code.getLsbD j)
    ∧ bits.length = s.bitlen.toNat
    ∧ (∀ i, i < bits.length → s.inbuf.read (s.paybase.toNat + i / 8) = some 0x4C
      ∧ (0x4C : Byte).getLsbD (7 - i % 8) = bits.getD i false)
    ∧ [0, 1, 0, 2].length ≤ s.outCap.toNat
    ∧ (State.outCap { s with outCap := 2 }).toNat < [0, 1, 0, 2].length := by decide

/-- The invariant of the state of the next theorem. -/
theorem witness_DecompressGivesBackTheData_inv : (loaded abac).Inv :=
  ⟨by decide, by decide +kernel, by decide, by decide, by decide⟩

/-- The container ABAC at offset 0 (V1). -/
theorem witness_DecompressGivesBackTheData :
    let s := loaded abac
    s.phase = 0x0#4 ∧ s.refused = none
    ∧ State.events { s with events := [.host (.csrWrite 1#10 (encodeCtrl 0x1#4 true))] }
      = [.host (.csrWrite 1#10 (encodeCtrl 0x1#4 true))]
    ∧ tableT1.wf = true ∧ tableT1.prefixFree = true ∧ [(0x4C : Byte)].length = ((6 : Word).toNat + 7) / 8
    ∧ s.holdsBytes s.inStart.toNat (container 6 tableT1 [0x4C])
    ∧ s.inStart.toNat + (container 6 tableT1 [0x4C]).length ≤ s.inLen.toNat
    ∧ Carries 6 tableT1 [0x4C] [0, 1, 0, 2] ∧ [0, 1, 0, 2].length ≤ s.outCap.toNat := by
  unfold State.holdsBytes Carries; decide

/-- The container ABAC is well-formed (rule R134); with a padding bit set it is not. -/
theorem test_abac_is_well_formed :
    WellFormedContainer 6 tableT1 [0x4C] ∧ container 6 tableT1 [0x4C] = abac ∧ ¬IsPayload 6 [0x4D] := by
  refine ⟨⟨by decide, by unfold IsPayload; decide, by decide, [0, 1, 0, 2], by unfold Carries; decide⟩, by decide, ?_⟩
  unfold IsPayload; decide

theorem witness_PackedCodesMakeAWellFormedContainer :
    tableT1.wf = true ∧ tableT1.prefixFree = true ∧ (∀ k ∈ [0, 1, 0, 2], k < tableT1.length)
    ∧ (concatCodes tableT1 [0, 1, 0, 2]).length < 2 ^ 32 := by decide

end Sys2Proof.Tests
end

/-! ### The interrupt -/

namespace Sys2Proof.Machine

/-- The output as a statement about the three bits it is made of (rule R54). -/
theorem State.irq_iff (s : State) : s.irq = true ↔ s.ie = true ∧ (s.done = true ∨ s.err = true) := by
  simp [State.irq]

/-- Settles O35: each state's level decides the claim, so it holds of every two states a step joins. -/
theorem irqFollowsDoneAndErr : Obligations.IrqFollowsDoneAndErr := by
  refine ⟨State.irq_iff, fun s t _ hs ht => ?_⟩
  obtain ⟨hie, hflag⟩ := t.irq_iff.1 ht
  have low : ¬(s.ie = true ∧ (s.done = true ∨ s.err = true)) := fun h => by simp [s.irq_iff.2 h] at hs
  by_cases hse : s.ie = true
  · have hd : s.done = false := by simpa using fun h => low ⟨hse, .inl h⟩
    have he : s.err = false := by simpa using fun h => low ⟨hse, .inr h⟩
    rcases hflag with h | h
    · exact .inl ⟨hd, h⟩
    · exact .inr (.inl ⟨he, h⟩)
  · exact .inr (.inr ⟨by simpa using hse, hie⟩)

end Sys2Proof.Machine

/-! ### The invariant: its parts by phase -/

namespace Sys2Proof.Machine

/-- An overflowed accumulator is full (rule R27). -/
def State.AccBounded (s : State) : Prop := s.accOvf = true → s.accLen = 255#8

/-- No status flag is set, as during every operation (rules R31, R210). -/
def State.NoFlags (s : State) : Prop := s.done = false ∧ s.err = false ∧ s.errcode = 0#8

/-- What holds in each phase that loads a container or a table (rules R139, R212, R213). -/
def State.LoadsTable (s : State) : Prop :=
  s.tblCount.toNat < 256 ∧ s.tblValid = false ∧ (s.op = 1#2 ∨ s.op = 2#2)
    ∧ (s.op = 1#2 → s.outLen = 0#32 ∧ s.cursor = 0#32)

/-- What holds while a payload is decoded, at its last bit too (rules R162, R184, R191). -/
def State.DecodesPayload (s : State) : Prop :=
  (s.tblValid = true ∧ (s.op = 1#2 ∨ s.op = 3#2))
    ∧ s.pos.toNat = s.paybase.toNat + ceil8 s.bitlen.toNat ∧ s.pos.toNat ≤ s.inLen.toNat
    ∧ s.outLen.toNat ≤ s.cursor.toNat ∧ s.cursor.toNat ≤ s.bitlen.toNat

/-- The parts of the invariant that no phase switches on or off. -/
def State.InvBase (s : State) : Prop := s.InvBuffers ∧ s.InvTable ∧ s.AccBounded

variable {s : State}

/-! What the invariant gives in each phase. -/

theorem State.Inv.base (hs : s.Inv) : s.InvBase := by
  obtain ⟨hb, ht, ⟨hacc, -⟩, -⟩ := hs
  exact ⟨hb, ht, hacc⟩

theorem State.Inv.noFlags (hs : s.Inv) (hp : s.phase ≠ 0#4) : s.NoFlags := by
  obtain ⟨-, -, ⟨-, hf, -⟩, -⟩ := hs
  exact hf (s.busy_iff.2 hp)

theorem State.Inv.loadsTable (hs : s.Inv) (hp : 1 ≤ s.phase.toNat ∧ s.phase.toNat ≤ 5) : s.LoadsTable := by
  obtain ⟨-, -, -, ⟨-, hl, -⟩, -⟩ := hs
  exact hl hp

theorem State.Inv.decodesPayload (hs : s.Inv) (hp : 7 ≤ s.phase.toNat) : s.DecodesPayload := by
  obtain ⟨-, -, -, -, ⟨h6, -, h7, -⟩⟩ := hs
  exact ⟨h6 (by omega), h7 hp⟩

/-! How the invariant is met in each phase. -/

theorem State.NoFlags.invFlags (hf : s.NoFlags) (hacc : s.AccBounded) : s.InvFlags := by
  obtain ⟨hd, he, hc⟩ := hf
  exact ⟨hacc, fun _ => ⟨hd, he, hc⟩, fun h => by simp [he] at h⟩

/-- While idle only ERR's own condition is asked. -/
theorem State.InvBase.inv_idle (h : s.InvBase) (hp : s.phase = 0#4)
    (he : s.err = true → s.done = false ∧ s.errcode ≠ 0#8) : s.Inv := by
  obtain ⟨hb, ht, hacc⟩ := h
  refine ⟨hb, ht, ⟨hacc, fun hbusy => absurd hp (s.busy_iff.1 hbusy), he⟩, ?_, ?_⟩ <;>
    simp [State.InvLoading, State.InvDecoding, hp]

/-- The phases HDR and T_SYM to T_MARK, with what HDR, T_CODE and T_MARK add. -/
theorem State.InvBase.inv_loading (h : s.InvBase) (hf : s.NoFlags) (hl : s.LoadsTable) (p : BitVec 4)
    (hp : s.phase = p) (hr : 1 ≤ p.toNat ∧ p.toNat ≤ 5)
    (h1 : p = 0x1#4 → s.op = 1#2 ∧ s.tblCount = 0#9 ∧ s.bitlen = 0#32)
    (h4 : p = 0x4#4 ∨ p = 0x5#4 → 1 ≤ s.openEntry.len.toNat) (h5 : p = 0x5#4 → s.openEntry.complete) : s.Inv := by
  obtain ⟨hb, ht, hacc⟩ := h
  subst hp
  refine ⟨hb, ht, hf.invFlags hacc, ⟨h1, fun _ => hl, h4, h5⟩, ?_, ?_, ?_, ?_, ?_, ?_⟩
  · exact fun h => by omega
  · exact fun h => by simp [h] at hr
  · exact fun h => by omega
  · exact fun h => by simp [h] at hr
  · exact fun h => by simp [h] at hr
  · omega

/-- The phase T_SYM, which every entry of a table starts from. -/
theorem State.InvBase.inv_tSym (h : s.InvBase) (hf : s.NoFlags) (hp : s.phase = 0x2#4) (hl : s.LoadsTable) : s.Inv :=
  h.inv_loading hf hl 0x2#4 hp (by decide) (fun h => absurd h (by decide)) (fun h => absurd h (by decide))
    (fun h => absurd h (by decide))

/-- The phase P_CHECK. -/
theorem State.InvBase.inv_pCheck (h : s.InvBase) (hf : s.NoFlags) (hp : s.phase = 0x6#4)
    (hv : s.tblValid = true ∧ (s.op = 1#2 ∨ s.op = 3#2)) (h0 : s.outLen = 0#32 ∧ s.cursor = 0#32) : s.Inv := by
  obtain ⟨hb, ht, hacc⟩ := h
  refine ⟨hb, ht, hf.invFlags hacc, ?_, fun _ => hv, fun _ => h0, ?_⟩ <;> simp [State.InvLoading, hp]

/-- The phase DECODE. -/
theorem State.InvBase.inv_decode (h : s.InvBase) (hf : s.NoFlags) (hp : s.phase = 0x7#4) (hd : s.DecodesPayload)
    (hc : s.cursor.toNat < s.bitlen.toNat) : s.Inv := by
  obtain ⟨hb, ht, hacc⟩ := h
  obtain ⟨hv, hpay⟩ := hd
  refine ⟨hb, ht, hf.invFlags hacc, ?_, fun _ => hv, ?_, fun _ => hpay, fun _ => hc, ?_⟩ <;>
    simp [State.InvLoading, hp]

/-- The phase FINISH. -/
theorem State.InvBase.inv_finish (h : s.InvBase) (hf : s.NoFlags) (hp : s.phase = 0x8#4) (hd : s.DecodesPayload)
    (hc : s.cursor = s.bitlen) : s.Inv := by
  obtain ⟨hb, ht, hacc⟩ := h
  obtain ⟨hv, hpay⟩ := hd
  refine ⟨hb, ht, hf.invFlags hacc, ?_, fun _ => hv, ?_, fun _ => hpay, ?_, fun _ => hc, ?_⟩ <;>
    simp [State.InvLoading, hp]

/-! ### The invariant: what ends an operation -/

theorem ErrKind.code_ne_zero (k : ErrKind) : k.code ≠ 0#8 := by cases k <;> decide

/-- Error entry needs only what no phase switches off (rule R243). -/
theorem State.InvBase.raise (h : s.InvBase) (k : ErrKind) : (s.raise k).Inv :=
  State.InvBase.inv_idle (s := s.raise k) h rfl fun _ => ⟨rfl, k.code_ne_zero⟩

/-- Completion, of an operation that has set no flag (rule R246). -/
theorem State.InvBase.complete (h : s.InvBase) (he : s.err = false) : s.complete.Inv :=
  State.InvBase.inv_idle (s := s.complete) h rfl fun h' => by simp [he] at h'

/-! ### The invariant: one lemma for each engine step -/

/-- The outcome is a next state, and the invariant holds in it. -/
def Result.GivesInv (r : Result) : Prop := ∃ t, r = .next t ∧ t.Inv

theorem Result.givesInv_next (h : s.Inv) : Result.GivesInv (.next s) := ⟨s, rfl, h⟩

/-- A container step raises, refuses, or goes on with bytes inside IN_LEN. -/
theorem State.Inv.containerField (hs : s.Inv) {n : Nat} {trunc : ErrKind} {k : List Byte → Result}
    (hk : ∀ bytes, Result.GivesInv (k bytes)) : Result.GivesInv (s.containerField n trunc k) := by
  rcases s.containerField_cases n trunc k with ⟨-, e⟩ | ⟨-, -, e⟩ | ⟨bytes, -, -, e⟩ <;> rw [e]
  · exact Result.givesInv_next (hs.base.raise trunc)
  · exact Result.givesInv_next hs
  · exact hk bytes

/-- A write of the open entry leaves the committed ones as they were. -/
theorem State.InvTable.store (ht : s.InvTable) (hc : s.tblCount.toNat < 256) (hv : s.tblValid = false) (e : Entry) :
    State.InvTable { s with ent := s.ent.write s.tblCount.toNat e } := by
  obtain ⟨hwf, hbelow, hcount, hent, -⟩ := ht
  refine ⟨Memory.write_wf _ _ _ hwf, Memory.write_below _ _ _ _ hbelow hc, hcount, fun i hi => ?_, fun h => ?_⟩
  · rw [State.entry_write, if_neg (Nat.ne_of_lt hi)]
    exact hent i hi
  · exact absurd (hv.symm.trans h) (by decide)

/-- The write of the open entry and the advance to phase p, as T_SYM, T_LEN and T_CODE do it. -/
theorem State.Inv.storeEntry (hs : s.Inv) (hr : 1 ≤ s.phase.toNat ∧ s.phase.toNat ≤ 5) (e : Entry) (d : Word)
    (p : BitVec 4) (hp : 2 ≤ p.toNat ∧ p.toNat ≤ 5) (h4 : p = 0x4#4 ∨ p = 0x5#4 → 1 ≤ e.len.toNat)
    (h5 : p = 0x5#4 → e.complete) :
    Result.GivesInv (s.storeEntry e fun t => { t with pos := t.pos + d, phase := p }) := by
  obtain ⟨hb, ht, hacc⟩ := hs.base
  have hl := hs.loadsTable hr
  have hf := hs.noFlags fun h => by simp [h] at hr
  obtain ⟨hc, hv, -⟩ := id hl
  rcases s.storeEntry_cases e fun t => { t with pos := t.pos + d, phase := p } with ⟨-, eq⟩ | ⟨hfull, -⟩
  · rw [eq]
    have opened : State.openEntry { s with ent := s.ent.write s.tblCount.toNat e } = e :=
      (s.entry_write _ _ e).trans (if_pos rfl)
    refine Result.givesInv_next (State.InvBase.inv_loading ⟨hb, ht.store hc hv e, hacc⟩ hf hl p rfl ⟨by omega, hp.2⟩
      (fun h => by simp [h] at hp) (fun h => ?_) (fun h => ?_))
    · exact (congrArg (fun x : Entry => 1 ≤ x.len.toNat) opened).mpr (h4 h)
    · exact (congrArg Entry.complete opened).mpr (h5 h)
  · omega

theorem execHdr_givesInv (hs : s.Inv) (hp : s.phase = 0x1#4) : Result.GivesInv (execHdr s) := by
  have hl := hs.loadsTable (by simp [hp])
  have hf := hs.noFlags (by simp [hp])
  exact hs.containerField fun bytes => Result.givesInv_next (State.InvBase.inv_tSym hs.base hf rfl hl)

theorem execTSym_givesInv (hs : s.Inv) (hp : s.phase = 0x2#4) : Result.GivesInv (execTSym s) :=
  hs.containerField fun _ => hs.storeEntry (by simp [hp]) _ 1 Phase.tLen (by decide)
    (fun h => absurd h (by decide)) (fun h => absurd h (by decide))

/-- A length byte read as 0 raises; any other is the open entry's length, at least 1 (rule R137). -/
theorem execTLen_givesInv (hs : s.Inv) (hp : s.phase = 0x3#4) : Result.GivesInv (execTLen s) := by
  refine hs.containerField fun bytes => ?_
  split
  · exact Result.givesInv_next (hs.base.raise _)
  · rename_i hne
    refine hs.storeEntry (by simp [hp]) _ 1 Phase.tCode (by decide) (fun _ => ?_) (fun h => absurd h (by decide))
    exact Nat.pos_of_ne_zero fun h0 => hne (BitVec.eq_of_toNat_eq h0)

/-- The unpacked code is 0 past the length that T_LEN stored, so the open entry is complete (rule R138). -/
theorem execTCode_givesInv (hs : s.Inv) (hp : s.phase = 0x4#4) : Result.GivesInv (execTCode s) := by
  have hlen : 1 ≤ s.openEntry.len.toNat := by
    obtain ⟨-, -, -, ⟨-, -, h4, -⟩, -⟩ := hs
    exact h4 (.inl hp)
  refine hs.containerField fun bytes => ?_
  refine hs.storeEntry (by simp [hp]) _ _ Phase.tMark (by decide) (fun _ => hlen) (fun _ => ⟨hlen, fun j hj hge => ?_⟩)
  rw [getLsbD_unpackCode _ _ _ hj]
  simp [Nat.not_lt.mpr hge]

/-- The committed entry joins the complete ones. -/
theorem State.Inv.commitEntry_complete (hs : s.Inv) (hp : s.phase = 0x5#4) :
    s.commitEntry.tblCount.toNat = s.tblCount.toNat + 1
      ∧ ∀ i, i < s.tblCount.toNat + 1 → (s.entry i).complete := by
  obtain ⟨hc, -⟩ := hs.loadsTable (by simp [hp])
  obtain ⟨-, ⟨-, -, -, hent, -⟩, -, ⟨-, -, -, h5⟩, -⟩ := hs
  refine ⟨?_, fun i hi => ?_⟩
  · show (s.tblCount + 1).toNat = s.tblCount.toNat + 1
    bv_omega
  · rcases Nat.lt_succ_iff_lt_or_eq.1 hi with h | rfl
    · exact hent i h
    · exact h5 hp

/-- The commit keeps the table, still without its end marker (rule R139). -/
theorem State.Inv.commitEntry_base (hs : s.Inv) (hp : s.phase = 0x5#4) : s.commitEntry.InvBase := by
  obtain ⟨hcount, hent⟩ := hs.commitEntry_complete hp
  obtain ⟨hc, hv, -⟩ := hs.loadsTable (by simp [hp])
  obtain ⟨hb, ⟨hwf, hbelow, -⟩, hacc⟩ := hs.base
  refine ⟨hb, ⟨hwf, hbelow, by omega, fun i hi => hent i (by omega), fun h => ?_⟩, hacc⟩
  exact absurd (hv.symm.trans h) (by decide)

/-- The end marker makes the table valid, over at least the entry it commits (rules R30, R49, R139). -/
theorem State.Inv.validTable_base (hs : s.Inv) (hp : s.phase = 0x5#4) :
    State.InvBase { s.commitEntry with
      tblValid := true, tblPf := s.commitEntry.prefixFree s.commitEntry.tblCount.toNat } := by
  obtain ⟨hcount, -⟩ := hs.commitEntry_complete hp
  obtain ⟨hb, ⟨hwf, hbelow, hle, hent, -⟩, hacc⟩ := hs.commitEntry_base hp
  exact ⟨hb, ⟨hwf, hbelow, hle, hent, fun _ => ⟨show 1 ≤ s.commitEntry.tblCount.toNat by omega, rfl⟩⟩, hacc⟩

theorem execCont_givesInv (hs : s.Inv) (hp : s.phase = 0x5#4) : Result.GivesInv (execCont s) := by
  have hbase := hs.commitEntry_base hp
  obtain ⟨-, hv, hop, hout⟩ := hs.loadsTable (by simp [hp])
  have hf := hs.noFlags (by simp [hp])
  simp only [execCont]
  split
  · exact Result.givesInv_next (hbase.raise _)
  · rename_i hne
    have hlt : s.commitEntry.tblCount.toNat < 256 := by
      obtain ⟨-, ⟨-, -, hle, -⟩, -⟩ := hbase
      exact Nat.lt_of_le_of_ne hle fun h => hne (BitVec.eq_of_toNat_eq h)
    exact Result.givesInv_next (State.InvBase.inv_tSym hbase hf rfl ⟨hlt, hv, hop, hout⟩)

theorem execLast_givesInv (hs : s.Inv) (hp : s.phase = 0x5#4) : Result.GivesInv (execLast s) := by
  have hbase := hs.validTable_base hp
  obtain ⟨-, -, -, hout⟩ := hs.loadsTable (by simp [hp])
  have hf := hs.noFlags (by simp [hp])
  obtain ⟨-, he, -⟩ := id hf
  simp only [execLast]
  split
  · rename_i hop
    exact Result.givesInv_next (State.InvBase.inv_pCheck hbase hf rfl ⟨rfl, .inl hop⟩ (hout hop))
  · exact Result.givesInv_next (hbase.complete he)

theorem execTMark_givesInv (hs : s.Inv) (hp : s.phase = 0x5#4) : Result.GivesInv (execTMark s) := by
  refine hs.containerField fun bytes => ?_
  split
  · exact execCont_givesInv hs hp
  split
  · exact execLast_givesInv hs hp
  · exact Result.givesInv_next (hs.base.raise _)

/-- The payload lies inside IN_LEN, so `pos` does not wrap; a payload of 0 bits is at its end (rule R162). -/
theorem execPCheck_givesInv (hs : s.Inv) (hp : s.phase = 0x6#4) : Result.GivesInv (execPCheck s) := by
  obtain ⟨hb, ht, -⟩ := hs.base
  have hf := hs.noFlags (by simp [hp])
  obtain ⟨hv, hout, -⟩ : (s.tblValid = true ∧ (s.op = 1#2 ∨ s.op = 3#2)) ∧ s.outLen = 0#32 ∧ s.cursor = 0#32 := by
    obtain ⟨-, -, -, -, ⟨h6, h0, -⟩⟩ := hs
    exact ⟨h6 (by simp [hp]), h0 hp⟩
  simp only [execPCheck, State.inRange, decide_eq_true_eq]
  split
  · rename_i hr
    have hpos : (s.pos + BitVec.ofNat 32 (ceil8 s.bitlen.toNat)).toNat = s.pos.toNat + ceil8 s.bitlen.toNat := by
      have := s.inLen.isLt
      rw [BitVec.toNat_add_of_lt] <;> simp only [BitVec.toNat_ofNat] <;> omega
    have hd : ∀ p : BitVec 4, State.DecodesPayload { s with
        paybase := s.pos, pos := s.pos + BitVec.ofNat 32 (ceil8 s.bitlen.toNat), cursor := 0, accLen := 0,
        accOvf := false, phase := p } := fun p =>
      ⟨hv, hpos, hpos.trans_le hr, by simp [hout], Nat.zero_le _⟩
    split
    · rename_i hzero
      exact Result.givesInv_next (State.InvBase.inv_finish ⟨hb, ht, nofun⟩ hf rfl (hd _) hzero.symm)
    · rename_i hne
      refine Result.givesInv_next (State.InvBase.inv_decode ⟨hb, ht, nofun⟩ hf rfl (hd _) ?_)
      exact Nat.pos_of_ne_zero fun h => hne (BitVec.eq_of_toNat_eq h)
  · exact Result.givesInv_next (hs.base.raise _)

/-- After a decoded bit the payload goes on or has come to its end (rule R184). -/
theorem State.InvBase.endOfPayload (h : s.InvBase) (hf : s.NoFlags) (hp : s.phase = 0x7#4) (hd : s.DecodesPayload) :
    s.endOfPayload.Inv := by
  rcases s.endOfPayload_cases with ⟨hc, e⟩ | ⟨hc, e⟩ <;> rw [e]
  · exact State.InvBase.inv_finish h hf rfl hd hc
  · obtain ⟨-, -, -, -, hle⟩ := id hd
    exact h.inv_decode hf hp hd (Nat.lt_of_le_of_ne hle fun h => hc (BitVec.eq_of_toNat_eq h))

/-- Appending a bit keeps the accumulator's bound (rule R182). -/
theorem State.AccBounded.withBit (h : s.AccBounded) (b : Bool) : (s.withBit b).AccBounded := by
  rcases State.accAppend_cases { s with cursor := s.cursor + 1 } b with ⟨-, e⟩ | ⟨-, hl, e⟩ | ⟨hovf, -, e⟩
  all_goals rw [show s.withBit b = _ from e]
  · exact h
  · exact fun _ => hl
  · exact fun h' => absurd (hovf.symm.trans h') (by decide)

/-- Taking a bit writes the cursor and the accumulator only. -/
theorem State.withBit_frame (s : State) (b : Bool) : s.withBit b = { s with
    cursor := s.cursor + 1, acc := (s.withBit b).acc, accLen := (s.withBit b).accLen,
    accOvf := (s.withBit b).accOvf } := by
  rcases State.accAppend_cases { s with cursor := s.cursor + 1 } b with ⟨-, e⟩ | ⟨-, -, e⟩ | ⟨-, -, e⟩
  all_goals rw [show s.withBit b = _ from e]

/-- Once a bit is taken one more symbol may stand in the output, and the payload may be at its end. -/
theorem State.Inv.withBit (hs : s.Inv) (hp : s.phase = 0x7#4) (b : Bool) :
    (s.withBit b).InvBase ∧ (s.withBit b).NoFlags ∧ (s.withBit b).phase = 0x7#4 ∧ (s.withBit b).DecodesPayload
      ∧ (s.withBit b).outLen.toNat < (s.withBit b).cursor.toNat := by
  obtain ⟨hb, ht, hacc⟩ := hs.base
  obtain ⟨hv, hpos, hin, hout, -⟩ := hs.decodesPayload (by simp [hp])
  have hlt : s.cursor.toNat < s.bitlen.toNat := by
    obtain ⟨-, -, -, -, ⟨-, -, -, h7, -⟩⟩ := hs
    exact h7 hp
  have hcur : (s.cursor + 1).toNat = s.cursor.toNat + 1 := by bv_omega
  have hacc' := hacc.withBit b
  rw [s.withBit_frame b]
  exact ⟨⟨hb, ht, hacc'⟩, hs.noFlags (by simp [hp]), hp,
    ⟨hv, hpos, hin, by simp only [hcur]; omega, by simp only [hcur]; omega⟩, by simp only [hcur]; omega⟩

/-- The byte emitted stands at `out_len`, below OUT_CAP (rule R185). -/
theorem State.InvBuffers.emit (h : s.InvBuffers) (hlt : s.outLen.toNat < s.outCap.toNat) (v : Byte) :
    State.InvBuffers { s with outbuf := s.outbuf.write s.outLen.toNat v, outLen := s.outLen + 1 } := by
  obtain ⟨hcap, hin, hiwf, hibelow, howf, hobelow, -, hread⟩ := h
  have hlen : (s.outLen + 1).toNat = s.outLen.toNat + 1 := by bv_omega
  refine ⟨hcap, hin, hiwf, hibelow, Memory.write_wf _ _ _ howf, Memory.write_below _ _ _ _ hobelow hlt,
    by simp only [hlen]; omega, fun k hk => ?_⟩
  simp only [hlen] at hk
  rw [Memory.read_write _ howf]
  split
  · rfl
  · exact hread k (by omega)

/-- The symbol of a match is emitted where there is room for it, and the accumulator is emptied (rule R184). -/
theorem State.InvBase.emit_givesInv (h : s.InvBase) (hf : s.NoFlags) (hp : s.phase = 0x7#4) (hd : s.DecodesPayload)
    (hout : s.outLen.toNat < s.cursor.toNat) (hovf : s.accOvf = false) (v : Byte) :
    Result.GivesInv (s.emit v State.afterEmit) := by
  obtain ⟨hb, ht, -⟩ := id h
  obtain ⟨-, -, -, -, -, -, hcap, -⟩ := id hb
  obtain ⟨hv, hpos, hin, -, hcur⟩ := hd
  rcases s.emit_cases v State.afterEmit with ⟨-, e⟩ | ⟨hlt, e⟩ | ⟨hgt, -⟩
  · rw [e]; exact Result.givesInv_next (h.raise _)
  · rw [e]
    have hlen : (s.outLen + 1).toNat = s.outLen.toNat + 1 := by bv_omega
    refine Result.givesInv_next (State.InvBase.endOfPayload ⟨hb.emit hlt v, ht, fun h' => ?_⟩ hf hp
      ⟨hv, hpos, hin, by simp only [hlen]; omega, hcur⟩)
    exact absurd (hovf.symm.trans h') (by decide)
  · omega

/-- A bit is taken; then nothing is emitted, or the matched symbol, of an accumulator that has not overflowed. -/
theorem State.Inv.decodeBit (hs : s.Inv) (hp : s.phase = 0x7#4) (b : Bool) : Result.GivesInv (s.decodeBit b) := by
  obtain ⟨hbase, hf, hp', hd, hout⟩ := hs.withBit hp b
  rcases s.decodeBit_cases b with ⟨-, e⟩ | ⟨-, -, e⟩ | ⟨k, rest, hroom, -, e⟩ <;> rw [e]
  · exact Result.givesInv_next (hbase.endOfPayload hf hp' hd)
  · exact Result.givesInv_next (hbase.endOfPayload hf hp' hd)
  · obtain ⟨hovf, -, eq⟩ := s.withBit_room b hroom
    exact hbase.emit_givesInv hf hp' hd hout (by rw [eq]; exact hovf) _

theorem execDecodeStep_givesInv (hs : s.Inv) (hp : s.phase = 0x7#4) : Result.GivesInv (execDecodeStep s) := by
  rcases execDecodeStep_cases s with ⟨-, e⟩ | ⟨-, -, e⟩ | ⟨b, -, -, e⟩ <;> rw [e]
  · exact Result.givesInv_next (s := s.refuse _) hs
  · exact Result.givesInv_next (s := s.refuse _) hs
  · exact hs.decodeBit hp b

theorem execFinish_givesInv (hs : s.Inv) (hp : s.phase = 0x8#4) : Result.GivesInv (execFinish s) := by
  obtain ⟨-, he, -⟩ := hs.noFlags (by simp [hp])
  unfold execFinish
  split
  · exact Result.givesInv_next (hs.base.complete he)
  · exact Result.givesInv_next (hs.base.raise _)

/-- Every engine step keeps the invariant; the phase codes that are never held are shut out by it. -/
theorem engineStep_givesInv (hs : s.Inv) : Result.GivesInv (exec (decodePhase s.phase) s) := by
  have hle : s.phase.toNat ≤ 8 := by
    obtain ⟨-, -, -, -, ⟨-, -, -, -, -, hle⟩⟩ := hs
    exact hle
  unfold decodePhase
  split
  · exact Result.givesInv_next hs
  split
  · exact execHdr_givesInv hs ‹_›
  split
  · exact execTSym_givesInv hs ‹_›
  split
  · exact execTLen_givesInv hs ‹_›
  split
  · exact execTCode_givesInv hs ‹_›
  split
  · exact execTMark_givesInv hs ‹_›
  split
  · exact execPCheck_givesInv hs ‹_›
  split
  · exact execDecodeStep_givesInv hs ‹_›
  split
  · exact execFinish_givesInv hs ‹_›
  · bv_omega

/-! ### The invariant: the host's commands and accesses, and the reset -/

/-- A command keeps the invariant if its start does while idle; while busy it sets CMD_OVR only (rule R216). -/
theorem State.Inv.command (hs : s.Inv) (ie : Bool) (start : State → State)
    (h : ∀ u : State, u.InvBase → u.phase = 0#4 → (start u).Inv) : (s.command ie start).Inv := by
  by_cases hp : s.phase = 0#4
  · rw [s.command_of_idle ie start hp]
    exact h { s with ie := ie } hs.base hp
  · rw [s.command_of_busy ie start hp]
    exact hs

/-- The table's part holds of an invalidated table (rules R212, R213). -/
theorem State.InvTable.clearTable (ht : s.InvTable) : s.clearTable.InvTable := by
  obtain ⟨hwf, hbelow, -⟩ := ht
  exact ⟨hwf, hbelow, by simp, by simp, nofun⟩

/-- The buffers' part holds of an emptied output (rules R212, R214). -/
theorem State.InvBuffers.clearDecode (hb : s.InvBuffers) : s.clearDecode.InvBuffers := by
  obtain ⟨hcap, hin, hiwf, hibelow, howf, hobelow, -⟩ := hb
  exact ⟨hcap, hin, hiwf, hibelow, howf, hobelow, Nat.zero_le _, nofun⟩

/-- DECOMPRESS starts at HDR with the table and the output cleared (rule R212). -/
theorem execDecompress_givesInv (hs : s.Inv) (ie : Bool) : Result.GivesInv (execDecompress ie s) := by
  refine Result.givesInv_next (hs.command ie _ fun u hu _ => ?_)
  obtain ⟨hb, ht, -⟩ := hu
  exact State.InvBase.inv_loading ⟨hb.clearDecode, ht.clearTable, nofun⟩ ⟨rfl, rfl, rfl⟩
    ⟨by simp, rfl, .inl rfl, fun _ => ⟨rfl, rfl⟩⟩ Phase.hdr rfl (by decide) (fun _ => ⟨rfl, rfl, rfl⟩)
    (fun h => absurd h (by decide)) (fun h => absurd h (by decide))

/-- LOAD_TABLE starts at T_SYM with the table cleared; the output stays (rule R213). -/
theorem execLoadTable_givesInv (hs : s.Inv) (ie : Bool) : Result.GivesInv (execLoadTable ie s) := by
  refine Result.givesInv_next (hs.command ie _ fun u hu _ => ?_)
  obtain ⟨hb, ht, hacc⟩ := hu
  exact State.InvBase.inv_tSym ⟨hb, ht.clearTable, hacc⟩ ⟨rfl, rfl, rfl⟩ rfl
    ⟨by simp, rfl, .inr rfl, fun h => absurd (show Op.loadTable = 1#2 from h) (by decide)⟩

/-- DECODE starts at P_CHECK over a valid table, and raises without one (rule R214). -/
theorem execDecode_givesInv (hs : s.Inv) (ie : Bool) : Result.GivesInv (execDecode ie s) := by
  refine Result.givesInv_next (hs.command ie _ fun u hu _ => ?_)
  obtain ⟨hb, ht, hacc⟩ := hu
  dsimp only
  split
  · rename_i hv
    exact State.InvBase.inv_pCheck ⟨hb.clearDecode, ht, nofun⟩ ⟨rfl, rfl, rfl⟩ rfl ⟨hv, .inr rfl⟩ ⟨rfl, rfl⟩
  · exact State.InvBase.raise (s := u.cmdStart Op.decode) ⟨hb, ht, hacc⟩ _

theorem execReservedCmd_givesInv (hs : s.Inv) (cmd : BitVec 4) (ie : Bool) :
    Result.GivesInv (execReservedCmd cmd ie s) :=
  Result.givesInv_next (hs.command ie _ fun u hu _ =>
    State.InvBase.raise (s := { u with done := false, op := Op.none }) hu _)

theorem execAbort_givesInv (hs : s.Inv) (ie : Bool) : Result.GivesInv (execAbort ie s) := by
  refine Result.givesInv_next ?_
  split
  · exact State.InvBase.raise (s := { s with ie := ie }) hs.base _
  · exact hs

/-- Every CTRL write keeps the invariant. -/
theorem ctrlWrite_givesInv (hs : s.Inv) (v : Word) : Result.GivesInv (exec (decodeCtrl v) s) := by
  simp only [decodeCtrl]
  split
  · exact Result.givesInv_next (s := { s with ie := _ }) hs
  split
  · exact execDecompress_givesInv hs _
  split
  · exact execLoadTable_givesInv hs _
  split
  · exact execDecode_givesInv hs _
  split
  · exact execAbort_givesInv hs _
  · exact execReservedCmd_givesInv hs (ctrlCmd v) (ctrlIe v)

/-- A guarded write keeps the invariant if it does while idle; while busy it sets WR_IGN only (rule R280). -/
theorem State.Inv.writeIdle (hs : s.Inv) (write : State → State) (h : s.phase = 0#4 → (write s).Inv) :
    (s.writeIdle write).Inv := by
  by_cases hp : s.phase = 0#4
  · rw [s.writeIdle_of_idle write hp]
    exact h hp
  · rw [s.writeIdle_of_busy write hp]
    exact hs

/-- While idle the input side is free to change, as long as the buffers' part holds again. -/
theorem State.Inv.configure (hs : s.Inv) (hp : s.phase = 0#4) (inLen inStart bitlen : Word) (inbuf : Memory Byte)
    (hlen : inLen.toNat ≤ s.inCap.toNat) (hwf : inbuf.wf = true) (hbelow : inbuf.below s.inCap.toNat = true) :
    State.Inv { s with inLen := inLen, inStart := inStart, bitlen := bitlen, inbuf := inbuf } := by
  obtain ⟨⟨hcap, -, -, -, hout⟩, ht, ⟨hacc, -, herr⟩, -⟩ := hs
  exact State.InvBase.inv_idle ⟨⟨hcap, hlen, hwf, hbelow, hout⟩, ht, hacc⟩ hp herr

/-- Write 1 to clear: a flag that is still set was set before (rule R36). -/
theorem State.Inv.clearFlags (hs : s.Inv) (v : Word) : (s.clearFlags v).Inv := by
  obtain ⟨hb, ht, ⟨hacc, hbusy, herr⟩, hl, hd⟩ := hs
  refine ⟨hb, ht, ⟨hacc, fun h => ?_, fun h => ?_⟩, hl, hd⟩
  · obtain ⟨hdone, he, hcode⟩ := hbusy h
    simp [hdone, he, hcode]
  · simp only [State.clearFlags_fields, Bool.and_eq_true] at h
    simp [herr h.1]

/-- Every CSR write other than a command keeps the invariant; IN_LEN saturates at IN_CAP (rule R38). -/
theorem State.Inv.csrWrite (hs : s.Inv) (v : Word) (c : Csr) : (s.csrWrite v c).Inv := by
  obtain ⟨⟨-, hlen, hwf, hbelow, -⟩, -⟩ := id hs
  cases c with
  | status => exact hs.clearFlags v
  | inLen =>
    refine hs.writeIdle _ fun hp => hs.configure hp _ _ _ _ ?_ hwf hbelow
    split
    · assumption
    · exact Nat.le_refl _
  | inStart => exact hs.writeIdle _ fun hp => hs.configure hp _ _ _ _ hlen hwf hbelow
  | bitlen => exact hs.writeIdle _ fun hp => hs.configure hp _ _ _ _ hlen hwf hbelow
  | _ => exact hs

/-- Every host access that runs no command keeps the invariant. -/
theorem State.Inv.access (hs : s.Inv) (h : HostAccess) : (s.access h).Inv := by
  obtain ⟨⟨-, hlen, hwf, hbelow, -⟩, -⟩ := id hs
  cases h with
  | csrWrite w v => exact hs.csrWrite v (csrAt w)
  | inWrite a v =>
    simp only [State.access, State.inbufWrite]
    split
    · rename_i ha
      exact hs.writeIdle _ fun hp => hs.configure hp _ _ _ _ hlen (Memory.write_wf _ _ _ hwf)
        (Memory.write_below _ _ _ _ hbelow ha)
    · exact hs
  | csrRead _ | inRead _ | outRead _ | outWrite _ _ => exact hs

/-- A reset needs only a capacity of rule R5's range and an entry store in canonical form, which it keeps. -/
theorem State.resetEvent_inv (hcap : 8 ≤ s.inCap.toNat) (hwf : s.ent.wf = true) (hbelow : s.ent.below 256 = true) :
    s.resetEvent.Inv := by
  exact State.InvBase.inv_idle ⟨⟨hcap, Nat.zero_le _, rfl, rfl, rfl, rfl, Nat.zero_le _, nofun⟩,
    ⟨hwf, hbelow, Nat.zero_le _, nofun, nofun⟩, nofun⟩ rfl nofun

/-- The state a run starts from, whatever events are to come. -/
theorem State.resetOf_inv (inCap outCap : Word) (evs : List Event) (hcap : 8 ≤ inCap.toNat) :
    State.Inv { State.resetOf inCap outCap with events := evs } :=
  State.resetEvent_inv (s := { State.resetOf inCap outCap with events := evs }) hcap rfl rfl

/-! ### The invariant of every reachable state -/

/-- Every event keeps the invariant: the step goes on, or is the engine's turn under the refusal mark. -/
theorem step_givesInv (hs : s.Inv) :
    Result.GivesInv (step s) ∨ ∃ r, s.refused = some r ∧ step s = .refused (.engineRefused r) := by
  have taken : ∀ {e t}, s.nextEvent = (e, t) → t.Inv ∧ t.refused = s.refused := fun h => by
    rw [s.nextEvent_state _ _ h]
    exact ⟨hs, rfl⟩
  rcases step_cases s with ⟨t, h, -, e⟩ | ⟨t, r, h, hr, e⟩ | ⟨t, h, e⟩ | ⟨t, a, v, h, -, e⟩ | ⟨t, a, h, -, e⟩ <;> rw [e]
  · exact .inl (engineStep_givesInv (taken h).1)
  · exact .inr ⟨r, (taken h).2.symm.trans hr, rfl⟩
  · obtain ⟨⟨hcap, -⟩, ⟨hwf, hbelow, -⟩, -⟩ := (taken h).1
    exact .inl (Result.givesInv_next (State.resetEvent_inv hcap hwf hbelow))
  · exact .inl (ctrlWrite_givesInv (taken h).1 v)
  · exact .inl (Result.givesInv_next ((taken h).1.access a))

/-- A step that answers a next state keeps the invariant. -/
theorem State.Inv.of_step {t : State} (hs : s.Inv) (h : step s = .next t) : t.Inv := by
  rcases step_givesInv hs with ⟨u, e, hu⟩ | ⟨r, -, e⟩
  · cases h.symm.trans e
    exact hu
  · cases h.symm.trans e

theorem State.Inv.of_runSteps {t : State} (n : Nat) : ∀ {s : State}, s.Inv → runSteps n s = .next t → t.Inv := by
  induction n with
  | zero => intro s hs h; cases h; exact hs
  | succ n ih =>
    intro s hs h
    simp only [runSteps] at h
    split at h
    · exact ih (hs.of_step ‹_›) h
    · cases h
    · cases h

theorem State.Reachable.inv (h : s.Reachable) : s.Inv := by
  obtain ⟨inCap, outCap, evs, n, hcap, hrun⟩ := h
  exact (State.resetOf_inv inCap outCap evs hcap).of_runSteps n hrun

/-- The invariant says all that rule R58 lists. -/
theorem State.Inv.r58 (hs : s.Inv) : s.R58 := by
  have decoding : 7 ≤ s.phase.toNat → s.cursor.toNat ≤ s.bitlen.toNat
      ∧ s.paybase.toNat + ceil8 s.bitlen.toNat ≤ s.inLen.toNat ∧ s.tblValid = true := fun hp => by
    obtain ⟨⟨hv, -⟩, hpos, hin, -, hcur⟩ := hs.decodesPayload hp
    exact ⟨hcur, hpos ▸ hin, hv⟩
  obtain ⟨⟨-, hlen, -, -, -, -, hout, -⟩, ⟨-, -, hcount, hent, hvalid⟩, ⟨hacc, -⟩, -, ⟨-, -, -, h7, -⟩⟩ := hs
  refine ⟨⟨Nat.le_of_lt_succ s.accLen.isLt, fun h => ?_⟩, hout, ⟨hcount, fun h => (hvalid h).1⟩, ?_, h7, hlen,
    fun i hi => ⟨(hent i hi).1, Nat.le_of_lt_succ (s.entry i).len.isLt⟩⟩
  · rw [hacc h]; rfl
  · rintro (hp | hp) <;> exact decoding (by simp [hp])

end Sys2Proof.Machine

namespace Sys2Proof.Machine

/-- Settles O48: R58 is part of the stronger invariant that reset meets and every step keeps. -/
theorem everyReachableStateMeetsR58 : Obligations.EveryReachableStateMeetsR58 :=
  fun _ h => h.inv.r58

end Sys2Proof.Machine

/-! ### Reads of unwritten INBUF bytes -/

namespace Sys2Proof.Machine

/-- The container read succeeds only if each of its bytes was written, so one unwritten byte refuses, whatever the
step would have made of the bytes (rules R80, R83). -/
theorem State.containerField_unwritten (s : State) (n k : Nat) (trunc : ErrKind) (body : List Byte → Result)
    (hk : k < n) (hin : s.pos.toNat + n ≤ s.inLen.toNat) (hnone : s.inbuf.read (s.pos.toNat + k) = none) :
    s.containerField n trunc body = .next (s.refuse .uninitInbuf) := by
  have hread : s.memReadIn s.pos.toNat n = none := (s.memReadIn_eq_none n _).2 ⟨k, hk, hnone⟩
  rcases s.containerField_cases n trunc body with ⟨hout, -⟩ | ⟨-, -, e⟩ | ⟨bytes, -, hsome, -⟩
  · omega
  · exact e
  · cases hread.symm.trans hsome

/-- A DECODE step has a bit only if the bit's byte was written (rules R83, R184). -/
theorem execDecodeStep_unwritten (s : State) (hpf : s.tblPf = true)
    (hnone : s.inbuf.read (s.paybase.toNat + s.cursor.toNat / 8) = none) :
    execDecodeStep s = .next (s.refuse .uninitInbuf) := by
  have hbit : s.payloadBit s.cursor.toNat = none := by simp [State.payloadBit, hnone]
  rcases execDecodeStep_cases s with ⟨hnpf, -⟩ | ⟨-, -, e⟩ | ⟨b, -, hsome, -⟩
  · cases hpf.symm.trans hnpf
  · exact e
  · cases hbit.symm.trans hsome

/-- Settles O32: the four table steps and HDR read through the one container read, DECODE through the payload bit. -/
theorem unwrittenByteRefuses : Obligations.UnwrittenByteRefuses := by
  refine ⟨fun s k hk hin hnone => s.containerField_unwritten 4 k _ _ hk hin hnone, fun s i hi hin hnone => ?_,
    fun s k hk hin hnone => s.containerField_unwritten _ k _ _ hk hin hnone,
    fun s hpf hnone => execDecodeStep_unwritten s hpf hnone⟩
  have one : ∀ body, s.containerField 1 .truncTable body = .next (s.refuse .uninitInbuf) :=
    fun body => s.containerField_unwritten 1 0 _ body Nat.one_pos hin hnone
  simp only [List.mem_cons, List.not_mem_nil, or_false] at hi
  rcases hi with rfl | rfl | rfl <;> exact one _

end Sys2Proof.Machine

/-! ### The host commands -/

namespace Sys2Proof.Machine

/-- CMD is the word's low four bits (rule R35). -/
@[simp] theorem toNat_ctrlCmd (v : Word) : (ctrlCmd v).toNat = v.toNat % 16 := by
  simp [ctrlCmd, BitVec.extractLsb'_toNat]

/-- CMD 0 is NOP, whatever the other bits (rules R110, R111). -/
theorem decodeCtrl_nop (v : Word) (h : v.toNat % 16 = 0) : decodeCtrl v = .nop (ctrlIe v) := by
  have hcmd : ctrlCmd v = 0x0#4 := BitVec.eq_of_toNat_eq (by simpa using h)
  exact if_pos hcmd

/-- CMD 4 to 14 is a reserved command (rule R110). -/
theorem decodeCtrl_reserved (v : Word) (hlo : 4 ≤ v.toNat % 16) (hhi : v.toNat % 16 ≤ 14) :
    decodeCtrl v = .reservedCmd (ctrlCmd v) (ctrlIe v) := by
  have hne : ∀ c : BitVec 4, c.toNat < 4 ∨ c.toNat = 15 → ctrlCmd v ≠ c := by
    rintro c hc rfl
    rw [toNat_ctrlCmd] at hc
    omega
  simp [decodeCtrl, hne]

/-- Every CTRL word but NOP's and ABORT's goes through the one command entry, which alone looks at BUSY
(rules R210, R216). -/
theorem exec_ctrl_command (v : Word) (hlo : 1 ≤ v.toNat % 16) (hhi : v.toNat % 16 ≤ 14) (s : State) :
    ∃ start, exec (decodeCtrl v) s = .next (s.command (ctrlIe v) start) := by
  rw [← toNat_ctrlCmd] at hlo hhi
  simp only [decodeCtrl]
  split
  · bv_omega
  split
  · exact ⟨_, rfl⟩
  split
  · exact ⟨_, rfl⟩
  split
  · exact ⟨_, rfl⟩
  split
  · bv_omega
  · exact ⟨_, rfl⟩

/-- Settles O24: NOP's meaning does not look at the phase. -/
theorem nopWritesOnlyIe : Obligations.NopWritesOnlyIe := by
  intro s v hcmd
  rw [show decode (.ctrl v) = .nop (ctrlIe v) from decodeCtrl_nop v hcmd]
  rfl

/-- Settles O28: while idle a reserved command is its start, the error entry with op NONE; the idle phase it writes is
the phase it was in. -/
theorem reservedCommandRaisesBadCommand : Obligations.ReservedCommandRaisesBadCommand := by
  intro s v hidle hlo hhi
  rw [show decode (.ctrl v) = .reservedCmd (ctrlCmd v) (ctrlIe v) from decodeCtrl_reserved v hlo hhi]
  calc exec (.reservedCmd (ctrlCmd v) (ctrlIe v)) s
      = .next (State.raise { s with ie := ctrlIe v, done := false, op := Op.none } .badCommand) :=
        congrArg Host.Outcome.next (s.command_of_idle _ _ hidle)
    _ = .next { s with
          ie := v.getLsbD 8, done := false, err := true, errcode := 0x0A#8, op := 0#2, phase := 0x0#4 } := rfl
    _ = _ := by rw [← hidle]

/-- Settles O30: while busy the command entry drops every start alike. -/
theorem busyCommandIsDropped : Obligations.BusyCommandIsDropped := by
  intro s v hbusy hlo hhi
  obtain ⟨start, hexec⟩ := exec_ctrl_command v hlo hhi s
  exact hexec.trans (congrArg Host.Outcome.next (s.command_of_busy (ctrlIe v) start hbusy))

end Sys2Proof.Machine

/-! ### The invariant as the obligations state it -/

namespace Sys2Proof.Machine

/-- Settles O46: the step lemma over every event, with its two outcomes written out. -/
theorem everyStepKeepsTheInvariant : Obligations.EveryStepKeepsTheInvariant :=
  fun _ hs => step_givesInv hs

/-- IN_CAP lies in rule R5's range. -/
theorem Config.eight_le_inCap : 8 ≤ Config.inCap.toNat := by
  have h := Config.inCapAbove.isLt
  simp only [Config.inCap, BitVec.toNat_ofNat]
  omega

/-- Settles O47: a reset state of any capacities rule R5 allows meets the invariant, so `State.reset` does. -/
theorem resetMeetsTheInvariant : Obligations.ResetMeetsTheInvariant :=
  ⟨State.resetOf_inv Config.inCap Config.outCap [] Config.eight_le_inCap, State.resetOf_inv⟩

end Sys2Proof.Machine

/-! ### Encodings -/

namespace Sys2Proof.Machine

/-- CMD is read back from the CTRL word built of it (rules R110, R114). -/
@[simp] theorem ctrlCmd_encodeCtrl (cmd : BitVec 4) (ie : Bool) : ctrlCmd (encodeCtrl cmd ie) = cmd := by
  revert cmd ie; decide

/-- IE is read back from the CTRL word built of it (rules R110, R114). -/
@[simp] theorem ctrlIe_encodeCtrl (cmd : BitVec 4) (ie : Bool) : ctrlIe (encodeCtrl cmd ie) = ie := by
  revert cmd ie; decide

/-- The word built of a CTRL word's CMD and IE keeps these five bits and clears the rest (rule R111). -/
theorem encodeCtrl_ctrlCmd (v : Word) : encodeCtrl (ctrlCmd v) (ctrlIe v) = v &&& 0x0000010F#32 := by
  have mask : ∀ i, i < 32 → (0x0000010F#32).getLsbD i = (decide (i < 4) || decide (i = 8)) := by decide
  have ieBit : ∀ i, i < 32 → (if ctrlIe v then 0x100#32 else 0#32).getLsbD i = (ctrlIe v && decide (i = 8)) := by
    cases ctrlIe v <;> decide
  refine BitVec.eq_of_getLsbD_eq fun i hi => ?_
  rw [encodeCtrl, BitVec.getLsbD_or, BitVec.getLsbD_and, mask i hi, ieBit i hi]
  by_cases h8 : i = 8
  · subst h8; simp [ctrlCmd, ctrlIe]
  · simp [ctrlCmd, h8, hi, Bool.and_comm]

/-- The encoder gives back CMD and IE of whatever command they decode to (rule R110). -/
theorem encode_decodeCtrl (v : Word) : encode (decodeCtrl v) = .ctrl (encodeCtrl (ctrlCmd v) (ctrlIe v)) := by
  simp only [decodeCtrl]
  split
  · rename_i h; rw [h, encode]
  split
  · rename_i h; rw [h, encode]
  split
  · rename_i h; rw [h, encode]
  split
  · rename_i h; rw [h, encode]
  split
  · rename_i h; rw [h, encode]
  · rfl

/-- Every phase code is the encoding of the step it selects (rule R21). -/
theorem encode_decodePhase (p : BitVec 4) : encode (decodePhase p) = .phase p := by
  revert p; decide

/-- The phase that selects an instruction is the instruction's encoding. -/
theorem phase_eq_of_decodePhase {p q : BitVec 4} {i : Instr} (h : decodePhase p = i) (hi : encode i = .phase q) :
    p = q := by
  have hp := encode_decodePhase p
  rw [h, hi] at hp
  exact (Selector.phase.inj hp).symm

/-- Every CTRL word decodes to a well-formed command: the reserved row is what the five other rows leave. -/
theorem wf_decodeCtrl (v : Word) : (decodeCtrl v).wf = true := by
  have reserved : ∀ cmd : BitVec 4, cmd ≠ 0 → cmd ≠ 1 → cmd ≠ 2 → cmd ≠ 3 → cmd ≠ 0xF →
      Instr.cmdReserved cmd = true := by decide
  simp only [decodeCtrl]
  split
  · rfl
  split
  · rfl
  split
  · rfl
  split
  · rfl
  split
  · rfl
  · exact reserved _ ‹_› ‹_› ‹_› ‹_› ‹_›

/-- A reserved phase code decodes to the reserved row, by name (rule R21). -/
theorem decodePhase_reserved (p : BitVec 4) (h : 9 ≤ p.toNat) : decodePhase p = .reservedPhase p := by
  revert p; decide

/-- A reserved marker decodes to the reserved row (rule R105). -/
theorem decodeMarker_reserved (m : Byte) (h0 : m ≠ 0x00#8) (hF : m ≠ 0xFF#8) : decodeMarker m = .reservedMarker m := by
  simp [decodeMarker, h0, hF]

/-- A length byte other than 0 is a legal code length (rule R106). -/
theorem decodeLength_legal (len : Byte) (h : len ≠ 0x00#8) : decodeLength len = .codeLength len := by
  simp [decodeLength, h]

/-- Settles O1: fixed selector values decode by evaluation; a row that covers a range needs that its value lies in
it, and a CTRL word that CMD and IE are read back. -/
theorem decodingAnEncodedInstructionGivesItBack : Obligations.DecodingAnEncodedInstructionGivesItBack := by
  intro i hwf
  cases i with
  | reservedMarker m =>
    simp only [Instr.wf, Instr.markerReserved, Bool.and_eq_true, bne_iff_ne] at hwf
    exact decodeMarker_reserved m hwf.1 hwf.2
  | codeLength len =>
    simp only [Instr.wf, Instr.lengthLegal, bne_iff_ne] at hwf
    exact decodeLength_legal len hwf
  | reservedCmd cmd ie =>
    simp only [Instr.wf, Instr.cmdReserved, Bool.and_eq_true, decide_eq_true_eq] at hwf
    have hcmd : (encodeCtrl cmd ie).toNat % 16 = cmd.toNat := by rw [← toNat_ctrlCmd, ctrlCmd_encodeCtrl]
    have h := decodeCtrl_reserved (encodeCtrl cmd ie) (hcmd ▸ hwf.1) (hcmd ▸ hwf.2)
    rwa [ctrlCmd_encodeCtrl, ctrlIe_encodeCtrl] at h
  | reservedPhase code =>
    simp only [Instr.wf, Instr.phaseReserved, decide_eq_true_eq] at hwf
    exact decodePhase_reserved code hwf
  | nop ie | decompress ie | loadTable ie | decode ie | abort ie => simp [encode, decode, decodeCtrl]
  | cont | last | reservedLength | hdr | tSym | tLen | tCode | tMark | pCheck | decodeStep | finish | idle => rfl

/-- Settles O2: each space is decoded by comparing with its fixed values, and what is left is a reserved row that
holds the value itself. -/
theorem encodingADecodedSelectorKeepsItsBits : Obligations.EncodingADecodedSelectorKeepsItsBits := by
  intro sel
  cases sel with
  | marker b =>
    by_cases h0 : b = 0x00#8
    · subst h0; exact ⟨rfl, rfl⟩
    by_cases hF : b = 0xFF#8
    · subst hF; exact ⟨rfl, rfl⟩
    simp only [decode]
    rw [decodeMarker_reserved b h0 hF]
    exact ⟨by simp [Instr.wf, Instr.markerReserved, h0, hF], rfl⟩
  | length b =>
    by_cases h0 : b = 0x00#8
    · subst h0; exact ⟨rfl, rfl⟩
    simp only [decode]
    rw [decodeLength_legal b h0]
    exact ⟨by simp [Instr.wf, Instr.lengthLegal, h0], rfl⟩
  | ctrl v => exact ⟨wf_decodeCtrl v, (encode_decodeCtrl v).trans (congrArg Selector.ctrl (encodeCtrl_ctrlCmd v))⟩
  | phase p =>
    have hwf : ∀ p : BitVec 4, (decodePhase p).wf = true := by decide
    exact ⟨hwf p, encode_decodePhase p⟩

/-- Settles O3: the written-out values, by evaluation of the decoder. -/
theorem writtenOutWordsDecode : Obligations.WrittenOutWordsDecode := by
  unfold Obligations.WrittenOutWordsDecode
  decide

end Sys2Proof.Machine

/-! ### What a step runs -/

namespace Sys2Proof.Machine

variable {s t : State}

/-- The engine has the turn: its event is the next one, or no event is left (log entry 1). -/
def State.EngineNext (s : State) : Prop := s.events = [] ∨ ∃ rest, s.events = .engine :: rest

/-- The engine's turn runs the instruction `phase` selects (rule R21). -/
theorem State.engineTurn_of_not_refused (hr : s.refused = none) : s.engineTurn = exec (decodePhase s.phase) s := by
  simp [State.engineTurn, State.engineInstr, hr]

theorem step_engine_nil (he : s.events = []) (hr : s.refused = none) : step s = exec (decodePhase s.phase) s := by
  rw [step, State.nextEvent_nil s he]
  exact State.engineTurn_of_not_refused hr

theorem step_engine_cons {rest : List Event} (he : s.events = .engine :: rest) (hr : s.refused = none) :
    step s = exec (decodePhase s.phase) { s with events := rest } := by
  rw [step, State.nextEvent_cons s _ _ he]
  exact State.engineTurn_of_not_refused (s := { s with events := rest }) hr

/-- Under the refusal mark the engine's turn stops (rule R49). -/
theorem step_engine_refused {r : RefuseReason} (he : s.EngineNext) (hr : s.refused = some r) :
    step s = .refused (.engineRefused r) := by
  rcases he with he | ⟨rest, he⟩
  · simp [step, State.nextEvent_nil s he, State.engineTurn, State.engineInstr, hr]
  · simp [step, State.nextEvent_cons s _ _ he, State.engineTurn, State.engineInstr, hr]

theorem step_reset {rest : List Event} (he : s.events = .reset :: rest) :
    step s = .next (State.resetEvent { s with events := rest }) := by
  rw [step, State.nextEvent_cons s _ _ he]

/-- CTRL alone stands at word address 1 (rule R34). -/
theorem csrAt_eq_ctrl_iff (w : BitVec 10) : csrAt w = .ctrl ↔ w = 1#10 := by
  refine ⟨fun h => ?_, fun h => by rw [h]; rfl⟩
  unfold csrAt at h
  split at h
  case h_2 hw => exact BitVec.eq_of_toNat_eq hw
  case h_18 => split at h <;> cases h
  all_goals cases h

/-- Only a write to CTRL runs a command (rule R35). -/
theorem commandWord_eq_some (h : HostAccess) (v : Word) : commandWord h = some v ↔ h = .csrWrite 1#10 v := by
  cases h with
  | csrWrite w u =>
    by_cases hw : csrAt w = .ctrl
    · obtain rfl := (csrAt_eq_ctrl_iff w).1 hw
      simp [commandWord, hw]
    · have hne : w ≠ 1#10 := fun h => hw ((csrAt_eq_ctrl_iff w).2 h)
      simp [commandWord, hw, hne]
  | csrRead _ | inRead _ | inWrite _ _ | outRead _ | outWrite _ _ => simp [commandWord]

/-- A CTRL write runs the command its word decodes to (rules R35, R110). -/
theorem step_ctrlWrite {rest : List Event} {v : Word} (he : s.events = .host (.csrWrite 1#10 v) :: rest) :
    step s = exec (decodeCtrl v) { s with events := rest } := by
  rw [step, State.nextEvent_cons s _ _ he]
  rfl

/-- A write to any CSR but CTRL is the ports' alone. -/
theorem step_csrWrite {rest : List Event} {w : BitVec 10} {v : Word} (he : s.events = .host (.csrWrite w v) :: rest)
    (hw : csrAt w ≠ .ctrl) : step s = .next (State.csrWrite { s with events := rest } v (csrAt w)) :=
  step_access s _ rest he (by simp [commandWord, hw])

/-- What a step that answers a next state did, by the event it took. -/
theorem step_next_cases (h : step s = .next t) :
    (s.EngineNext ∧ s.refused = none ∧ ∃ evs, exec (decodePhase s.phase) { s with events := evs } = .next t)
    ∨ ∃ rest, (s.events = .reset :: rest ∧ t = State.resetEvent { s with events := rest })
      ∨ (∃ v, s.events = .host (.csrWrite 1#10 v) :: rest ∧ exec (decodeCtrl v) { s with events := rest } = .next t)
      ∨ ∃ a, s.events = .host a :: rest ∧ commandWord a = none ∧ t = State.access { s with events := rest } a := by
  have turn : s.EngineNext → s.EngineNext ∧ s.refused = none
      ∧ ∃ evs, exec (decodePhase s.phase) { s with events := evs } = .next t := by
    intro hn
    by_cases hr : s.refused = none
    · rcases id hn with he | ⟨rest, he⟩
      · exact ⟨hn, hr, [], by rw [← h, step_engine_nil he hr, ← he]⟩
      · exact ⟨hn, hr, rest, (step_engine_cons he hr).symm.trans h⟩
    · obtain ⟨r, hr⟩ := Option.ne_none_iff_exists'.1 hr
      exact absurd ((step_engine_refused hn hr).symm.trans h) nofun
  cases he : s.events with
  | nil => exact .inl (turn (.inl he))
  | cons ev rest =>
    cases ev with
    | engine => exact .inl (turn (.inr ⟨rest, he⟩))
    | reset =>
      rw [step_reset he] at h
      cases h
      exact .inr ⟨rest, .inl ⟨rfl, rfl⟩⟩
    | host a =>
      cases hc : commandWord a with
      | some v =>
        obtain rfl := (commandWord_eq_some a v).1 hc
        exact .inr ⟨rest, .inr (.inl ⟨v, rfl, (step_ctrlWrite he).symm.trans h⟩)⟩
      | none =>
        rw [step_access s a rest he hc] at h
        cases h
        exact .inr ⟨rest, .inr (.inr ⟨a, rfl, hc, rfl⟩)⟩

/-! #### The container field -/

/-- A field inside IN_LEN, each of whose bytes was written, is handed to the step (rules R80, R7). -/
theorem State.containerField_bytes {n : Nat} {trunc : ErrKind} {k : List Byte → Result} {bytes : List Byte}
    (hn : bytes.length = n) (hin : s.pos.toNat + n ≤ s.inLen.toNat)
    (hb : ∀ i, i < n → s.inbuf.read (s.pos.toNat + i) = some (bytes.getD i 0)) :
    s.containerField n trunc k = k bytes := by
  have hread := (s.memReadIn_eq_some n s.pos.toNat bytes).2 ⟨hn, hb⟩
  rcases s.containerField_cases n trunc k with ⟨hout, -⟩ | ⟨-, hnone, -⟩ | ⟨bs, -, hsome, e⟩
  · omega
  · cases hread.symm.trans hnone
  · cases hread.symm.trans hsome
    exact e

/-- The one-byte field of T_SYM, T_LEN and T_MARK. -/
theorem State.containerField_byte {trunc : ErrKind} {k : List Byte → Result} {b : Byte}
    (hin : s.pos.toNat + 1 ≤ s.inLen.toNat) (hb : s.inbuf.read s.pos.toNat = some b) :
    s.containerField 1 trunc k = k [b] :=
  State.containerField_bytes rfl hin fun i hi => by
    obtain rfl : i = 0 := by omega
    exact hb

/-- A field that runs past IN_LEN raises the phase's truncation error (rule R80). -/
theorem State.containerField_short {n : Nat} {trunc : ErrKind} {k : List Byte → Result}
    (h : s.inLen.toNat < s.pos.toNat + n) : s.containerField n trunc k = .next (s.raise trunc) := by
  rcases s.containerField_cases n trunc k with ⟨-, e⟩ | ⟨hin, -⟩ | ⟨-, hin, -⟩
  · exact e
  · omega
  · omega

/-- The T_MARK step runs the instruction of the marker it reads (rules R105, R139). -/
theorem execTMark_eq {m : Byte} (hin : s.pos.toNat + 1 ≤ s.inLen.toNat) (hm : s.inbuf.read s.pos.toNat = some m) :
    execTMark s = exec (decodeMarker m) s := by
  rw [execTMark, State.containerField_byte hin hm, decodeMarker]
  change (if m = _ then _ else if m = _ then _ else _) = _
  by_cases h0 : m = 0x00#8
  · rw [if_pos h0, if_pos h0]; rfl
  by_cases hF : m = 0xFF#8
  · rw [if_neg h0, if_neg h0, if_pos hF, if_pos hF]; rfl
  · rw [if_neg h0, if_neg h0, if_neg hF, if_neg hF]; rfl

/-- The T_LEN step runs the instruction of the length byte it reads (rules R106, R137). -/
theorem execTLen_eq {len : Byte} (hin : s.pos.toNat + 1 ≤ s.inLen.toNat)
    (hl : s.inbuf.read s.pos.toNat = some len) : execTLen s = exec (decodeLength len) s := by
  rw [execTLen, State.containerField_byte hin hl, decodeLength]
  change (if len = _ then _ else _) = _
  by_cases h0 : len = 0x00#8
  · rw [if_pos h0, if_pos h0]; rfl
  · rw [if_neg h0, if_neg h0]; rfl

/-- Settles O4: the turn, the write and the two byte reads, one lemma each. -/
theorem stepRunsTheDecodedInstruction : Obligations.StepRunsTheDecodedInstruction :=
  ⟨fun _ hr he => step_engine_nil he hr, fun _ _ hr he => step_engine_cons he hr, fun _ _ _ he => step_ctrlWrite he,
    fun _ _ hin hm => execTMark_eq hin hm, fun _ _ hin hl => execTLen_eq hin hl⟩

/-! #### Placed selectors -/

/-- A placed byte stands at `pos`, inside IN_LEN. -/
theorem State.placeByte_reads (s : State) (p : BitVec 4) (b : Byte) :
    (s.placeByte p b).pos.toNat + 1 ≤ (s.placeByte p b).inLen.toNat
      ∧ (s.placeByte p b).inbuf.read (s.placeByte p b).pos.toNat = some b := by
  refine ⟨?_, Memory.read_write_self _ _ _⟩
  simp only [State.placeByte]
  by_cases h0 : s.inLen = 0
  · simp [h0]
  · have hpos : 0 < s.inLen.toNat := Nat.pos_of_ne_zero fun h => h0 (BitVec.eq_of_toNat_eq h)
    rw [if_neg h0]
    split
    · omega
    · simpa using Nat.succ_le_of_lt hpos

/-- The placed selector is the one the next step decodes, in each of the four spaces. -/
theorem step_placeSelector (sel : Selector) (hr : s.refused = none) :
    step (s.placeSelector sel) = exec (decode sel) { s.placeSelector sel with events := s.events } := by
  cases sel with
  | ctrl v => exact step_ctrlWrite rfl
  | phase p => exact step_engine_cons rfl hr
  | marker b =>
    obtain ⟨hin, hread⟩ := s.placeByte_reads Phase.tMark b
    exact (step_engine_cons (s := s.placeByte Phase.tMark b) rfl hr).trans
      (execTMark_eq (s := { s.placeByte Phase.tMark b with events := s.events }) hin hread)
  | length b =>
    obtain ⟨hin, hread⟩ := s.placeByte_reads Phase.tLen b
    exact (step_engine_cons (s := s.placeByte Phase.tLen b) rfl hr).trans
      (execTLen_eq (s := { s.placeByte Phase.tLen b with events := s.events }) hin hread)

/-- Settles O5: `withFetchWord` places the selector that `decodeTableWord` decodes. -/
theorem placedTableWordRunsNext : Obligations.PlacedTableWordRunsNext := by
  intro s nbits w i hr hi
  obtain ⟨sel, hsel, rfl⟩ := Option.map_eq_some_iff.1 hi
  have hplace : s.withFetchWord nbits w = s.placeSelector sel := by simp [State.withFetchWord, hsel]
  rw [hplace]
  exact step_placeSelector sel hr

end Sys2Proof.Machine

/-! ### The container framer -/

namespace Sys2Proof.Machine

variable {s : State}

/-- `pos` does not wrap over a field inside IN_LEN (log entry 16). -/
theorem State.toNat_pos_add {n : Nat} (h : s.pos.toNat + n ≤ s.inLen.toNat) :
    (s.pos + BitVec.ofNat 32 n).toNat = s.pos.toNat + n := by
  have := s.inLen.isLt
  rw [BitVec.toNat_add_of_lt] <;> simp only [BitVec.toNat_ofNat] <;> omega

/-- The header loaded (rule R160). -/
def State.headerRead (s : State) (b : Word) : State := { s with bitlen := b, pos := s.pos + 4, phase := Phase.tSym }

/-- The payload placed, the cursor at its first bit and the accumulator empty (rule R162). -/
def State.payloadPlaced (s : State) : State :=
  { s with
    paybase := s.pos, pos := s.pos + BitVec.ofNat 32 (ceil8 s.bitlen.toNat), cursor := 0, accLen := 0, accOvf := false
    phase := if s.bitlen = 0 then Phase.finish else Phase.decode }

/-- A payload of no bits is at its end at once (rule R162). -/
theorem State.payloadPlaced_phase (s : State) :
    (s.bitlen = 0#32 → s.payloadPlaced.phase = 0x8#4) ∧ (s.bitlen ≠ 0#32 → s.payloadPlaced.phase = 0x7#4) :=
  ⟨fun h => if_pos h, fun h => if_neg h⟩

/-- HDR over a present header (rule R160). -/
theorem execHdr_bytes {h0 h1 h2 h3 : Byte} (hin : s.pos.toNat + 4 ≤ s.inLen.toNat)
    (r0 : s.inbuf.read s.pos.toNat = some h0) (r1 : s.inbuf.read (s.pos.toNat + 1) = some h1)
    (r2 : s.inbuf.read (s.pos.toNat + 2) = some h2) (r3 : s.inbuf.read (s.pos.toNat + 3) = some h3) :
    execHdr s = .next (s.headerRead (be32 h0 h1 h2 h3)) := by
  refine State.containerField_bytes (bytes := [h0, h1, h2, h3]) rfl hin fun i hi => ?_
  match i with
  | 0 => exact r0
  | 1 => exact r1
  | 2 => exact r2
  | 3 => exact r3
  | n + 4 => omega

/-- P_CHECK over a present payload (rule R162). -/
theorem execPCheck_present (hin : s.pos.toNat + ceil8 s.bitlen.toNat ≤ s.inLen.toNat) :
    execPCheck s = .next s.payloadPlaced := by
  simp [execPCheck, State.inRange, hin, State.payloadPlaced]

/-- P_CHECK over a payload that runs past IN_LEN (rule R162). -/
theorem execPCheck_short (h : s.inLen.toNat < s.pos.toNat + ceil8 s.bitlen.toNat) :
    execPCheck s = .next (s.raise .truncPayload) := by
  simp [execPCheck, State.inRange, Nat.not_le.2 h]

/-- Settles O6: the range check decides between the loaded header and the error entry. -/
theorem hdrLoadsTheBigEndianHeader : Obligations.HdrLoadsTheBigEndianHeader := by
  refine ⟨fun s h0 h1 h2 h3 hin r0 r1 r2 r3 => ?_, fun s h => State.containerField_short h⟩
  exact ⟨_, execHdr_bytes hin r0 r1 r2 r3, toNat_be32 h0 h1 h2 h3, State.toNat_pos_add hin, rfl, rfl⟩

/-- Settles O7: the range check decides between the placed payload and the error entry; no byte is read. -/
theorem pCheckPlacesThePayload : Obligations.PCheckPlacesThePayload := by
  refine ⟨fun s hin => ?_, fun s h => execPCheck_short h⟩
  obtain ⟨hzero, hmore⟩ := s.payloadPlaced_phase
  exact ⟨_, execPCheck_present hin, rfl, State.toNat_pos_add hin, rfl, rfl, rfl, hzero, hmore, rfl⟩

end Sys2Proof.Machine

/-! ### The table codec -/

namespace Sys2Proof.Machine

variable {s : State}

/-- The open entry written, `pos` advanced by d and the phase set: what T_SYM, T_LEN and T_CODE do
(rules R136 to R138). -/
def State.stored (s : State) (e : Entry) (d : Word) (p : BitVec 4) : State :=
  { s with ent := s.ent.write s.tblCount.toNat e, pos := s.pos + d, phase := p }

@[simp] theorem State.stored_entry_open (s : State) (e : Entry) (d : Word) (p : BitVec 4) :
    (s.stored e d p).entry s.tblCount.toNat = e :=
  (s.entry_write _ _ e).trans (if_pos rfl)

theorem State.stored_entry_ne (s : State) (e : Entry) (d : Word) (p : BitVec 4) {i : Nat} (hi : i ≠ s.tblCount.toNat) :
    (s.stored e d p).entry i = s.entry i :=
  (s.entry_write _ _ e).trans (if_neg hi)

/-- The store goes on below 256 entries. -/
theorem State.storeEntry_stored (hc : s.tblCount.toNat < 256) (e : Entry) (d : Word) (p : BitVec 4) :
    s.storeEntry e (fun t => { t with pos := t.pos + d, phase := p }) = .next (s.stored e d p) :=
  if_pos hc

/-- T_SYM over a present byte (rule R136). -/
theorem execTSym_byte {b : Byte} (hc : s.tblCount.toNat < 256) (hin : s.pos.toNat + 1 ≤ s.inLen.toNat)
    (hb : s.inbuf.read s.pos.toNat = some b) :
    execTSym s = .next (s.stored { s.openEntry with sym := b } 1 Phase.tLen) :=
  (State.containerField_byte hin hb).trans (State.storeEntry_stored hc _ 1 Phase.tLen)

/-- T_LEN with a legal length read (rule R137). -/
theorem execCodeLength_stored (hc : s.tblCount.toNat < 256) (len : Byte) :
    execCodeLength len s = .next (s.stored { s.openEntry with len := len } 1 Phase.tCode) :=
  State.storeEntry_stored hc _ 1 Phase.tCode

/-- T_LEN over a present length other than 0 (rule R137). -/
theorem execTLen_byte {len : Byte} (hc : s.tblCount.toNat < 256) (hin : s.pos.toNat + 1 ≤ s.inLen.toNat)
    (hl : s.inbuf.read s.pos.toNat = some len) (h0 : len.toNat ≠ 0) :
    execTLen s = .next (s.stored { s.openEntry with len := len } 1 Phase.tCode) := by
  rw [execTLen_eq hin hl, decodeLength_legal len (fun h => h0 (by rw [h]; rfl))]
  exact execCodeLength_stored hc len

/-- T_CODE over a present code field (rule R138). -/
theorem execTCode_bytes {bytes : List Byte} (hc : s.tblCount.toNat < 256)
    (hn : bytes.length = ceil8 s.openEntry.len.toNat)
    (hin : s.pos.toNat + bytes.length ≤ s.inLen.toNat)
    (hb : ∀ i, i < bytes.length → s.inbuf.read (s.pos.toNat + i) = some (bytes.getD i 0)) :
    execTCode s = .next (s.stored { s.openEntry with code := unpackCode s.openEntry.len.toNat bytes }
      (BitVec.ofNat 32 bytes.length) Phase.tMark) := by
  rw [execTCode, ← hn]
  exact (State.containerField_bytes rfl hin hb).trans (State.storeEntry_stored hc _ _ Phase.tMark)

/-- Settles O8: below 256 entries the symbol byte read goes to the open entry. -/
theorem tSymStoresTheSymbol : Obligations.TSymStoresTheSymbol := by
  refine ⟨fun s b hc hin hb => ?_, fun s h => State.containerField_short h⟩
  refine ⟨_, execTSym_byte hc hin hb, ?_, ?_, ?_, fun i hi => s.stored_entry_ne _ _ _ hi, State.toNat_pos_add hin,
    rfl, rfl⟩ <;> rw [State.stored_entry_open] <;> rfl

/-- The row CODE_LENGTH writes the open entry's length and keeps its other fields. -/
theorem exec_codeLength_acts (hc : s.tblCount.toNat < 256) (len : Byte) :
    ∃ t, exec (.codeLength len) s = .next t
      ∧ (t.entry s.tblCount.toNat).len = len
      ∧ (t.entry s.tblCount.toNat).sym = (s.entry s.tblCount.toNat).sym
      ∧ (t.entry s.tblCount.toNat).code = (s.entry s.tblCount.toNat).code
      ∧ (∀ i, i ≠ s.tblCount.toNat → t.entry i = s.entry i)
      ∧ t.pos = s.pos + 1#32 ∧ t.phase = 0x4#4
      ∧ t = { s with ent := t.ent, pos := t.pos, phase := t.phase } := by
  refine ⟨_, execCodeLength_stored hc len, ?_, ?_, ?_, fun i hi => s.stored_entry_ne _ _ _ hi, rfl, rfl, rfl⟩
  all_goals rw [State.stored_entry_open]
  all_goals rfl

/-- Settles O10: the two rows of the code-length selector. -/
theorem codeLengthByteActs : Obligations.CodeLengthByteActs :=
  ⟨fun _ len _ hc => exec_codeLength_acts hc len, fun _ => rfl⟩

/-- Settles O9: the truncation check, then the row of the length byte, whose effect on the entry is O10's. -/
theorem tLenChecksAndStoresTheLength : Obligations.TLenChecksAndStoresTheLength := by
  refine ⟨fun s b hc hin hb h0 => ?_, fun s hin hb => execTLen_eq hin hb, fun s h => State.containerField_short h⟩
  obtain ⟨t, e, hlen, hsym, hcode, hent, hpos, hphase, hframe⟩ := exec_codeLength_acts hc b
  have hrow : exec .tLen s = exec (.codeLength b) s :=
    (execTLen_byte hc hin hb h0).trans (execCodeLength_stored hc b).symm
  refine ⟨t, hrow.trans e, hlen, hsym, hcode, hent, ?_, hphase, hframe⟩
  rw [hpos]
  exact State.toNat_pos_add hin

/-- Bit j of a packed run is bit `7 − (j mod 8)` of byte `j / 8` (rules R76, R77). -/
theorem packedBit_map_range (byte : Nat → Byte) {n j : Nat} (hj : j < 8 * n) :
    packedBit ((List.range n).map byte) j = (byte (j / 8)).getLsbD (7 - j % 8) := by
  have hlt : j / 8 < n := by omega
  simp [packedBit, byteAt, msbFirst, hlt]

/-- Settles O11: the field's bytes are read in one step and unpacked bit by bit. -/
theorem tCodeUnpacksTheCodeBits : Obligations.TCodeUnpacksTheCodeBits := by
  refine ⟨fun s len byte hc hlen hin hb => ?_, fun s h => State.containerField_short h⟩
  have hopen : s.openEntry.len.toNat = len := hlen
  have hn : ((List.range ((len + 7) / 8)).map byte).length = (len + 7) / 8 := by simp
  have e := execTCode_bytes (bytes := (List.range ((len + 7) / 8)).map byte) hc (by rw [hn, hopen]; rfl)
    (by rwa [hn]) fun i hi => by
      rw [hn] at hi
      simpa [hi] using hb i hi
  rw [hn] at e
  refine ⟨_, e, fun j hj => ?_, ?_, ?_, fun i hi => s.stored_entry_ne _ _ _ hi, State.toNat_pos_add hin, rfl, rfl⟩
  · rw [State.stored_entry_open, hopen, getLsbD_unpackCode _ _ _ hj]
    by_cases h : j < len
    · simp [h, packedBit_map_range byte (show j < 8 * ((len + 7) / 8) by omega)]
    · simp [h]
  all_goals rw [State.stored_entry_open]
  all_goals rfl

/-! #### Markers -/

/-- The commit does not wrap below 256 entries. -/
theorem State.toNat_commitEntry_tblCount (hc : s.tblCount.toNat < 256) :
    s.commitEntry.tblCount.toNat = s.tblCount.toNat + 1 := by
  show (s.tblCount + 1).toNat = _
  bv_omega

/-- CONT before the 256th entry (rule R139). -/
theorem execCont_tSym (hc : s.tblCount.toNat < 255) :
    execCont s = .next { s.commitEntry with phase := Phase.tSym } := by
  refine if_neg fun h => ?_
  have hcount := State.toNat_commitEntry_tblCount (s := s) (by omega)
  rw [h] at hcount
  have : (256#9).toNat = 256 := rfl
  omega

/-- CONT on the 256th entry (rule R139). -/
theorem execCont_overflow (hc : s.tblCount.toNat = 255) :
    execCont s = .next (s.commitEntry.raise .tableOverflow) := by
  refine if_pos (BitVec.eq_of_toNat_eq ?_)
  rw [State.toNat_commitEntry_tblCount (by omega), hc]
  rfl

/-- The table ended: the open entry committed, the table valid and its prefix-freeness recorded (rules R139, R49). -/
def State.tableEnded (s : State) : State :=
  { s.commitEntry with tblValid := true, tblPf := s.commitEntry.prefixFree s.commitEntry.tblCount.toNat }

/-- LAST of a DECOMPRESS goes on to the payload (rule R139). -/
theorem execLast_payload (hop : s.op = 1#2) : execLast s = .next { s.tableEnded with phase := Phase.pCheck } :=
  if_pos hop

/-- LAST of any other operation completes it (rule R139; log entry 18). -/
theorem execLast_complete (hop : s.op ≠ 1#2) : execLast s = .next s.tableEnded.complete := if_neg hop

/-- Settles O13: after the commit the count decides between the next entry and TABLE_OVERFLOW. -/
theorem contCommitsAndContinues : Obligations.ContCommitsAndContinues := by
  intro s hc
  have hcount := State.toNat_commitEntry_tblCount hc
  by_cases h : s.tblCount.toNat = 255
  · exact ⟨_, execCont_overflow h, hcount, rfl, fun _ => ⟨rfl, rfl, rfl, rfl⟩, fun h' => by omega, rfl⟩
  · exact ⟨_, execCont_tSym (by omega), hcount, rfl, fun h' => absurd h' h, fun _ => ⟨rfl, rfl, rfl, rfl⟩, rfl⟩

/-- PrefixFree, bit by bit (rule R180). -/
theorem State.prefixFree_iff_bits (s : State) (n : Nat) :
    s.prefixFree n = true ↔ ∀ i j, i < n → j < n → i ≠ j →
      ¬((s.entry i).len.toNat ≤ (s.entry j).len.toNat
        ∧ ∀ b, b < (s.entry i).len.toNat → (s.entry i).code.getLsbD b = (s.entry j).code.getLsbD b) := by
  simp only [State.prefixFree_iff, ← Entry.isPrefix_iff, Bool.not_eq_true]
  exact ⟨fun h i j hi hj => h i hi j hj, fun h i hi j hj => h i j hi hj⟩

/-- Settles O14: the operation decides what follows the ended table. -/
theorem lastEndsTheTable : Obligations.LastEndsTheTable := by
  intro s hc hop
  have hcount := State.toNat_commitEntry_tblCount hc
  have hpf := State.prefixFree_iff_bits s.commitEntry s.commitEntry.tblCount.toNat
  rcases hop with hop | hop
  · exact ⟨_, execLast_payload hop, hcount, rfl, rfl, hpf, fun _ => ⟨rfl, rfl⟩, fun h => by simp [hop] at h, rfl⟩
  · exact ⟨_, execLast_complete (by simp [hop]), hcount, rfl, rfl, hpf, fun h => by simp [hop] at h,
      fun _ => ⟨rfl, rfl⟩, rfl⟩

/-- A marker of rule R105's reserved range decodes to the reserved row. -/
theorem decodeMarker_of_range {m : Byte} (hlo : 1 ≤ m.toNat) (hhi : m.toNat ≤ 254) :
    decodeMarker m = .reservedMarker m :=
  decodeMarker_reserved m (by rintro rfl; simp at hlo) (by rintro rfl; simp at hhi)

/-- Settles O15: a marker of the range is neither of the two values with a row of their own. -/
theorem reservedMarkerRaisesBadMarker : Obligations.ReservedMarkerRaisesBadMarker :=
  fun _ _ hlo hhi => ⟨decodeMarker_of_range hlo hhi, rfl⟩

/-- Settles O12: the truncation check, then the row of the marker read. -/
theorem tMarkReadsTheMarker : Obligations.TMarkReadsTheMarker := by
  refine ⟨fun s h => State.containerField_short h, fun s m hin hm hlo hhi => ?_, fun s m hc hin hm hmark => ?_⟩
  · exact (execTMark_eq hin hm).trans (by rw [decodeMarker_of_range hlo hhi]; rfl)
  have hcount := State.toNat_commitEntry_tblCount hc
  have hpos := State.toNat_pos_add hin
  have hrow : exec .tMark s = exec (decodeMarker m) s := execTMark_eq hin hm
  rcases hmark with h | h
  · obtain rfl : m = 0x00#8 := BitVec.eq_of_toNat_eq h
    by_cases hfull : s.tblCount.toNat = 255
    · exact ⟨_, hrow.trans (execCont_overflow hfull), hcount, hpos, rfl, nofun, fun _ => rfl⟩
    · exact ⟨_, hrow.trans (execCont_tSym (by omega)), hcount, hpos, rfl, nofun, fun _ => rfl⟩
  · obtain rfl : m = 0xFF#8 := BitVec.eq_of_toNat_eq h
    by_cases hop : s.op = 1#2
    · exact ⟨_, hrow.trans (execLast_payload hop), hcount, hpos, rfl, fun _ => rfl, nofun⟩
    · exact ⟨_, hrow.trans (execLast_complete hop), hcount, hpos, rfl, fun _ => rfl, nofun⟩

end Sys2Proof.Machine

/-! ### The decode engine -/

namespace Sys2Proof.Machine

variable {s : State}

/-- The phase after a decoded bit: FINISH at the last one (rule R184). -/
def State.endPhase (s : State) : BitVec 4 := if s.cursor = s.bitlen then Phase.finish else s.phase

/-- The end of a DECODE step writes the phase alone. -/
theorem State.endOfPayload_eq (s : State) : s.endOfPayload = { s with phase := s.endPhase } := by
  unfold State.endOfPayload State.endPhase
  split <;> rfl

/-- The cursor does not wrap below the bit length (log entry 16). -/
theorem State.toNat_cursor_succ (h : s.cursor.toNat < s.bitlen.toNat) : (s.cursor + 1).toNat = s.cursor.toNat + 1 := by
  bv_omega

/-- The phase once the cursor has passed the bit it stood at. -/
theorem State.endPhase_next (h : s.cursor.toNat < s.bitlen.toNat) (t : State) (hc : t.cursor = s.cursor + 1)
    (hb : t.bitlen = s.bitlen) (hp : t.phase = s.phase) :
    (s.cursor.toNat + 1 = s.bitlen.toNat → t.endPhase = 0x8#4)
      ∧ (s.cursor.toNat + 1 ≠ s.bitlen.toNat → t.endPhase = s.phase) := by
  have hsucc := State.toNat_cursor_succ h
  unfold State.endPhase
  rw [hc, hb, hp]
  refine ⟨fun he => if_pos (BitVec.eq_of_toNat_eq (hsucc.trans he)), fun hne => if_neg fun he => hne ?_⟩
  rw [← hsucc, he]

/-- A DECODE step over a written payload byte decodes the bit at the cursor (rules R181, R184). -/
theorem execDecodeStep_bit {b : Byte} (hpf : s.tblPf = true)
    (hb : s.inbuf.read (s.paybase.toNat + s.cursor.toNat / 8) = some b) :
    execDecodeStep s = s.decodeBit (b.getLsbD (7 - s.cursor.toNat % 8)) := by
  have hbit : s.payloadBit s.cursor.toNat = some (b.getLsbD (7 - s.cursor.toNat % 8)) := by
    simp [State.payloadBit, hb, msbFirst]
  rcases execDecodeStep_cases s with ⟨hnpf, -⟩ | ⟨-, hnone, -⟩ | ⟨b', -, hsome, e⟩
  · cases hpf.symm.trans hnpf
  · cases hbit.symm.trans hnone
  · cases hbit.symm.trans hsome
    exact e

theorem State.accHasRoom_iff (s : State) : s.accHasRoom = true ↔ s.accOvf = false ∧ s.accLen.toNat < 255 := by
  simp [State.accHasRoom]

/-- The bit stored at the accumulator's end, the cursor past it (rules R182, R184). -/
def State.bitStored (s : State) (b : Bool) : State :=
  { s with cursor := s.cursor + 1, acc := setBit s.acc s.accLen.toNat b, accLen := s.accLen + 1 }

theorem State.withBit_eq_bitStored (b : Bool) (h : s.accHasRoom = true) : s.withBit b = s.bitStored b :=
  (s.withBit_room b h).2.2

/-- What the accumulator holds once a bit is stored: one bit more, the old ones unchanged (rule R182). -/
theorem State.bitStored_acc (b : Bool) (h : s.accLen.toNat < 255) :
    (s.bitStored b).accLen.toNat = s.accLen.toNat + 1
      ∧ (∀ j, j < s.accLen.toNat → (s.bitStored b).acc.getLsbD j = s.acc.getLsbD j)
      ∧ (s.bitStored b).acc.getLsbD s.accLen.toNat = b := by
  refine ⟨?_, fun j hj => ?_, ?_⟩
  · show (s.accLen + 1).toNat = _
    bv_omega
  · simp [State.bitStored, Nat.ne_of_lt hj]
  · rw [State.bitStored, getLsbD_setBit]
    simp [h]

/-- Entry k is one bit longer than the accumulator and equal to it with bit b appended. -/
def State.EntryIsAccThen (s : State) (k : Nat) (b : Bool) : Prop :=
  (s.entry k).len.toNat = s.accLen.toNat + 1
    ∧ (∀ j, j < s.accLen.toNat → (s.entry k).code.getLsbD j = s.acc.getLsbD j)
    ∧ (s.entry k).code.getLsbD s.accLen.toNat = b

/-- The match after a stored bit (rule R183). -/
theorem State.bitStored_matchesEntry_iff (h : s.accHasRoom = true) (k : Nat) (b : Bool) :
    (s.bitStored b).matchesEntry k = true ↔ s.EntryIsAccThen k b := by
  obtain ⟨hovf, hlen⟩ := s.accHasRoom_iff.1 h
  obtain ⟨hlen', hold, hnew⟩ := State.bitStored_acc b hlen
  have hent : (s.bitStored b).entry k = s.entry k := rfl
  rw [State.matchesEntry_iff, hlen', hent, ← BitVec.toNat_inj, hlen']
  constructor
  · rintro ⟨-, hl, hbits⟩
    exact ⟨hl, fun j hj => (hbits j (by omega)).trans (hold j hj), (hbits _ (by omega)).trans hnew⟩
  · rintro ⟨hl, hbits, hlast⟩
    refine ⟨hovf, hl, fun j hj => ?_⟩
    rcases Nat.lt_succ_iff_lt_or_eq.1 hj with hj | rfl
    · exact (hbits j hj).trans (hold j hj).symm
    · exact hlast.trans hnew.symm

/-- Two entries that match one accumulator are prefixes of each other (rules R180, R183). -/
theorem State.matchSet_unique (hpf : s.prefixFree s.tblCount.toNat = true) {i j : Nat} (hi : i ∈ s.matchSet)
    (hj : j ∈ s.matchSet) : i = j := by
  obtain ⟨hilt, hi⟩ := (s.mem_matchSet i).1 hi
  obtain ⟨hjlt, hj⟩ := (s.mem_matchSet j).1 hj
  obtain ⟨-, hilen, hibits⟩ := (s.matchesEntry_iff i).1 hi
  obtain ⟨-, hjlen, hjbits⟩ := (s.matchesEntry_iff j).1 hj
  by_contra hne
  refine (s.prefixFree_iff_bits _).1 hpf i j hilt hjlt hne ⟨by rw [hilen, hjlen], fun b hb => ?_⟩
  rw [hilen] at hb
  exact (hibits b hb).trans (hjbits b hb).symm

/-- Settles O21: the match set lists no index twice, and any two it lists are equal. -/
theorem greedyMatchIsUnique : Obligations.GreedyMatchIsUnique := by
  intro s hpf
  have hnodup : s.matchSet.Nodup := List.nodup_range.filter _
  match hm : s.matchSet with
  | [] => simp
  | [_] => simp
  | a :: b :: rest =>
    have hab : a = b := State.matchSet_unique hpf (by simp [hm]) (by simp [hm])
    simp [hm, hab] at hnodup

/-- The bit stored, no entry matched: nothing is emitted (rule R184). -/
theorem State.decodeBit_kept {b : Bool} (h : s.accHasRoom = true)
    (hno : ∀ k, k < s.tblCount.toNat → ¬s.EntryIsAccThen k b) :
    s.decodeBit b = .next { s.bitStored b with phase := (s.bitStored b).endPhase } := by
  have hempty : (s.bitStored b).matchSet = [] := List.eq_nil_iff_forall_not_mem.2 fun k hk => by
    obtain ⟨hlt, hmatch⟩ := (State.mem_matchSet _ k).1 hk
    exact hno k hlt ((State.bitStored_matchesEntry_iff h k b).1 hmatch)
  rcases s.decodeBit_cases b with ⟨hfull, -⟩ | ⟨-, -, e⟩ | ⟨k, rest, -, hm, -⟩
  · cases h.symm.trans hfull
  · rw [e, State.withBit_eq_bitStored b h, State.endOfPayload_eq]
  · rw [State.withBit_eq_bitStored b h, hempty] at hm
    cases hm

/-- The bit stored, entry k matched: the symbol of the first match is emitted, which over a prefix-free table is
entry k (rules R184, R188). -/
theorem State.decodeBit_matched {b : Bool} {k : Nat} (h : s.accHasRoom = true) (hk : k < s.tblCount.toNat)
    (hmatch : s.EntryIsAccThen k b) :
    ∃ i, (s.prefixFree s.tblCount.toNat = true → i = k)
      ∧ s.decodeBit b = (s.bitStored b).emit (s.entry i).sym State.afterEmit := by
  have hmem : k ∈ (s.bitStored b).matchSet :=
    (State.mem_matchSet _ k).2 ⟨hk, (State.bitStored_matchesEntry_iff h k b).2 hmatch⟩
  rcases s.decodeBit_cases b with ⟨hfull, -⟩ | ⟨-, hm, -⟩ | ⟨i, rest, -, hm, e⟩
  · cases h.symm.trans hfull
  · rw [State.withBit_eq_bitStored b h] at hm
    rw [hm] at hmem
    cases hmem
  · rw [State.withBit_eq_bitStored b h] at hm e
    exact ⟨i, fun hpf => State.matchSet_unique (s := s.bitStored b) hpf (by simp [hm]) hmem, e⟩

/-- Settles O16: the new bit is stored, the match set is empty, and the payload goes on or ends. -/
theorem decodeStepAccumulates : Obligations.DecodeStepAccumulates := by
  intro s b hpf hcur hb hovf hlen hno
  have hstep := execDecodeStep_bit hpf hb
  generalize b.getLsbD (7 - s.cursor.toNat % 8) = bit at hno hstep ⊢
  obtain ⟨hlen', hold, hnew⟩ := State.bitStored_acc bit hlen
  obtain ⟨hlast, hmore⟩ := State.endPhase_next hcur (s.bitStored bit) rfl rfl rfl
  exact ⟨_, hstep.trans (State.decodeBit_kept (s.accHasRoom_iff.2 ⟨hovf, hlen⟩) hno), State.toNat_cursor_succ hcur,
    hlen', hold, hnew, hlast, hmore, rfl⟩

/-- An emit with room in the output (rule R185). -/
theorem State.emit_room (hlt : s.outLen.toNat < s.outCap.toNat) (v : Byte) (k : State → State) :
    s.emit v k = .next (k { s with outbuf := s.outbuf.write s.outLen.toNat v, outLen := s.outLen + 1 }) := by
  rcases s.emit_cases v k with ⟨heq, -⟩ | ⟨-, e⟩ | ⟨hgt, -⟩
  · rw [heq] at hlt; omega
  · exact e
  · omega

/-- Settles O17: over a prefix-free table the entry emitted is k, and the byte goes to `out_len`. -/
theorem decodeStepEmitsTheMatchedSymbol : Obligations.DecodeStepEmitsTheMatchedSymbol := by
  intro s b k hpf hfree hcur hb hovf hlen hk hklen hbits hbit hout
  have hstep := execDecodeStep_bit hpf hb
  generalize b.getLsbD (7 - s.cursor.toNat % 8) = bit at hbit hstep
  obtain ⟨i, hi, e⟩ := State.decodeBit_matched (s.accHasRoom_iff.2 ⟨hovf, hlen⟩) hk ⟨hklen, hbits, hbit⟩
  obtain rfl := hi hfree
  have hemit := State.emit_room (s := s.bitStored bit) hout (s.entry i).sym State.afterEmit
  rw [State.afterEmit, State.endOfPayload_eq] at hemit
  obtain ⟨hlast, hmore⟩ := State.endPhase_next hcur { s.bitStored bit with
    outbuf := s.outbuf.write s.outLen.toNat (s.entry i).sym, outLen := s.outLen + 1, accLen := 0 } rfl rfl rfl
  refine ⟨_, hstep.trans (e.trans hemit), Memory.read_write_self _ _ _,
    fun a ha => Memory.read_write_ne _ _ _ _ ha, ?_, State.toNat_cursor_succ hcur, rfl, hlast, hmore, rfl⟩
  show (s.outLen + 1).toNat = _
  bv_omega

/-- Settles O18: the accumulator still holds the matched code when the emit raises. -/
theorem decodeStepOverflowsAFullOutput : Obligations.DecodeStepOverflowsAFullOutput := by
  intro s b k hpf hcur hb hovf hlen hk hklen hbits hbit hout
  have hstep := execDecodeStep_bit hpf hb
  generalize b.getLsbD (7 - s.cursor.toNat % 8) = bit at hbit hstep
  have hroom := s.accHasRoom_iff.2 ⟨hovf, hlen⟩
  have hmatch : s.EntryIsAccThen k bit := ⟨hklen, hbits, hbit⟩
  obtain ⟨i, -, e⟩ := State.decodeBit_matched hroom hk hmatch
  have hfull : (s.bitStored bit).emit (s.entry i).sym State.afterEmit
      = .next ((s.bitStored bit).raise .outputOverflow) := if_pos hout
  obtain ⟨-, -, hacc⟩ := (State.matchesEntry_iff _ k).1 ((State.bitStored_matchesEntry_iff hroom k bit).2 hmatch)
  exact ⟨_, hstep.trans (e.trans hfull), State.toNat_cursor_succ hcur, (State.bitStored_acc bit hlen).1,
    fun j hj => (hacc j hj).symm, rfl⟩

/-- Settles O19: a bit without room is only counted. -/
theorem decodeStepPastTheLongestCode : Obligations.DecodeStepPastTheLongestCode := by
  intro s b hpf hcur hb hfull
  have hstep := execDecodeStep_bit hpf hb
  generalize b.getLsbD (7 - s.cursor.toNat % 8) = bit at hstep
  have hroom : s.accHasRoom = false := by
    rw [← Bool.not_eq_true, s.accHasRoom_iff]
    rintro ⟨hovf, hlt⟩
    rcases hfull with h | h
    · cases hovf.symm.trans h
    · omega
  have e : s.decodeBit bit = .next (State.endOfPayload { s with cursor := s.cursor + 1, accOvf := true }) := by
    rcases s.decodeBit_cases bit with ⟨-, e⟩ | ⟨h, -⟩ | ⟨_, _, h, -⟩
    · rw [e, s.withBit_full _ hroom]
    · cases hroom.symm.trans h
    · cases hroom.symm.trans h
  rw [State.endOfPayload_eq] at e
  obtain ⟨hlast, hmore⟩ := State.endPhase_next hcur { s with cursor := s.cursor + 1, accOvf := true } rfl rfl rfl
  exact ⟨_, hstep.trans e, State.toNat_cursor_succ hcur, rfl, hlast, hmore, rfl⟩

/-- Settles O20: the accumulator's length and overflow mark decide. -/
theorem finishAcceptsOnlyAnEmptyAccumulator : Obligations.FinishAcceptsOnlyAnEmptyAccumulator := by
  intro s
  have hzero : s.accLen = 0 ↔ s.accLen.toNat = 0 := BitVec.toNat_inj.symm
  refine ⟨fun ⟨h0, hovf⟩ => if_pos ⟨hzero.2 h0, hovf⟩, fun h => if_neg ?_⟩
  rintro ⟨h0, hovf⟩
  rcases h with h | h
  · exact h (hzero.1 h0)
  · cases hovf.symm.trans h

/-- Settles O22: in IDLE the phase selects the row that answers the state itself. -/
theorem idleTurnChangesNothing : Obligations.IdleTurnChangesNothing := by
  refine ⟨fun _ => rfl, fun s rest hp hr he => ?_⟩
  rw [step_engine_cons he hr, hp]
  rfl

/-- Settles O23: the reserved row holds the phase code it was decoded from. -/
theorem reservedPhaseStops : Obligations.ReservedPhaseStops :=
  fun _ p hp => ⟨decodePhase_reserved p hp, rfl⟩

/-- Settles O33: `tbl_pf` is the first thing a DECODE step looks at. -/
theorem nonPrefixFreeTableRefuses : Obligations.NonPrefixFreeTableRefuses := by
  intro s hpf
  rcases execDecodeStep_cases s with ⟨-, e⟩ | ⟨h, -⟩ | ⟨_, h, -⟩
  · exact e
  · cases hpf.symm.trans h
  · cases hpf.symm.trans h

end Sys2Proof.Machine

/-! ### The host commands while idle, and ABORT -/

namespace Sys2Proof.Machine

/-- Settles O25: while idle the command is its start. -/
theorem decompressStarts : Obligations.DecompressStarts :=
  fun s ie hidle => congrArg Host.Outcome.next (s.command_of_idle ie _ hidle)

/-- Settles O26: while idle the command is its start. -/
theorem loadTableStarts : Obligations.LoadTableStarts :=
  fun s ie hidle => congrArg Host.Outcome.next (s.command_of_idle ie _ hidle)

/-- Settles O27: the table's validity, which the command start keeps, decides. -/
theorem decodeCommandNeedsATable : Obligations.DecodeCommandNeedsATable := by
  refine ⟨fun s ie hidle hv => congrArg Host.Outcome.next ((s.command_of_idle ie _ hidle).trans (if_pos hv)),
    fun s ie hidle hv => congrArg Host.Outcome.next ((s.command_of_idle ie _ hidle).trans (if_neg ?_))⟩
  exact fun h => Bool.noConfusion (hv.symm.trans h)

/-- Settles O29: ABORT looks at BUSY, which IE does not change. -/
theorem abortStopsTheOperation : Obligations.AbortStopsTheOperation := by
  refine ⟨fun s ie hbusy => congrArg Host.Outcome.next (if_pos (s.busy_iff.2 hbusy)),
    fun s ie hidle => congrArg Host.Outcome.next (if_neg fun h => s.busy_iff.1 h hidle)⟩

/-! ### The refusal mark and the reset -/

theorem CommandFrame.refused_eq {s t : State} (h : CommandFrame s t) : t.refused = s.refused := by rw [h.1]

theorem AccessFrame.refused_eq {s t : State} (h : AccessFrame s t) : t.refused = s.refused := by rw [h.1]

/-- Settles O34: neither a command nor any other access writes the mark. -/
theorem refusalMarkIsSticky : Obligations.RefusalMarkIsSticky := by
  refine ⟨fun s r hr he => step_engine_refused he hr, fun s t a rest he h => ?_,
    fun s rest he => ⟨_, step_reset he, rfl⟩⟩
  cases hc : commandWord a with
  | some v =>
    obtain rfl := (commandWord_eq_some a v).1 hc
    obtain ⟨u, e, hu⟩ := command_frame { s with events := rest } v
    rw [step_ctrlWrite he, e] at h
    cases h
    exact hu.refused_eq
  | none =>
    rw [step_access s a rest he hc] at h
    cases h
    exact (State.access_frame { s with events := rest } a).refused_eq

/-- Settles O45: every register's reset value stands in the reset event, and `irq` is low with IE. -/
theorem resetEventClearsTheBlock : Obligations.ResetEventClearsTheBlock := by
  intro s rest he
  refine ⟨_, step_reset he, ?_⟩
  simp [State.irq]

end Sys2Proof.Machine

/-! ### The ports -/

namespace Sys2Proof.Machine

/-- A one-bit field at bit k of a CSR word. -/
theorem getLsbD_flagAt (b : Bool) (k p : Nat) (hp : p < 32) :
    ((BitVec.ofBool b).setWidth 32 <<< k).getLsbD p = (decide (p = k) && b) := by
  rw [BitVec.getLsbD_shiftLeft, BitVec.getLsbD_setWidth, BitVec.getLsbD_ofBool]
  by_cases hk : p = k
  · simp [hk]; omega
  · by_cases hlt : p < k
    · simp [hk, hlt]
    · simp [hk, show p - k ≠ 0 by omega]

/-- A field of w bits at bit k of a CSR word. -/
theorem getLsbD_fieldAt {w : Nat} (x : BitVec w) (k p : Nat) (hp : p < 32) :
    (x.setWidth 32 <<< k).getLsbD p = (decide (k ≤ p) && x.getLsbD (p - k)) := by
  rw [BitVec.getLsbD_shiftLeft, BitVec.getLsbD_setWidth]
  by_cases hk : k ≤ p
  · simp [hp, hk, show p - k < 32 by omega]
  · simp [hk, Nat.lt_of_not_le hk]

/-- Settles O36: each bit of STATUS lies in one field at most. -/
theorem statusReadsEachField : Obligations.StatusReadsEachField := by
  intro s p hp
  have hbusy : s.busy = decide (s.phase ≠ 0x0#4) := Bool.eq_iff_iff.2 (by simp [s.busy_iff])
  show s.statusWord.getLsbD p = _
  simp only [State.statusWord, BitVec.getLsbD_or, getLsbD_flagAt _ _ _ hp, getLsbD_fieldAt _ _ _ hp, hbusy]
  interval_cases p <;> simp

/-- Two fields side by side: the lower one's eight bits, and the rest above them. -/
theorem toNat_shiftLeft_or (hi lo : Word) (hhi : hi.toNat < 2 ^ 24) (hlo : lo.toNat < 2 ^ 8) :
    (hi <<< 8 ||| lo).toNat = hi.toNat * 256 + lo.toNat := by
  rw [BitVec.toNat_or, BitVec.toNat_shiftLeft, Nat.mod_eq_of_lt (by rw [Nat.shiftLeft_eq]; omega),
    ← Nat.shiftLeft_add_eq_or_of_lt hlo, Nat.shiftLeft_eq]

/-- A flag as a number. -/
theorem toNat_flag (b : Bool) : ((BitVec.ofBool b).setWidth 32).toNat = if b then 1 else 0 := by
  cases b <;> rfl

/-- Settles O37: the registers that hold one state element are that element; IE and the overflow mark stand at bit 8. -/
theorem csrMapReads : Obligations.CsrMapReads := by
  intro s
  refine ⟨rfl, ?_, ?_, rfl, rfl, rfl, rfl, rfl, ?_, rfl, rfl, ?_, ?_, rfl, rfl⟩
  · show ((BitVec.ofBool s.ie).setWidth 32 <<< 8).toNat = _
    cases s.ie <;> rfl
  · exact BitVec.toNat_setWidth_of_le (by decide)
  · show (s.accLen.setWidth 32 ||| (BitVec.ofBool s.accOvf).setWidth 32 <<< 8).toNat = _
    have hlen : (s.accLen.setWidth 32).toNat = s.accLen.toNat := BitVec.toNat_setWidth_of_le (by decide)
    have hlt := s.accLen.isLt
    rw [BitVec.or_comm, toNat_shiftLeft_or _ _ (by rw [toNat_flag]; split <;> decide) (by omega), hlen, toNat_flag]
    cases s.accOvf <;> simp [Nat.add_comm]
  · exact BitVec.toNat_setWidth_of_le (by decide)
  · exact BitVec.toNat_setWidth_of_le (by decide)

/-- The table readout's code words stand at word addresses 16 to 23 (rule R34). -/
theorem csrAt_tblCode : ∀ k, k < 8 → csrAt (BitVec.ofNat 10 (16 + k)) = .tblCode k := by decide

/-- Bit `31 − m` of TBL_CODEk is code bit `32k + m` (rule R48). -/
theorem Entry.getLsbD_codeWord (e : Entry) (k m : Nat) (hm : m < 32) :
    (e.codeWord k).getLsbD (31 - m) = e.code.getLsbD (32 * k + m) := by
  rw [Entry.codeWord, getLsbD_ofBits, show 31 - (31 - m) = m by omega]
  simp [show 31 - m < 32 by omega]

/-- Settles O38: whether the index is committed decides all nine registers. -/
theorem tableReadoutShowsCommittedEntries : Obligations.TableReadoutShowsCommittedEntries := by
  refine ⟨fun s h => ?_, fun s h => ?_⟩
  · have hcom : s.indexCommitted = true := by simpa [State.indexCommitted] using h
    refine ⟨?_, fun k m hk hm => ?_⟩
    · have hentry : s.csrValue .tblEntry
          = s.selectedEntry.len.setWidth 32 <<< 8 ||| s.selectedEntry.sym.setWidth 32 := if_pos hcom
      have hlen : (s.selectedEntry.len.setWidth 32).toNat = s.selectedEntry.len.toNat :=
        BitVec.toNat_setWidth_of_le (by decide)
      have hsym : (s.selectedEntry.sym.setWidth 32).toNat = s.selectedEntry.sym.toNat :=
        BitVec.toNat_setWidth_of_le (by decide)
      have := s.selectedEntry.len.isLt
      have := s.selectedEntry.sym.isLt
      show (s.csrValue .tblEntry).toNat = _
      rw [hentry, toNat_shiftLeft_or _ _ (by omega) (by omega), hlen, hsym]
      rfl
    · rw [csrAt_tblCode k hk]
      have hcode : s.csrValue (.tblCode k) = s.selectedEntry.codeWord k := if_pos hcom
      rw [hcode]
      exact Entry.getLsbD_codeWord _ k m hm
  · have hcom : ¬s.indexCommitted = true := by simpa [State.indexCommitted] using h
    refine ⟨if_neg hcom, fun k hk => ?_⟩
    rw [csrAt_tblCode k hk]
    exact if_neg hcom

/-- A step that takes a host read answers with the read's data. -/
theorem step_read {s : State} {a : HostAccess} {rest : List Event} (he : s.events = .host a :: rest)
    (ha : a.IsRead) : step s = .next (State.answer { s with events := rest } (s.readValue a)) := by
  rw [step_access s a rest he (commandWord_read a ha), State.access_read _ a ha]
  exact congrArg (fun v => Host.Outcome.next (State.answer _ v)) (s.readValue_congr a rest s.rdata)

/-- Settles O39: the data is a function of the block alone, and only the model's own fields are written. -/
theorem hostReadsHaveNoSideEffects : Obligations.HostReadsHaveNoSideEffects := by
  intro s a ha
  refine ⟨s.readValue a, fun rest r => ?_⟩
  rw [step_read (s := { s with events := .host a :: rest, rdata := r }) rfl ha, State.readValue_congr]
  rfl

/-- Every word address from 25 on is reserved (rule R34). -/
theorem csrAt_reserved (w : BitVec 10) (h : 25 ≤ w.toNat) : csrAt w = .reserved := by
  unfold csrAt
  split
  case h_18 => exact if_neg (by omega)
  all_goals omega

/-- The registers a host can write (rule R34). -/
def Csr.writable : Csr → Bool
  | .ctrl | .status | .inLen | .inStart | .bitlen | .tblIndex => true
  | .id | .errcode | .pos | .bitpos | .accLen | .outLen | .paybase | .tblCount | .tblEntry | .inCap
  | .tblCode _ | .outCap | .reserved => false

/-- A write to a register that is not writable is ignored (rule R50). -/
theorem State.csrWrite_ignored (s : State) (v : Word) (c : Csr) (h : c.writable = false) : s.csrWrite v c = s := by
  cases c with
  | ctrl | status | inLen | inStart | bitlen | tblIndex => cases h
  | _ => rfl

/-- The writable registers stand at word addresses 1, 2, 4, 5, 7 and 13 (rule R34). -/
theorem csrAt_writable (w : BitVec 10) (h : (csrAt w).writable = true) : w.toNat ∈ [1, 2, 4, 5, 7, 13] := by
  unfold csrAt at h
  split at h
  case h_18 => split at h <;> cases h
  all_goals simp_all [Csr.writable]

/-- Settles O40: the addresses named are those of no writable register. -/
theorem reservedAndReadOnlyRegistersIgnoreWrites : Obligations.ReservedAndReadOnlyRegistersIgnoreWrites := by
  refine ⟨fun s w hw => by rw [csrAt_reserved w hw]; rfl, fun s w v rest hw he => ?_⟩
  have hro : (csrAt w).writable = false := by
    rw [← Bool.not_eq_true]
    intro h
    have := csrAt_writable w h
    simp only [List.mem_cons, List.not_mem_nil, or_false] at this hw
    omega
  rw [step_csrWrite he fun h => by rw [h] at hro; cases hro]
  exact congrArg Host.Outcome.next (State.csrWrite_ignored _ v _ hro)

/-- Settles O41: both writes look at no phase. -/
theorem statusWritesClearFlags : Obligations.StatusWritesClearFlags := by
  refine ⟨fun s v rest he => ?_, fun s v rest he => ?_⟩
  · refine ⟨_, step_csrWrite he (by decide), ?_, ?_, ?_, ?_, rfl⟩ <;> simp [csrAt, State.csrWrite]
  · refine ⟨_, step_csrWrite he (by decide), ?_, rfl⟩
    show (v.setWidth 8).toNat = _
    rw [BitVec.toNat_setWidth]

/-- A guarded CSR write while busy is dropped with WR_IGN (rule R280). -/
theorem State.csrWrite_busy (s : State) (v : Word) (hbusy : s.phase ≠ 0#4) (c : Csr)
    (hc : c = .inLen ∨ c = .inStart ∨ c = .bitlen) : s.csrWrite v c = { s with wrIgn := true } := by
  rcases hc with rfl | rfl | rfl
  all_goals
    simp only [State.csrWrite]
    exact s.writeIdle_of_busy _ hbusy

/-- The guarded CSR writes while idle; IN_LEN saturates at IN_CAP (rules R38, R39, R41). -/
theorem State.csrWrite_idle (s : State) (v : Word) (hidle : s.phase = 0#4) :
    s.csrWrite v .inLen = { s with inLen := if v.toNat ≤ s.inCap.toNat then v else s.inCap }
      ∧ s.csrWrite v .inStart = { s with inStart := v } ∧ s.csrWrite v .bitlen = { s with bitlen := v } := by
  simp only [State.csrWrite]
  exact ⟨s.writeIdle_of_idle _ hidle, s.writeIdle_of_idle _ hidle, s.writeIdle_of_idle _ hidle⟩

/-- A host write to INBUF is the port's alone. -/
theorem step_inWrite {s : State} {rest : List Event} {a : Word} {b : Byte}
    (he : s.events = .host (.inWrite a b) :: rest) :
    step s = .next (State.inbufWrite { s with events := rest } a b) := step_access s _ rest he rfl

/-- An INBUF write at or beyond IN_CAP is dropped with no flag (rule R72). -/
theorem State.inbufWrite_beyond (s : State) (a : Word) (b : Byte) (h : s.inCap.toNat ≤ a.toNat) :
    s.inbufWrite a b = s := if_neg (by omega)

/-- Settles O42: while idle every guarded write takes effect. -/
theorem idleHostWritesTakeEffect : Obligations.IdleHostWritesTakeEffect := by
  intro s v rest hidle
  obtain ⟨hlen, hstart, hbits⟩ := State.csrWrite_idle { s with events := rest } v hidle
  refine ⟨fun he => ⟨_, (step_csrWrite he (by decide)).trans (congrArg Host.Outcome.next hlen), ?_, rfl⟩,
    fun he => (step_csrWrite he (by decide)).trans (congrArg Host.Outcome.next hstart),
    fun he => (step_csrWrite he (by decide)).trans (congrArg Host.Outcome.next hbits),
    fun b he => ⟨fun ha => ?_, fun ha => ?_⟩⟩
  · dsimp only
    split <;> omega
  · exact ⟨_, (step_inWrite he).trans (congrArg Host.Outcome.next
      ((if_pos ha).trans (State.writeIdle_of_idle { s with events := rest } _ hidle))),
      Memory.read_write_self _ _ _, fun a hne => Memory.read_write_ne _ _ _ _ hne, rfl⟩
  · exact (step_inWrite he).trans (congrArg Host.Outcome.next (State.inbufWrite_beyond _ v b ha))

/-- Settles O43: while busy every guarded write is dropped. -/
theorem busyHostWritesAreDropped : Obligations.BusyHostWritesAreDropped := by
  intro s v rest hbusy
  refine ⟨fun w hw he => ?_, fun b he => ⟨fun ha => ?_, fun ha => ?_⟩⟩
  · have hc : csrAt w ≠ .ctrl ∧ (csrAt w = .inLen ∨ csrAt w = .inStart ∨ csrAt w = .bitlen) := by
      rcases hw with rfl | rfl | rfl <;> decide
    exact (step_csrWrite he hc.1).trans (congrArg Host.Outcome.next
      (State.csrWrite_busy { s with events := rest } v hbusy _ hc.2))
  · exact (step_inWrite he).trans (congrArg Host.Outcome.next
      ((if_pos ha).trans (State.writeIdle_of_busy { s with events := rest } _ hbusy)))
  · exact (step_inWrite he).trans (congrArg Host.Outcome.next (State.inbufWrite_beyond _ v b ha))

/-- A byte stands zero-extended in the read data (log entry 19). -/
theorem toNat_byte_setWidth (b : Byte) : (b.setWidth 32 : Word).toNat = b.toNat :=
  BitVec.toNat_setWidth_of_le (by decide)

/-- Settles O44: the data of each read, by address against the capacity and `out_len`. -/
theorem hostReadsReturnTheirData : Obligations.HostReadsReturnTheirData := by
  refine ⟨fun s w rest he => ⟨_, step_read he (.inl ⟨w, rfl⟩), rfl⟩, fun s a rest => ⟨fun he => ?_, fun he => ?_,
    fun b he => step_access s _ rest he rfl⟩⟩
  · have h := step_read he (.inr (.inl ⟨a, rfl⟩))
    refine ⟨fun b ha hb => ⟨_, h, ?_⟩, fun ha => ⟨_, h, if_neg (by omega)⟩⟩
    show (s.inbufValue a).toNat = _
    rw [State.inbufValue, if_pos ha, hb]
    exact toNat_byte_setWidth b
  · have h := step_read he (.inr (.inr ⟨a, rfl⟩))
    refine ⟨fun b ha hlen hb => ⟨_, h, ?_⟩, fun ha => ⟨_, h, if_neg (by omega)⟩⟩
    show (s.outbufValue a).toNat = _
    rw [State.outbufValue, if_pos ha, State.outbufByte, if_pos hlen, hb]
    exact toNat_byte_setWidth b

end Sys2Proof.Machine

/-! ### What an engine step and a command can do, once -/

namespace Sys2Proof.Machine

variable {s t : State}

/-- The instructions a phase selects (rule R21). -/
def Instr.isEngine : Instr → Bool
  | .hdr | .tSym | .tLen | .tCode | .tMark | .pCheck | .decodeStep | .finish | .idle | .reservedPhase _ => true
  | .cont | .last | .reservedMarker _ | .codeLength _ | .reservedLength | .nop _ | .decompress _ | .loadTable _
  | .decode _ | .reservedCmd _ _ | .abort _ => false

/-- The state after an engine step that answers one, with the instruction that ran: one shape for each way the step
can go (rules R136 to R139, R160, R162, R184, R186). -/
inductive EngineStep (s : State) : Instr → State → Prop
  | idle : EngineStep s .idle s
  | refused (i : Instr) (r : RefuseReason) : EngineStep s i (s.refuse r)
  | raised (i : Instr) (k : ErrKind) (hk : k ≠ .tableOverflow ∧ k ≠ .outputOverflow) : EngineStep s i (s.raise k)
  | header (b : Word) : EngineStep s .hdr (s.headerRead b)
  | symbol (e : Entry) : EngineStep s .tSym (s.stored e 1 Phase.tLen)
  | length (e : Entry) : EngineStep s .tLen (s.stored e 1 Phase.tCode)
  | code (e : Entry) (d : Word) : EngineStep s .tCode (s.stored e d Phase.tMark)
  | nextEntry (h : s.tblCount + 1 ≠ 256#9) : EngineStep s .tMark { s.commitEntry with phase := Phase.tSym }
  | tableFull : EngineStep s .tMark (s.commitEntry.raise .tableOverflow)
  | tableForPayload (hop : s.op = 1#2) : EngineStep s .tMark { s.tableEnded with phase := Phase.pCheck }
  | tableLoaded (hop : s.op ≠ 1#2) : EngineStep s .tMark s.tableEnded.complete
  | payload (hin : s.pos.toNat + ceil8 s.bitlen.toNat ≤ s.inLen.toNat) : EngineStep s .pCheck s.payloadPlaced
  | bitTaken (acc : BitVec 255) (accLen : BitVec 8) (accOvf : Bool) : EngineStep s .decodeStep { s with
      cursor := s.cursor + 1, acc := acc, accLen := accLen, accOvf := accOvf
      phase := if s.cursor + 1 = s.bitlen then Phase.finish else s.phase }
  | outputFull (b : Bool) : EngineStep s .decodeStep ((s.bitStored b).raise .outputOverflow)
  | symbolOut (acc : BitVec 255) (v : Byte) (hlt : s.outLen.toNat < s.outCap.toNat) :
      EngineStep s .decodeStep { s with
        cursor := s.cursor + 1, acc := acc, accLen := 0, outbuf := s.outbuf.write s.outLen.toNat v
        outLen := s.outLen + 1, phase := if s.cursor + 1 = s.bitlen then Phase.finish else s.phase }
  | finished (h0 : s.accLen = 0) (hovf : s.accOvf = false) : EngineStep s .finish s.complete

/-- A container step's outcome, if the rest of the step has one of the shapes. -/
theorem EngineStep.of_containerField {i : Instr} {n : Nat} {trunc : ErrKind} {k : List Byte → Result}
    (h : s.containerField n trunc k = .next t) (htrunc : trunc ≠ .tableOverflow ∧ trunc ≠ .outputOverflow)
    (hk : ∀ bytes, k bytes = .next t → EngineStep s i t) : EngineStep s i t := by
  rcases s.containerField_next t n trunc k h with ⟨-, rfl⟩ | ⟨-, rfl⟩ | ⟨bytes, -, -, hb⟩
  · exact .raised i trunc htrunc
  · exact .refused i _
  · exact hk bytes hb

theorem EngineStep.of_execTMark (h : execTMark s = .next t) : EngineStep s .tMark t := by
  refine .of_containerField h (by decide) fun bytes hb => ?_
  split at hb
  · simp only [execCont] at hb
    split at hb <;> cases hb
    · exact .tableFull
    · exact .nextEntry ‹_›
  split at hb
  · by_cases hop : s.op = 1#2
    · rw [execLast_payload hop] at hb
      cases hb
      exact .tableForPayload hop
    · rw [execLast_complete hop] at hb
      cases hb
      exact .tableLoaded hop
  · cases hb
    exact .raised _ _ (by decide)

/-- A bit that emits nothing, stored or not. -/
theorem EngineStep.of_endOfPayload (b : Bool) : EngineStep s .decodeStep (s.withBit b).endOfPayload := by
  rw [State.endOfPayload_eq, State.endPhase, s.withBit_frame b]
  exact .bitTaken _ _ _

theorem EngineStep.of_execDecodeStep (h : execDecodeStep s = .next t) : EngineStep s .decodeStep t := by
  rcases execDecodeStep_cases s with ⟨-, e⟩ | ⟨-, -, e⟩ | ⟨b, -, -, e⟩ <;> rw [e] at h
  · cases h; exact .refused _ _
  · cases h; exact .refused _ _
  rcases s.decodeBit_cases b with ⟨-, e⟩ | ⟨-, -, e⟩ | ⟨k, rest, hroom, -, e⟩ <;> rw [e] at h
  · cases h; exact .of_endOfPayload b
  · cases h; exact .of_endOfPayload b
  generalize ((s.withBit b).entry k).sym = v at h
  rw [State.withBit_eq_bitStored b hroom] at h
  rcases (s.bitStored b).emit_cases v State.afterEmit with ⟨-, e⟩ | ⟨hlt, e⟩ | ⟨-, e⟩ <;> rw [e] at h <;> cases h
  · exact .outputFull b
  · rw [State.afterEmit, State.endOfPayload_eq]
    exact .symbolOut _ v hlt

/-- Every engine step that answers a next state has one of the shapes. -/
theorem EngineStep.of_exec {i : Instr} (hi : Instr.isEngine i = true) (h : exec i s = .next t) :
    EngineStep s i t := by
  cases i with
  | hdr => exact .of_containerField h (by decide) fun bytes hb => by cases hb; exact .header _
  | tSym =>
    exact .of_containerField h (by decide) fun bytes hb => by
      rw [(s.storeEntry_next t _ _ hb).2]; exact .symbol _
  | tLen =>
    refine .of_containerField h (by decide) fun bytes hb => ?_
    split at hb
    · cases hb; exact .raised _ _ (by decide)
    · rw [(s.storeEntry_next t _ _ hb).2]; exact .length _
  | tCode =>
    exact .of_containerField h (by decide) fun bytes hb => by
      rw [(s.storeEntry_next t _ _ hb).2]; exact .code _ _
  | tMark => exact .of_execTMark h
  | pCheck =>
    by_cases hin : s.pos.toNat + ceil8 s.bitlen.toNat ≤ s.inLen.toNat
    · cases h.symm.trans (execPCheck_present hin); exact .payload hin
    · cases h.symm.trans (execPCheck_short (by omega)); exact .raised _ _ (by decide)
  | decodeStep => exact .of_execDecodeStep h
  | finish =>
    simp only [exec, execFinish] at h
    split at h <;> cases h
    · rename_i hempty; exact .finished hempty.1 hempty.2
    · exact .raised _ _ (by decide)
  | idle => cases h; exact .idle
  | reservedPhase code => cases h
  | _ => cases hi

theorem isEngine_decodePhase (p : BitVec 4) : Instr.isEngine (decodePhase p) = true := by revert p; decide

/-- The state after a CTRL write: one shape for each way a command can go (rules R210 to R217). -/
inductive CommandStep (s : State) (v : Word) : State → Prop
  | onlyIe : CommandStep s v { s with ie := ctrlIe v }
  | dropped (hbusy : s.phase ≠ 0#4) : CommandStep s v { s with ie := ctrlIe v, cmdOvr := true }
  | aborted (hbusy : s.phase ≠ 0#4) : CommandStep s v (State.raise { s with ie := ctrlIe v } .aborted)
  | decompress (hidle : s.phase = 0#4) (hcmd : ctrlCmd v = 1#4) : CommandStep s v
      { (State.cmdStart { s with ie := ctrlIe v } Op.decompress).clearTable.clearDecode with
        bitlen := 0, phase := Phase.hdr }
  | loadTable (hidle : s.phase = 0#4) (hcmd : ctrlCmd v = 2#4) : CommandStep s v
      { (State.cmdStart { s with ie := ctrlIe v } Op.loadTable).clearTable with phase := Phase.tSym }
  | decode (hidle : s.phase = 0#4) : CommandStep s v
      { (State.cmdStart { s with ie := ctrlIe v } Op.decode).clearDecode with phase := Phase.pCheck }
  | noTable (hidle : s.phase = 0#4) : CommandStep s v
      (State.raise (State.cmdStart { s with ie := ctrlIe v } Op.decode) .noTable)
  | badCommand (hidle : s.phase = 0#4) : CommandStep s v
      (State.raise { s with ie := ctrlIe v, done := false, op := Op.none } .badCommand)

/-- A command that starts while idle and is dropped while busy. -/
theorem CommandStep.of_command {v : Word} (start : State → State)
    (h : s.phase = 0#4 → CommandStep s v (start { s with ie := ctrlIe v })) :
    CommandStep s v (s.command (ctrlIe v) start) := by
  by_cases hp : s.phase = 0#4
  · rw [s.command_of_idle _ start hp]; exact h hp
  · rw [s.command_of_busy _ start hp]; exact .dropped hp

/-- Every CTRL write answers a next state of one of the shapes. -/
theorem CommandStep.of_exec {v : Word} (h : exec (decodeCtrl v) s = .next t) : CommandStep s v t := by
  simp only [decodeCtrl] at h
  split at h
  · cases h; exact .onlyIe
  split at h
  · cases h; exact .of_command _ fun hp => .decompress hp ‹_›
  split at h
  · cases h; exact .of_command _ fun hp => .loadTable hp ‹_›
  split at h
  · cases h
    refine .of_command _ fun hp => ?_
    dsimp only
    split
    · exact .decode hp
    · exact .noTable hp
  split at h
  · cases h
    split
    · rename_i hbusy; exact .aborted (State.busy_iff _ |>.1 hbusy)
    · exact .onlyIe
  · cases h; exact .of_command _ fun hp => .badCommand hp

/-- What a step that answers a next state did, with the shape of the state by the event it took. -/
theorem step_next_shapes (h : step s = .next t) :
    (s.EngineNext ∧ s.refused = none ∧ ∃ evs, EngineStep { s with events := evs } (decodePhase s.phase) t)
    ∨ ∃ rest, (s.events = .reset :: rest ∧ t = State.resetEvent { s with events := rest })
      ∨ (∃ v, s.events = .host (.csrWrite 1#10 v) :: rest ∧ CommandStep { s with events := rest } v t)
      ∨ ∃ a, s.events = .host a :: rest ∧ AccessFrame { s with events := rest } t := by
  rcases step_next_cases h with ⟨hn, hr, evs, e⟩ | ⟨rest, hreset | ⟨v, he, e⟩ | ⟨a, he, -, rfl⟩⟩
  · exact .inl ⟨hn, hr, evs, .of_exec (isEngine_decodePhase _) e⟩
  · exact .inr ⟨rest, .inl hreset⟩
  · exact .inr ⟨rest, .inr (.inl ⟨v, he, .of_exec e⟩)⟩
  · exact .inr ⟨rest, .inr (.inr ⟨a, he, State.access_frame _ a⟩)⟩

/-! #### Errors -/

theorem ErrKind.code_eq_tableOverflow (k : ErrKind) : k.code = 0x07#8 ↔ k = .tableOverflow := by
  cases k <;> decide

theorem ErrKind.code_eq_outputOverflow (k : ErrKind) : k.code = 0x08#8 ↔ k = .outputOverflow := by
  cases k <;> decide

/-- Settles O31: only three shapes of an engine step set ERR, and two of them write anything beside it. -/
theorem engineErrorsArePrecise : Obligations.EngineErrorsArePrecise := by
  intro s t i hi h hs ht
  have hengine : Instr.isEngine i = true := by
    simp only [List.mem_cons, List.not_mem_nil, or_false] at hi
    rcases hi with rfl | rfl | rfl | rfl | rfl | rfl | rfl | rfl <;> rfl
  have clear : ∀ u : State, u.err = s.err → u.err = true → False := fun u hu hu' =>
    Bool.noConfusion (hs.symm.trans (hu.symm.trans hu'))
  cases EngineStep.of_exec hengine h with
  | raised _ k hk =>
    refine ⟨rfl, rfl, fun _ _ => rfl, fun h7 => ?_, fun h8 => ?_⟩
    · exact absurd (k.code_eq_tableOverflow.1 h7) hk.1
    · exact absurd (k.code_eq_outputOverflow.1 h8) hk.2
  | tableFull => exact ⟨rfl, rfl, fun h7 => absurd rfl h7, fun _ => ⟨rfl, rfl⟩, nofun⟩
  | outputFull b => exact ⟨rfl, rfl, fun _ h8 => absurd rfl h8, nofun, fun _ => ⟨rfl, rfl⟩⟩
  | _ => exact (clear _ rfl ht).elim

/-! #### What a step leaves unchanged -/

theorem CommandFrame.of_step {v : Word} (h : CommandStep s v t) : CommandFrame s t := by
  cases h with
  | decompress | decode => exact ⟨rfl, .inr rfl⟩
  | _ => exact ⟨rfl, .inl rfl⟩

/-- Entries are written by T_SYM, T_LEN and T_CODE alone, at `tbl_count` (rule R29). -/
theorem EngineStep.entry_changed {i : Instr} (h : EngineStep s i t) {k : Nat} (hk : t.entry k ≠ s.entry k) :
    (i = .tSym ∨ i = .tLen ∨ i = .tCode) ∧ k = s.tblCount.toNat := by
  have opened : ∀ (e : Entry) (d : Word) (p : BitVec 4), (s.stored e d p).entry k ≠ s.entry k → k = s.tblCount.toNat :=
    fun e d p hne => by
      by_contra hne'
      exact hne (s.stored_entry_ne e d p hne')
  cases h with
  | symbol e => exact ⟨.inl rfl, opened _ _ _ hk⟩
  | length e => exact ⟨.inr (.inl rfl), opened _ _ _ hk⟩
  | code e d => exact ⟨.inr (.inr rfl), opened _ _ _ hk⟩
  | _ => exact absurd rfl hk

/-- Settles O49: neither a command nor any other access writes the store. -/
theorem tableStoreIsWrittenOnlyWhileLoading : Obligations.TableStoreIsWrittenOnlyWhileLoading := by
  intro s t i hreset h hi
  rcases step_next_shapes h with ⟨hn, -, evs, hstep⟩ | ⟨rest, ⟨he, -⟩ | ⟨v, -, hcmd⟩ | ⟨a, -, hacc⟩⟩
  · obtain ⟨hinstr, hcount⟩ := hstep.entry_changed (k := i) hi
    refine ⟨hn, hinstr.imp (phase_eq_of_decodePhase · rfl) (Or.imp (phase_eq_of_decodePhase · rfl)
      (phase_eq_of_decodePhase · rfl)), hcount⟩
  · exact absurd he (hreset rest)
  · exact absurd (by rw [(CommandFrame.of_step hcmd).1]; rfl) hi
  · exact absurd (by rw [hacc.1]; rfl) hi

/-- `paybase` is written by a P_CHECK step that passes alone (rule R25). -/
theorem EngineStep.paybase_changed {i : Instr} (h : EngineStep s i t) (hne : t.paybase ≠ s.paybase) :
    i = .pCheck ∧ s.pos.toNat + ceil8 s.bitlen.toNat ≤ s.inLen.toNat ∧ t.paybase = s.pos := by
  cases h with
  | payload hin => exact ⟨rfl, hin, rfl⟩
  | _ => exact absurd rfl hne

/-- Settles O50: neither a command nor any other access writes `paybase`. -/
theorem paybaseIsWrittenOnlyByPCheck : Obligations.PaybaseIsWrittenOnlyByPCheck := by
  intro s t h hne
  rcases step_next_shapes h with ⟨hn, -, evs, hstep⟩ | ⟨rest, ⟨he, -⟩ | ⟨v, -, hcmd⟩ | ⟨a, -, hacc⟩⟩
  · obtain ⟨hinstr, hin, hpay⟩ := hstep.paybase_changed hne
    exact .inr ⟨hn, phase_eq_of_decodePhase hinstr rfl, hin, hpay⟩
  · exact .inl ⟨rest, he⟩
  · exact absurd (by rw [(CommandFrame.of_step hcmd).1]) hne
  · exact absurd (by rw [hacc.1]) hne

/-- The engine never invalidates a table (rule R30). -/
theorem EngineStep.tblValid_kept {i : Instr} (h : EngineStep s i t) (hv : s.tblValid = true) : t.tblValid = true := by
  cases h with
  | tableForPayload | tableLoaded => rfl
  | _ => exact hv

/-- Of the commands only DECOMPRESS and LOAD_TABLE, started while idle, invalidate the table (rule R30). -/
theorem CommandStep.tblValid_cleared {v : Word} (h : CommandStep s v t) (hs : s.tblValid = true)
    (ht : t.tblValid = false) : (ctrlCmd v = 1#4 ∨ ctrlCmd v = 2#4) ∧ s.phase = 0#4 := by
  cases h with
  | decompress hidle hcmd => exact ⟨.inl hcmd, hidle⟩
  | loadTable hidle hcmd => exact ⟨.inr hcmd, hidle⟩
  | _ => exact Bool.noConfusion (hs.symm.trans ht)

/-- Settles O51: of all events only a reset and the two loading commands clear `tbl_valid`. -/
theorem validTableLastsUntilTheNextLoad : Obligations.ValidTableLastsUntilTheNextLoad := by
  intro s t h hs ht
  rcases step_next_shapes h with ⟨-, -, evs, hstep⟩ | ⟨rest, ⟨he, -⟩ | ⟨v, he, hcmd⟩ | ⟨a, -, hacc⟩⟩
  · exact Bool.noConfusion (ht.symm.trans (hstep.tblValid_kept hs))
  · exact .inl ⟨rest, he⟩
  · obtain ⟨hcode, hidle⟩ := hcmd.tblValid_cleared hs ht
    simp only [← BitVec.toNat_inj, toNat_ctrlCmd] at hcode
    exact .inr ⟨v, rest, he, hcode, hidle⟩
  · have hkept : t.tblValid = s.tblValid := by rw [hacc.1]
    exact Bool.noConfusion (ht.symm.trans (hkept.trans hs))

/-- Settles O52: the engine and the commands write no input, and while busy no other access does. -/
theorem operationInputIsFrozen : Obligations.OperationInputIsFrozen := by
  intro s t hbusy h hreset
  rcases step_next_cases h with ⟨-, -, evs, e⟩ | ⟨rest, ⟨he, -⟩ | ⟨v, -, e⟩ | ⟨a, -, -, rfl⟩⟩
  · have hframe := (engine_frame _ t s.phase e).1
    exact ⟨by rw [hframe], by rw [hframe], by rw [hframe]⟩
  · exact absurd he (hreset rest)
  · have hframe := (CommandFrame.of_step (.of_exec e)).1
    exact ⟨by rw [hframe], by rw [hframe], by rw [hframe]⟩
  · obtain ⟨hin, hlen, hstart, -⟩ := (State.access_frame { s with events := rest } a).2.2.2 hbusy
    exact ⟨hin, hlen, hstart⟩

/-- The engine appends to the output and changes no byte of it (rules R87, R185). -/
theorem EngineStep.output {i : Instr} (h : EngineStep s i t) :
    (∀ k, k < s.outLen.toNat → t.outbuf.read k = s.outbuf.read k)
      ∧ (t.outLen = s.outLen ∨ t.outLen = s.outLen + 1#32) := by
  cases h with
  | symbolOut acc v hlt => exact ⟨fun k hk => Memory.read_write_ne _ _ _ _ (Nat.ne_of_lt hk), .inr rfl⟩
  | _ => exact ⟨fun _ _ => rfl, .inl rfl⟩

/-- Settles O53: the host writes no output byte, and a command keeps or clears `out_len`. -/
theorem emittedBytesAreFinal : Obligations.EmittedBytesAreFinal := by
  intro s t h
  rcases step_next_shapes h with ⟨-, -, evs, hstep⟩ | ⟨rest, ⟨he, rfl⟩ | ⟨v, -, hcmd⟩ | ⟨a, -, hacc⟩⟩
  · obtain ⟨hbytes, hlen⟩ := hstep.output
    exact ⟨fun _ => hbytes, hlen.imp_right .inl⟩
  · exact ⟨fun hreset => absurd he (hreset rest), .inr (.inr rfl)⟩
  · obtain ⟨hframe, hlen⟩ := CommandFrame.of_step hcmd
    exact ⟨fun _ k _ => by rw [hframe], hlen.imp_right .inr⟩
  · exact ⟨fun _ k _ => by rw [hacc.1], .inl (by rw [hacc.1])⟩

/-! #### Results -/

/-- Two states with results and the same output show the same bytes. -/
theorem State.resultByte_congr (hs : s.HasResult) (ht : t.HasResult) (hlen : t.outLen = s.outLen)
    (hout : t.outbuf = s.outbuf) (k : Nat) : t.resultByte k = s.resultByte k := by
  by_cases hk : k < s.outLen.toNat
  · rw [State.resultByte, State.resultByte, if_pos ⟨ht, hlen ▸ hk⟩, if_pos ⟨hs, hk⟩, hout]
  · rw [State.resultByte, State.resultByte, if_neg fun h => hk (hlen ▸ h.2), if_neg fun h => hk h.2]

/-- The engine sets DONE in two shapes of step: the end of a LOAD_TABLE, and FINISH over an empty accumulator
(rules R139, R186). -/
theorem EngineStep.done_set {i : Instr} (h : EngineStep s i t) (hs : s.done = false) (ht : t.done = true) :
    (i = .tMark ∧ t.op = s.op ∧ s.op ≠ 1#2)
    ∨ (i = .finish ∧ s.accLen = 0 ∧ s.accOvf = false ∧ t = s.complete) := by
  cases h with
  | tableLoaded hop => exact .inl ⟨rfl, rfl, hop⟩
  | finished h0 hovf => exact .inr ⟨rfl, h0, hovf, rfl⟩
  | raised | tableFull | outputFull => cases ht
  | _ => exact Bool.noConfusion (hs.symm.trans ht)

/-- A command after which a result stands left the state as it was but for IE: every start sets BUSY or ERR. -/
theorem CommandStep.hasResult {v : Word} (h : CommandStep s v t) (ht : t.HasResult) :
    t = { s with ie := t.ie } := by
  obtain ⟨hbusy, hdone, -⟩ := ht
  cases h with
  | onlyIe => rfl
  | dropped hp => exact Bool.noConfusion (hbusy.symm.trans (s.busy_iff.2 hp))
  | decompress | loadTable | decode => cases hbusy
  | noTable | badCommand | aborted => cases hdone

/-- An idle engine turn after which a result stands left the state as it was. -/
theorem EngineStep.hasResult_of_idle (h : EngineStep s .idle t) (ht : t.HasResult) : t = s := by
  obtain ⟨-, hdone, -, hr⟩ := ht
  cases h with
  | idle => rfl
  | refused => cases hr
  | raised => cases hdone

/-- Settles O56: while idle a step that leaves a result found it there; while busy DONE is not set, and of the two
steps that set it the end of a LOAD_TABLE makes no result. -/
theorem resultsComeOnlyFromFinish : Obligations.ResultsComeOnlyFromFinish := by
  intro s t hs h ht
  have kept : s.HasResult → t.outLen = s.outLen → t.outbuf = s.outbuf →
      s.HasResult ∧ ∀ k, t.resultByte k = s.resultByte k := fun hr hlen hout =>
    ⟨hr, State.resultByte_congr hr ht hlen hout⟩
  obtain ⟨hbusy, hdone, hop, href⟩ := id ht
  rcases step_next_shapes h with ⟨hn, hr, evs, hstep⟩ | ⟨rest, ⟨-, rfl⟩ | ⟨v, -, hcmd⟩ | ⟨a, -, hacc⟩⟩
  · by_cases hp : s.phase = 0#4
    · rw [show decodePhase s.phase = .idle by rw [hp]; rfl] at hstep
      obtain rfl := hstep.hasResult_of_idle ht
      exact .inl (kept ht rfl rfl)
    · obtain ⟨hclear, -, -⟩ := hs.noFlags hp
      rcases hstep.done_set hclear hdone with ⟨hi, htop, hne⟩ | ⟨hi, h0, hovf, rfl⟩
      · obtain ⟨-, -, hload, -⟩ := hs.loadsTable (by simp [phase_eq_of_decodePhase hi rfl])
        rw [htop, show State.op _ = 2#2 from hload.resolve_left hne] at hop
        exact absurd hop (by decide)
      · have hp8 : s.phase = 0x8#4 := phase_eq_of_decodePhase hi rfl
        obtain ⟨-, -, -, -, ⟨-, -, -, -, hcur, -⟩⟩ := hs
        refine .inr ⟨fun hsr => hp (by simpa using (State.busy_iff s).not.1 (by simp [hsr.1])), hn, hp8,
          by rw [h0]; rfl, hovf, hcur hp8, fun k hk => ?_⟩
        rw [State.resultByte, if_pos ⟨ht, hk⟩]
        rfl
  · cases hdone
  · have heq := hcmd.hasResult ht
    rw [heq] at ht
    exact .inl (kept ht (by rw [heq]) (by rw [heq]))
  · obtain ⟨heq, hd, -⟩ := hacc
    have hsr : s.HasResult := by
      refine ⟨?_, hd hdone, ?_, ?_⟩
      · rw [heq] at hbusy; exact hbusy
      · rw [heq] at hop; exact hop
      · rw [heq] at href; exact href
    exact .inl (kept hsr (by rw [heq]) (by rw [heq]))

end Sys2Proof.Machine

/-! ### Termination -/

namespace Sys2Proof.Machine

variable {s t : State}

/-- How far an operation has come, in engine steps: HDR, four steps for each of at most 256 entries, P_CHECK, one step
for each payload bit, FINISH (rule R285). -/
def State.rank (s : State) : Nat :=
  if s.phase.toNat ≤ 5 then 4 * s.tblCount.toNat + (s.phase.toNat - 1)
  else if s.phase = 0x6#4 then 1025
  else if s.phase = 0x7#4 then 1026 + s.cursor.toNat
  else 1026 + s.bitlen.toNat

/-- The operation is over: refused, or idle with DONE or ERR. -/
def State.Ended (s : State) : Prop :=
  s.phase = 0x0#4 ∧ (s.done = true ∨ s.err = true) ∨ s.refused ≠ none

theorem State.rank_loading (h : s.phase.toNat ≤ 5) : s.rank = 4 * s.tblCount.toNat + (s.phase.toNat - 1) := if_pos h

theorem State.rank_pCheck (h : s.phase = 0x6#4) : s.rank = 1025 := by simp [State.rank, h]

theorem State.rank_decode (h : s.phase = 0x7#4) : s.rank = 1026 + s.cursor.toNat := by simp [State.rank, h]

theorem State.rank_finish (h : s.phase = 0x8#4) : s.rank = 1026 + s.bitlen.toNat := by simp [State.rank, h]

/-- While a table loads at most 256 entries have been read. -/
theorem State.Inv.rank_loading_le (hs : s.Inv) (hlo : 1 ≤ s.phase.toNat) (hhi : s.phase.toNat ≤ 5) :
    s.rank ≤ 1024 := by
  obtain ⟨hc, -⟩ := hs.loadsTable ⟨hlo, hhi⟩
  rw [State.rank_loading hhi]
  omega

/-- No operation comes further than its last payload bit. -/
theorem State.Inv.rank_le (hs : s.Inv) (hp : s.phase ≠ 0#4) : s.rank ≤ 1026 + s.bitlen.toNat := by
  obtain ⟨-, -, -, -, ⟨-, -, h7, -, -, hle⟩⟩ := id hs
  have hpos : 1 ≤ s.phase.toNat := Nat.pos_of_ne_zero fun h => hp (BitVec.eq_of_toNat_eq h)
  by_cases hload : s.phase.toNat ≤ 5
  · have := hs.rank_loading_le hpos hload
    omega
  by_cases h6 : s.phase = 0x6#4
  · rw [State.rank_pCheck h6]; omega
  by_cases hp7 : s.phase = 0x7#4
  · rw [State.rank_decode hp7]
    obtain ⟨-, -, -, hcur⟩ := h7 (by simp [hp7])
    omega
  · exact Nat.le_of_eq (State.rank_finish (by bv_omega))

/-- After a payload bit the operation has come one step further, at the last bit too. -/
theorem State.rank_next_bit (hs : s.Inv) (hp : s.phase = 0x7#4) (hb : t.bitlen = s.bitlen)
    (hc : t.cursor = s.cursor + 1) (htp : t.phase = if s.cursor + 1 = s.bitlen then Phase.finish else s.phase) :
    6 ≤ t.phase.toNat ∧ s.rank < t.rank := by
  have hlt : s.cursor.toNat < s.bitlen.toNat := by
    obtain ⟨-, -, -, -, ⟨-, -, -, h7, -⟩⟩ := hs
    exact h7 hp
  have hsucc := State.toNat_cursor_succ hlt
  rw [State.rank_decode hp]
  split at htp
  · rename_i hlast
    rw [State.rank_finish htp, htp, hb, ← hlast]
    exact ⟨by decide, by omega⟩
  · rw [hp] at htp
    rw [State.rank_decode htp, htp, hc]
    exact ⟨by decide, by omega⟩

/-- An engine step of a running operation ends it or brings it further; HDR alone writes the bit length, and no step
the operation (rule R285). -/
theorem EngineStep.progress {i : Instr} (hs : s.Inv) (hp : s.phase ≠ 0#4) (hr : s.refused = none)
    (hi : decodePhase s.phase = i) (h : EngineStep s i t) :
    t.Ended ∨ (2 ≤ t.phase.toNat ∧ t.refused = none ∧ s.rank < t.rank) := by
  have load : ∀ p q : BitVec 4, s.phase = p → t.phase = q → q.toNat ≤ 5 → q.toNat = p.toNat + 1 → 1 ≤ p.toNat →
      t.refused = s.refused → t.tblCount = s.tblCount →
      2 ≤ t.phase.toNat ∧ t.refused = none ∧ s.rank < t.rank := by
    rintro p q rfl rfl hq hpq hlo href hcount
    rw [State.rank_loading (s := s) (by omega), State.rank_loading hq, hcount, href]
    exact ⟨by omega, hr, by omega⟩
  have marked : i = .tMark → s.phase = 0x5#4 ∧ s.tblCount.toNat < 256 ∧ s.rank = 4 * s.tblCount.toNat + 4 := by
    rintro rfl
    have h5 : s.phase = 0x5#4 := phase_eq_of_decodePhase hi rfl
    obtain ⟨hc, -⟩ := hs.loadsTable (by simp [h5])
    exact ⟨h5, hc, by rw [State.rank_loading (by simp [h5]), h5]; rfl⟩
  cases h with
  | idle => exact absurd (phase_eq_of_decodePhase hi rfl) hp
  | refused => exact .inl (.inr nofun)
  | raised | tableFull | outputFull => exact .inl (.inl ⟨rfl, .inr rfl⟩)
  | tableLoaded | finished => exact .inl (.inl ⟨rfl, .inl rfl⟩)
  | header b => exact .inr (load 0x1#4 0x2#4 (phase_eq_of_decodePhase hi rfl) rfl (by decide) rfl (by decide) rfl rfl)
  | symbol e => exact .inr (load 0x2#4 0x3#4 (phase_eq_of_decodePhase hi rfl) rfl (by decide) rfl (by decide) rfl rfl)
  | length e => exact .inr (load 0x3#4 0x4#4 (phase_eq_of_decodePhase hi rfl) rfl (by decide) rfl (by decide) rfl rfl)
  | code e d => exact .inr (load 0x4#4 0x5#4 (phase_eq_of_decodePhase hi rfl) rfl (by decide) rfl (by decide) rfl rfl)
  | nextEntry =>
    obtain ⟨-, hc, hrank⟩ := marked rfl
    have hcount := State.toNat_commitEntry_tblCount hc
    refine .inr ⟨show 2 ≤ Phase.tSym.toNat by decide, hr, ?_⟩
    rw [hrank, State.rank_loading (s := { s.commitEntry with phase := Phase.tSym })
      (show Phase.tSym.toNat ≤ 5 by decide)]
    show _ < 4 * s.commitEntry.tblCount.toNat + 1
    omega
  | tableForPayload =>
    obtain ⟨-, hc, hrank⟩ := marked rfl
    refine .inr ⟨show 2 ≤ Phase.pCheck.toNat by decide, hr, ?_⟩
    rw [hrank, State.rank_pCheck rfl]
    omega
  | payload =>
    have hrank := State.rank_pCheck (phase_eq_of_decodePhase hi rfl)
    obtain ⟨hzero, hmore⟩ := s.payloadPlaced_phase
    by_cases h0 : s.bitlen = 0#32
    · exact .inr ⟨by rw [hzero h0]; decide, hr, by rw [hrank, State.rank_finish (hzero h0)]; omega⟩
    · exact .inr ⟨by rw [hmore h0]; decide, hr, by rw [hrank, State.rank_decode (hmore h0)]; omega⟩
  | bitTaken | symbolOut =>
    obtain ⟨hp', hrank⟩ := State.rank_next_bit (t := { s with
      cursor := s.cursor + 1, phase := if s.cursor + 1 = s.bitlen then Phase.finish else s.phase })
      hs (phase_eq_of_decodePhase hi rfl) rfl rfl rfl
    exact .inr ⟨Nat.le_trans (by decide) hp', hr, hrank⟩

/-- HDR alone writes the bit length (rule R24). -/
theorem EngineStep.bitlen_kept {i : Instr} (h : EngineStep s i t) (hi : i ≠ .hdr) : t.bitlen = s.bitlen := by
  cases h with
  | header => exact absurd rfl hi
  | _ => rfl

/-- The engine writes neither the operation nor the events to come. -/
theorem EngineStep.op_kept {i : Instr} (h : EngineStep s i t) : t.op = s.op ∧ t.events = s.events := by
  cases h <;> exact ⟨rfl, rfl⟩

/-- The last step's bit length bounds how far the operation had come: HDR is the first step. -/
theorem EngineStep.rank_le_bitlen (hs : s.Inv) (hp : s.phase ≠ 0#4) (h : EngineStep s (decodePhase s.phase) t) :
    s.rank ≤ 1026 + t.bitlen.toNat := by
  by_cases hi : decodePhase s.phase = .hdr
  · have h1 : s.phase = 0x1#4 := phase_eq_of_decodePhase hi rfl
    have := hs.rank_loading_le (by simp [h1]) (by simp [h1])
    omega
  · rw [h.bitlen_kept hi]
    exact hs.rank_le hp

/-- With the invariant and no refusal the engine's turn answers a next state of one of the shapes. -/
theorem State.Inv.engine_step (hs : s.Inv) (he : s.events = []) (hr : s.refused = none) :
    ∃ t, step s = .next t ∧ t.Inv ∧ EngineStep s (decodePhase s.phase) t := by
  obtain ⟨t, e, ht⟩ := engineStep_givesInv hs
  exact ⟨t, (step_engine_nil he hr).trans e, ht, .of_exec (isEngine_decodePhase _) e⟩

theorem runSteps_succ (n : Nat) (h : step s = .next t) : runSteps (n + 1) s = runSteps n t := by
  simp [runSteps, h]

/-- Runs compose. -/
theorem runSteps_add (n : Nat) : ∀ {m : Nat} {s t : State}, runSteps m s = .next t →
    runSteps (m + n) s = runSteps n t
  | 0, s, t, h => by cases h; rw [Nat.zero_add]
  | m + 1, s, t, h => by
    rw [Nat.succ_add]
    simp only [runSteps] at h ⊢
    split at h
    · exact runSteps_add n h
    · cases h
    · cases h

theorem runSteps_one (h : step s = .next t) : runSteps 1 s = .next t := runSteps_succ 0 h

/-- The engine alone moving, a running operation comes to a last state u, whose step t is its end. The steps before it
are no more than the way it has come from s. -/
theorem State.Inv.runs_to_end (d : Nat) : ∀ {s : State}, s.Inv → s.events = [] → s.refused = none → s.phase ≠ 0#4 →
    1027 + 2 ^ 32 ≤ s.rank + d →
    ∃ n u t, runSteps (n + 1) s = .next t ∧ t.Ended ∧ u.Inv ∧ u.phase ≠ 0#4 ∧ s.rank + n ≤ u.rank ∧ u.op = s.op
      ∧ EngineStep u (decodePhase u.phase) t ∧ (2 ≤ s.phase.toNat → u.bitlen = s.bitlen) := by
  induction d with
  | zero =>
    intro s hs _ _ hp hd
    have := hs.rank_le hp
    have := s.bitlen.isLt
    omega
  | succ d ih =>
    intro s hs he hr hp hd
    obtain ⟨t, hstep, ht, hshape⟩ := hs.engine_step he hr
    rcases hshape.progress hs hp hr rfl with hend | ⟨hp2, hrt, hrank⟩
    · exact ⟨0, s, t, runSteps_one hstep, hend, hs, hp, Nat.le_refl _, rfl, hshape, fun _ => rfl⟩
    · obtain ⟨hop, hev⟩ := hshape.op_kept
      have hpt : t.phase ≠ 0#4 := fun h => by simp [h] at hp2
      obtain ⟨n, u, v, hrun, hend, hu, hpu, hru, hopu, hlast, hbit⟩ := ih ht (hev.trans he) hrt hpt (by omega)
      refine ⟨n + 1, u, v, (runSteps_succ (n + 1) hstep).trans hrun, hend, hu, hpu, by omega, hopu.trans hop, hlast,
        fun h2 => (hbit hp2).trans (hshape.bitlen_kept fun hi => ?_)⟩
      have h1 : s.phase = 0x1#4 := phase_eq_of_decodePhase hi rfl
      simp [h1] at h2

/-- Settles O54: the rank of the first and of the last running state bound the steps between them. -/
theorem everyOperationEnds : Obligations.EveryOperationEnds := by
  intro s hs he hr
  have run : s.phase ≠ 0#4 → _ := fun hp => hs.runs_to_end (1027 + 2 ^ 32) he hr hp (Nat.le_add_left _ _)
  refine ⟨fun hp => ?_, fun hp hop => ?_, fun hp => ?_⟩
  · obtain ⟨n, u, t, hrun, hend, hu, hpu, hrank, -, hlast, -⟩ := run (by simp [hp])
    refine ⟨n + 1, t, ?_, hrun, hend⟩
    have := hlast.rank_le_bitlen hu hpu
    omega
  · obtain ⟨n, u, t, hrun, hend, hu, hpu, hrank, hopu, -, -⟩ := run (by simp [hp])
    refine ⟨n + 1, t, ?_, hrun, hend⟩
    obtain ⟨-, -, -, -, ⟨h6, -⟩⟩ := id hu
    have hload : u.phase.toNat ≤ 5 := by
      by_contra hlt
      obtain ⟨-, h1 | h3⟩ := h6 (by omega)
      · simp [hopu, hop] at h1
      · simp [hopu, hop] at h3
    have := hu.rank_loading_le (Nat.pos_of_ne_zero fun h => hpu (BitVec.eq_of_toNat_eq h)) hload
    have hs1 := State.rank_loading (s := s) (by simp [hp])
    simp only [hp, BitVec.toNat_ofNat] at hs1
    omega
  · obtain ⟨n, u, t, hrun, hend, hu, hpu, hrank, -, -, hbit⟩ := run (by simp [hp])
    refine ⟨n + 1, t, ?_, hrun, hend⟩
    have := hu.rank_le hpu
    rw [hbit (by simp [hp])] at this
    rw [State.rank_pCheck hp] at hrank
    omega

/-! #### Fair runs -/

/-- The host neither ends a running operation nor moves it, but by an ABORT (rules R215, R216, R280). -/
theorem CommandStep.busy {v : Word} (h : CommandStep s v t) (hp : s.phase ≠ 0#4) :
    t.phase = 0x0#4 ∧ t.err = true ∨ t.phase = s.phase ∧ t.refused = s.refused ∧ t.rank = s.rank := by
  cases h with
  | onlyIe | dropped => exact .inr ⟨rfl, rfl, rfl⟩
  | aborted => exact .inl ⟨rfl, rfl⟩
  | decompress hidle | loadTable hidle | decode hidle | noTable hidle | badCommand hidle => exact absurd hidle hp

theorem AccessFrame.busy (h : AccessFrame s t) (hp : s.phase ≠ 0#4) :
    t.phase = s.phase ∧ t.refused = s.refused ∧ t.rank = s.rank := by
  obtain ⟨heq, -, -, hin⟩ := h
  obtain ⟨-, -, -, hbit⟩ := hin hp
  refine ⟨by rw [heq], by rw [heq], ?_⟩
  have hphase : t.phase = s.phase := by rw [heq]
  have hcount : t.tblCount = s.tblCount := by rw [heq]
  have hcur : t.cursor = s.cursor := by rw [heq]
  rw [State.rank, State.rank, hphase, hcount, hcur, hbit]

/-- Any event of a running operation ends it, or keeps it running and no less far; the engine's turn brings it
further. -/
theorem step_progress (hs : s.Inv) (hrun : s.EngineEnabled) (h : step s = .next t) :
    (t.refused ≠ none
      ∨ t.phase = 0x0#4 ∧ ((∃ rest, s.events = .reset :: rest) ∨ t.done = true ∨ t.err = true))
    ∨ (t.EngineEnabled ∧ s.rank ≤ t.rank ∧ (s.EngineNext → s.rank < t.rank)) := by
  obtain ⟨hbusy, hr⟩ := hrun
  have hp := s.busy_iff.1 hbusy
  have waits : ∀ a rest, s.events = .host a :: rest → t.phase = s.phase ∧ t.refused = s.refused ∧ t.rank = s.rank →
      t.EngineEnabled ∧ s.rank ≤ t.rank ∧ (s.EngineNext → s.rank < t.rank) := by
    rintro a rest he ⟨hpt, hrt, hrank⟩
    refine ⟨⟨t.busy_iff.2 (hpt ▸ hp), hrt.trans hr⟩, Nat.le_of_eq hrank.symm, fun hn => ?_⟩
    rcases hn with hn | ⟨rest', hn⟩ <;> cases he.symm.trans hn
  rcases step_next_shapes h with ⟨-, -, evs, hstep⟩ | ⟨rest, ⟨he, rfl⟩ | ⟨v, he, hcmd⟩ | ⟨a, he, hacc⟩⟩
  · rcases EngineStep.progress (s := { s with events := evs }) hs hp hr rfl hstep with hend | ⟨hp2, hrt, hrank⟩
    · exact .inl (hend.symm.imp_right (And.imp_right .inr))
    · exact .inr ⟨⟨t.busy_iff.2 fun h0 => by simp [h0] at hp2, hrt⟩, Nat.le_of_lt hrank, fun _ => hrank⟩
  · exact .inl (.inr ⟨rfl, .inl ⟨rest, he⟩⟩)
  · rcases hcmd.busy hp with ⟨h0, herr⟩ | hwait
    · exact .inl (.inr ⟨h0, .inr (.inr herr)⟩)
    · exact .inr (waits _ rest he hwait)
  · exact .inr (waits a rest he (hacc.busy hp))

theorem engineSteps_succ (e : Nat → Event) (n : Nat) :
    engineSteps e (n + 1) = engineSteps e n + if e n = .engine then 1 else 0 := by
  rw [engineSteps, List.range_succ, List.filter_append, List.length_append, ← engineSteps]
  by_cases h : e n = .engine <;> simp [h]

section Run

variable {e : Nat → Event} {r : Nat → State}

/-- The invariant along a run. -/
theorem IsRun.inv (hrun : IsRun e r) (h0 : (r 0).Inv) : ∀ n, (r n).Inv
  | 0 => h0
  | n + 1 => State.Inv.of_step (s := { r n with events := [e n] }) (hrun.inv h0 n) (hrun n)

/-- While the operation runs, each engine step brings it further. -/
theorem IsRun.engineSteps_le_rank (hrun : IsRun e r) (h0 : (r 0).Inv) (n : Nat)
    (hen : ∀ m, m ≤ n → (r m).EngineEnabled) : engineSteps e n ≤ (r n).rank := by
  induction n with
  | zero => exact Nat.zero_le _
  | succ n ih =>
    have hle := ih fun m hm => hen m (by omega)
    obtain ⟨hbusy, hr⟩ := hen (n + 1) (Nat.le_refl _)
    rcases step_progress (s := { r n with events := [e n] }) (hrun.inv h0 n) (hen n (by omega)) (hrun n) with
      hend | ⟨-, hkept, hfurther⟩
    · rcases hend with h | ⟨h, -⟩
      · exact absurd hr h
      · exact absurd h ((State.busy_iff _).1 hbusy)
    · rw [engineSteps_succ]
      split
      · rename_i he
        exact Nat.lt_of_le_of_lt hle (hfurther (.inr ⟨[], by rw [he]⟩))
      · exact Nat.le_trans hle hkept

/-- A schedule that keeps giving the engine the turn gives it any number of steps. -/
theorem engineSteps_unbounded (hfair : ∀ n, ∃ m, n ≤ m ∧ e m = .engine) (k : Nat) : ∃ n, k ≤ engineSteps e n := by
  have mono : ∀ n d, engineSteps e n ≤ engineSteps e (n + d) := by
    intro n d
    induction d with
    | zero => exact Nat.le_refl _
    | succ d ih => rw [← Nat.add_assoc, engineSteps_succ]; omega
  induction k with
  | zero => exact ⟨0, Nat.zero_le _⟩
  | succ k ih =>
    obtain ⟨n, hn⟩ := ih
    obtain ⟨m, hm, he⟩ := hfair n
    refine ⟨m + 1, ?_⟩
    have := mono n (m - n)
    rw [Nat.add_sub_cancel' hm] at this
    rw [engineSteps_succ, if_pos he]
    omega

/-- In a fair run a running operation does not stay running. -/
theorem IsRun.stops (hrun : IsRun e r) (hfair : IsFair e r) (h0 : (r 0).Inv) : ∃ n, ¬(r n).EngineEnabled := by
  by_contra hall
  simp only [not_exists, not_not] at hall
  obtain ⟨n, hn⟩ := engineSteps_unbounded (fun n => hfair n fun m _ => hall m) (1027 + 2 ^ 32)
  have hrank := hrun.engineSteps_le_rank h0 n fun m _ => hall m
  have := (hrun.inv h0 n).rank_le ((State.busy_iff _).1 (hall n).1)
  have := (r n).bitlen.isLt
  omega

end Run

/-- Settles O55: the first state that is not running comes from a step that ends the operation; the rank of the last
running state bounds the engine steps before it. -/
theorem everyFairRunEndsItsOperation : Obligations.EveryFairRunEndsItsOperation := by
  classical
  intro e r hrun hfair h0 hp hr
  have hstops := hrun.stops hfair h0
  obtain ⟨n, hn⟩ : ∃ n, Nat.find hstops = n + 1 := Nat.exists_eq_succ_of_ne_zero fun hzero =>
    (hzero ▸ Nat.find_spec hstops : ¬(r 0).EngineEnabled) ⟨(State.busy_iff _).2 hp, hr⟩
  have hstop : ¬(r (n + 1)).EngineEnabled := hn ▸ Nat.find_spec hstops
  have hen : ∀ m, m ≤ n → (r m).EngineEnabled := fun m hm => not_not.1 (Nat.find_min hstops (by omega))
  have hphase : ∀ m, m ≤ n → (r m).phase ≠ 0#4 := fun m hm => (State.busy_iff _).1 (hen m hm).1
  have hle := hrun.engineSteps_le_rank h0 n hen
  have hrank := (hrun.inv h0 n).rank_le (hphase n (Nat.le_refl n))
  refine ⟨n, fun m hm => ⟨hphase m hm, (hen m hm).2⟩, ?_, ?_⟩
  · rcases step_progress (s := { r n with events := [e n] }) (hrun.inv h0 n) (hen n (Nat.le_refl n)) (hrun n) with
      hend | ⟨hen', -⟩
    · refine hend.imp_right (And.imp_right (Or.imp_left ?_))
      rintro ⟨rest, he⟩
      exact (List.cons.inj he).1
    · exact absurd hen' hstop
  · rw [engineSteps_succ]
    split <;> omega

end Sys2Proof.Machine

/-! ### The reference producer -/

namespace Sys2Proof.Machine

@[simp] theorem length_pack (c : List Bool) : (pack c).length = ceil8 c.length := by simp [pack]

/-- The packed bits are the sequence, and 0 past its end (rule R132). -/
theorem packedBit_pack (c : List Bool) {i : Nat} (hi : i < 8 * ceil8 c.length) :
    packedBit (pack c) i = c.getD i false := by
  have hbit : 8 * (i / 8) + (7 - (7 - i % 8)) = i := by omega
  rw [pack, packedBit_map_range _ hi, packByte, getLsbD_ofBits, hbit]
  simp [show 7 - i % 8 < 8 by omega]

/-- Every bit of a sequence lies inside its bytes. -/
theorem le_eight_mul_ceil8 (n : Nat) : n ≤ 8 * ceil8 n := by
  unfold ceil8
  omega

/-- Settles O57: a bit length below 2^32 is the length itself, and the packed bits are the codes and then 0. -/
theorem packedCodesMakeAWellFormedContainer : Obligations.PackedCodesMakeAWellFormedContainer := by
  intro T ks hwf hpf hks hlt
  have hlen : (BitVec.ofNat 32 (concatCodes T ks).length).toNat = (concatCodes T ks).length := by
    rw [BitVec.toNat_ofNat, Nat.mod_eq_of_lt hlt]
  have hcarries : Carries (BitVec.ofNat 32 (concatCodes T ks).length) T (pack (concatCodes T ks)) ks := by
    refine ⟨hks, hlen.symm, fun i hi => packedBit_pack _ ?_⟩
    rw [hlen] at hi
    exact Nat.lt_of_lt_of_le hi (le_eight_mul_ceil8 _)
  refine ⟨⟨hwf, ⟨by rw [length_pack, hlen], fun i hge hi => ?_⟩, hpf, ks, hcarries⟩, hcarries⟩
  rw [length_pack] at hi
  rw [hlen] at hge
  rw [packedBit_pack _ hi]
  exact List.getD_eq_default _ _ hge

end Sys2Proof.Machine

/-! ### Loading a serialized table -/

namespace Sys2Proof.Machine

variable {s t : State}

/-- The engine alone moves and has the turn in phase p. -/
def State.Turn (s : State) (p : BitVec 4) : Prop := s.events = [] ∧ s.refused = none ∧ s.phase = p

/-- The turn runs the instruction the phase selects. -/
theorem State.Turn.step_eq {p : BitVec 4} (h : s.Turn p) : step s = exec (decodePhase p) s := by
  obtain ⟨he, hr, rfl⟩ := h
  exact step_engine_nil he hr

/-- The engine keeps the turn while no event comes and nothing is refused. -/
theorem State.Turn.next {p q : BitVec 4} (h : s.Turn p) (he : t.events = s.events) (hr : t.refused = s.refused)
    (hp : t.phase = q) : t.Turn q := by
  obtain ⟨hse, hsr, -⟩ := h
  exact ⟨he.trans hse, hr.trans hsr, hp⟩

@[simp] theorem State.holdsBytes_nil (s : State) (a : Nat) : s.holdsBytes a [] := nofun

theorem State.holdsBytes_cons (s : State) (a : Nat) (b : Byte) (bs : List Byte) :
    s.holdsBytes a (b :: bs) ↔ s.inbuf.read a = some b ∧ s.holdsBytes (a + 1) bs := by
  constructor
  · intro h
    refine ⟨h 0 (by simp), fun k hk => ?_⟩
    have hk' := h (k + 1) (by simpa using hk)
    simpa [Nat.add_assoc, Nat.add_comm 1] using hk'
  · rintro ⟨h0, h⟩ k hk
    cases k with
    | zero => exact h0
    | succ k =>
      have hk' := h k (by simpa using hk)
      simpa [Nat.add_assoc, Nat.add_comm 1] using hk'

theorem State.holdsBytes_append (s : State) (bs cs : List Byte) : ∀ a, s.holdsBytes a (bs ++ cs) ↔
    s.holdsBytes a bs ∧ s.holdsBytes (a + bs.length) cs := by
  induction bs with
  | nil => simp
  | cons b bs ih =>
    intro a
    rw [List.cons_append, State.holdsBytes_cons, State.holdsBytes_cons, ih, List.length_cons, and_assoc,
      Nat.add_assoc, Nat.add_comm 1]

/-- The stored entry is the table's: its symbol, its length, its code bits in order (rules R130, R140). -/
def Entry.Holds (x : Entry) (e : Byte × List Bool) : Prop :=
  x.sym = e.1 ∧ x.len.toNat = e.2.length ∧ ∀ j, j < e.2.length → x.code.getLsbD j = e.2.getD j false

/-- What the table steps can write. -/
def TableFrame (s t : State) : Prop :=
  t = { s with
    phase := t.phase, pos := t.pos, ent := t.ent, tblCount := t.tblCount, tblValid := t.tblValid, tblPf := t.tblPf,
    done := t.done }

theorem TableFrame.trans {u : State} (h1 : TableFrame s u) (h2 : TableFrame u t) : TableFrame s t := by
  unfold TableFrame at h2
  rw [h1] at h2
  exact h2

/-- A code of 1 to 255 bits (rule R130). -/
def LegalCode (c : List Bool) : Prop := 1 ≤ c.length ∧ c.length ≤ 255

theorem length_entryBytes (e : Byte × List Bool) (mk : Byte) : (entryBytes e mk).length = 3 + ceil8 e.2.length := by
  simp only [entryBytes, List.length_cons, List.length_append, length_pack, List.length_nil]
  omega

/-- The symbol read into the open entry (rule R136). -/
def State.symbolRead (s : State) (b : Byte) : State := s.stored { s.openEntry with sym := b } 1 Phase.tLen

/-- The code length read into the open entry (rule R137). -/
def State.lengthRead (s : State) (len : Byte) : State := s.stored { s.openEntry with len := len } 1 Phase.tCode

/-- The code read into the open entry (rule R138). -/
def State.codeRead (s : State) (bytes : List Byte) : State :=
  s.stored { s.openEntry with code := unpackCode s.openEntry.len.toNat bytes } (BitVec.ofNat 32 bytes.length)
    Phase.tMark

theorem State.Turn.reads_symbol {b : Byte} (ht : s.Turn 0x2#4) (hc : s.tblCount.toNat < 256)
    (hin : s.pos.toNat + 1 ≤ s.inLen.toNat) (hb : s.inbuf.read s.pos.toNat = some b) :
    step s = .next (s.symbolRead b) ∧ (s.symbolRead b).Turn 0x3#4
      ∧ (s.symbolRead b).pos.toNat = s.pos.toNat + 1 :=
  ⟨ht.step_eq.trans (execTSym_byte hc hin hb), ht.next rfl rfl rfl, State.toNat_pos_add hin⟩

theorem State.Turn.reads_length {len : Byte} (ht : s.Turn 0x3#4) (hc : s.tblCount.toNat < 256)
    (hin : s.pos.toNat + 1 ≤ s.inLen.toNat) (hb : s.inbuf.read s.pos.toNat = some len) (h0 : len.toNat ≠ 0) :
    step s = .next (s.lengthRead len) ∧ (s.lengthRead len).Turn 0x4#4
      ∧ (s.lengthRead len).pos.toNat = s.pos.toNat + 1 ∧ (s.lengthRead len).openEntry.len = len :=
  ⟨ht.step_eq.trans (execTLen_byte hc hin hb h0), ht.next rfl rfl rfl, State.toNat_pos_add hin,
    congrArg Entry.len (s.stored_entry_open _ 1 Phase.tCode)⟩

theorem State.Turn.reads_code {bytes : List Byte} (ht : s.Turn 0x4#4) (hc : s.tblCount.toNat < 256)
    (hn : bytes.length = ceil8 s.openEntry.len.toNat) (hin : s.pos.toNat + bytes.length ≤ s.inLen.toNat)
    (hb : s.holdsBytes s.pos.toNat bytes) :
    step s = .next (s.codeRead bytes) ∧ (s.codeRead bytes).Turn 0x5#4
      ∧ (s.codeRead bytes).pos.toNat = s.pos.toNat + bytes.length :=
  ⟨ht.step_eq.trans (execTCode_bytes hc hn hin hb), ht.next rfl rfl rfl, State.toNat_pos_add hin⟩

/-- The three reads leave the entry with the symbol, the length and the code read. -/
theorem State.entry_of_reads (s : State) (b len : Byte) (bytes : List Byte) :
    (((s.symbolRead b).lengthRead len).codeRead bytes).entry s.tblCount.toNat
      = { sym := b, len := len, code := unpackCode len.toNat bytes } := by
  have hopen1 : (s.symbolRead b).openEntry = { s.openEntry with sym := b } := s.stored_entry_open _ _ _
  have hopen2 : ((s.symbolRead b).lengthRead len).openEntry = { (s.symbolRead b).openEntry with len := len } :=
    (s.symbolRead b).stored_entry_open _ _ _
  refine (((s.symbolRead b).lengthRead len).stored_entry_open _ _ _).trans ?_
  rw [hopen2, hopen1]

/-- T_SYM, T_LEN and T_CODE over one entry's bytes store the entry and stop at its marker (rules R131, R136 to
R138). -/
theorem State.loads_entry {e : Byte × List Bool} {mk : Byte} (ht : s.Turn 0x2#4) (hc : s.tblCount.toNat < 256)
    (hcode : LegalCode e.2) (hb : s.holdsBytes s.pos.toNat (entryBytes e mk))
    (hin : s.pos.toNat + (entryBytes e mk).length ≤ s.inLen.toNat) :
    ∃ u, runSteps 3 s = .next u ∧ u.Turn 0x5#4 ∧ TableFrame s u ∧ u.tblCount = s.tblCount
      ∧ u.pos.toNat + 1 = s.pos.toNat + (entryBytes e mk).length ∧ u.inbuf.read u.pos.toNat = some mk
      ∧ (u.entry s.tblCount.toNat).Holds e ∧ ∀ i, i ≠ s.tblCount.toNat → u.entry i = s.entry i := by
  obtain ⟨hlo, hhi⟩ := hcode
  rw [length_entryBytes] at hin ⊢
  simp only [entryBytes, State.holdsBytes_cons, State.holdsBytes_append] at hb
  obtain ⟨hsym, hlen, hbits, hmark, -⟩ := hb
  have hL : (BitVec.ofNat 8 e.2.length).toNat = e.2.length := by
    rw [BitVec.toNat_ofNat, Nat.mod_eq_of_lt (by omega)]
  generalize BitVec.ofNat 8 e.2.length = L at hlen hL
  obtain ⟨run1, turn1, pos1⟩ := ht.reads_symbol hc (by omega) hsym
  have in1 : (s.symbolRead e.1).pos.toNat + 1 ≤ s.inLen.toNat := by omega
  obtain ⟨run2, turn2, pos2, len2⟩ := turn1.reads_length hc in1 (by rw [pos1]; exact hlen) (by omega)
  have in2 : ((s.symbolRead e.1).lengthRead L).pos.toNat + (pack e.2).length ≤ s.inLen.toNat := by
    rw [length_pack]; omega
  obtain ⟨run3, turn3, pos3⟩ := turn2.reads_code (bytes := pack e.2) hc (by rw [len2, hL, length_pack]) in2
    (by rw [pos2, pos1]; exact hbits)
  have pos3' : (((s.symbolRead e.1).lengthRead L).codeRead (pack e.2)).pos.toNat
      = s.pos.toNat + 1 + 1 + (pack e.2).length := by rw [pos3, pos2, pos1]
  refine ⟨_, (runSteps_succ 2 run1).trans ((runSteps_succ 1 run2).trans (runSteps_one run3)), turn3, rfl, rfl, ?_, ?_,
    ?_, fun i hi => ?_⟩
  · rw [pos3', length_pack]; omega
  · rw [pos3']
    exact hmark
  · rw [State.entry_of_reads, hL]
    refine ⟨rfl, hL, fun j hj => ?_⟩
    rw [getLsbD_unpackCode _ _ _ (by omega), packedBit_pack _ (Nat.lt_of_lt_of_le hj (le_eight_mul_ceil8 _))]
    simp [hj]
  · exact (((s.symbolRead e.1).lengthRead L).stored_entry_ne _ _ _ hi).trans
      (((s.symbolRead e.1).stored_entry_ne _ _ _ hi).trans (s.stored_entry_ne _ _ _ hi))

/-- The table is loaded from entry n on: what T_MARK leaves after the sentinel (rules R139, R140). -/
def State.Loaded (s t : State) (n : Nat) (T : CodeTable) : Prop :=
  TableFrame s t ∧ t.tblValid = true ∧ t.tblCount.toNat = n + T.length
    ∧ t.pos.toNat = s.pos.toNat + (serialize T).length
    ∧ (∀ i, i < T.length → (t.entry (n + i)).Holds (T.getD i (0, [])))
    ∧ (∀ i, i < n → t.entry i = s.entry i)
    ∧ (s.op = 1#2 → t.phase = 0x6#4) ∧ (s.op = 2#2 → t.phase = 0x0#4 ∧ t.done = true)

/-- The last entry: its marker is the sentinel. -/
theorem State.loads_last {e : Byte × List Bool} (ht : s.Turn 0x2#4) (hop : s.op = 1#2 ∨ s.op = 2#2)
    (hc : s.tblCount.toNat < 256) (hcode : LegalCode e.2) (hb : s.holdsBytes s.pos.toNat (serialize [e]))
    (hin : s.pos.toNat + (serialize [e]).length ≤ s.inLen.toNat) :
    ∃ t, runSteps 4 s = .next t ∧ s.Loaded t s.tblCount.toNat [e] := by
  obtain ⟨u, hrun, hturn, hframe, hcount, hpos, hmark, hentry, hother⟩ := State.loads_entry ht hc hcode hb hin
  have hinLen : u.inLen = s.inLen := by rw [hframe]
  have huop : u.op = s.op := by rw [hframe]
  have hin' : u.pos.toNat + 1 ≤ u.inLen.toNat := by rw [hinLen, hpos]; exact hin
  have hlast : step u = execLast u := hturn.step_eq.trans (execTMark_eq hin' hmark)
  have hended : u.tableEnded.tblCount.toNat = s.tblCount.toNat + 1 := by
    rw [← hcount]
    exact State.toNat_commitEntry_tblCount (hcount ▸ hc)
  have hpos' : u.tableEnded.pos.toNat = s.pos.toNat + (serialize [e]).length :=
    (State.toNat_pos_add (s := u) hin').trans hpos
  have hnew : ∀ i, i < [e].length → (u.entry (s.tblCount.toNat + i)).Holds ([e].getD i (0, [])) := by
    intro i hi
    obtain rfl : i = 0 := by simpa using hi
    exact hentry
  have hold : ∀ i, i < s.tblCount.toNat → u.entry i = s.entry i := fun i hi => hother i (Nat.ne_of_lt hi)
  rcases hop with hop | hop
  · refine ⟨{ u.tableEnded with phase := Phase.pCheck },
      (runSteps_add 1 hrun).trans (runSteps_one (hlast.trans (execLast_payload (huop.trans hop)))), hframe.trans rfl,
      rfl, hended, hpos', hnew, hold, fun _ => rfl, fun h => ?_⟩
    rw [hop] at h
    cases h
  · have hne : u.op ≠ 1#2 := by rw [huop, hop]; decide
    refine ⟨u.tableEnded.complete, (runSteps_add 1 hrun).trans (runSteps_one (hlast.trans (execLast_complete hne))),
      hframe.trans rfl, rfl, hended, hpos', hnew, hold, fun h => ?_, fun _ => ⟨rfl, rfl⟩⟩
    rw [hop] at h
    cases h

/-- An entry that is not the last: its marker is 0x00, and T_SYM comes again with the entry committed. -/
theorem State.loads_next {e : Byte × List Bool} (ht : s.Turn 0x2#4) (hc : s.tblCount.toNat < 255)
    (hcode : LegalCode e.2) (hb : s.holdsBytes s.pos.toNat (entryBytes e 0x00))
    (hin : s.pos.toNat + (entryBytes e 0x00).length ≤ s.inLen.toNat) :
    ∃ v, runSteps 4 s = .next v ∧ v.Turn 0x2#4 ∧ TableFrame s v ∧ v.tblCount.toNat = s.tblCount.toNat + 1
      ∧ v.pos.toNat = s.pos.toNat + (entryBytes e 0x00).length
      ∧ (v.entry s.tblCount.toNat).Holds e ∧ ∀ i, i ≠ s.tblCount.toNat → v.entry i = s.entry i := by
  obtain ⟨u, hrun, hturn, hframe, hcount, hpos, hmark, hentry, hother⟩ :=
    State.loads_entry ht (by omega) hcode hb hin
  have hinLen : u.inLen = s.inLen := by rw [hframe]
  have hin' : u.pos.toNat + 1 ≤ u.inLen.toNat := by rw [hinLen, hpos]; exact hin
  have hc' : u.tblCount.toNat < 255 := hcount ▸ hc
  have hnext : step u = execCont u := hturn.step_eq.trans (execTMark_eq hin' hmark)
  refine ⟨{ u.commitEntry with phase := Phase.tSym },
    (runSteps_add 1 hrun).trans (runSteps_one (hnext.trans (execCont_tSym hc'))), hturn.next rfl rfl rfl, hframe.trans rfl, ?_,
    (State.toNat_pos_add (s := u) hin').trans hpos, hentry, hother⟩
  rw [← hcount]
  exact State.toNat_commitEntry_tblCount (s := u) (by omega)

/-- The table steps over a serialized table load it, by induction over its entries (rule R140). -/
theorem State.loads_table (T : CodeTable) : ∀ {s : State}, T ≠ [] → (∀ e ∈ T, LegalCode e.2) → s.Turn 0x2#4 →
    s.op = 1#2 ∨ s.op = 2#2 → s.tblCount.toNat + T.length ≤ 256 → s.holdsBytes s.pos.toNat (serialize T) →
    s.pos.toNat + (serialize T).length ≤ s.inLen.toNat →
    ∃ t, runSteps (4 * T.length) s = .next t ∧ s.Loaded t s.tblCount.toNat T := by
  induction T with
  | nil => exact fun h => absurd rfl h
  | cons e T ih =>
    intro s _ hcodes ht hop hsize hb hin
    have hcode := hcodes e (List.mem_cons_self ..)
    cases T with
    | nil => exact State.loads_last ht hop (by simpa using Nat.lt_of_succ_le hsize) hcode hb hin
    | cons f T =>
      simp only [serialize, State.holdsBytes_append, List.length_append, List.length_cons] at hb hin hsize
      obtain ⟨hb1, hb2⟩ := hb
      obtain ⟨v, hrun, hturn, hframe, hcount, hpos, hentry, hother⟩ :=
        State.loads_next ht (by omega) hcode hb1 (by omega)
      have hbuf : v.inbuf = s.inbuf := by rw [hframe]
      have hlen : v.inLen = s.inLen := by rw [hframe]
      have hvop : v.op = s.op := by rw [hframe]
      obtain ⟨t, hrest, hload, hvalid, htcount, htpos, hnew, hold, hphase⟩ :=
        ih nofun (fun x hx => hcodes x (List.mem_cons_of_mem e hx)) hturn (hvop ▸ hop)
          (by rw [hcount, List.length_cons]; omega) (by rw [hpos]; unfold State.holdsBytes; rw [hbuf]; exact hb2)
          (by rw [hpos, hlen]; omega)
      refine ⟨t, ?_, hframe.trans hload, hvalid, ?_, ?_, fun i hi => ?_, fun i hi => ?_, hvop ▸ hphase⟩
      · rw [List.length_cons, Nat.mul_succ, Nat.add_comm]
        exact (runSteps_add _ hrun).trans hrest
      · simp only [htcount, hcount, List.length_cons]; omega
      · rw [htpos, hpos, serialize, List.length_append, Nat.add_assoc]
      · cases i with
        | zero =>
          rw [Nat.add_zero, hold _ (by omega)]
          exact hentry
        | succ i =>
          have hi' := hnew i (by simpa using hi)
          rw [hcount, Nat.add_assoc, Nat.add_comm 1] at hi'
          exact hi'
      · rw [hold i (by omega), hother i (Nat.ne_of_lt hi)]

/-- Rule R130's conditions. -/
theorem CodeTable.wf_iff (T : CodeTable) :
    T.wf = true ↔ (1 ≤ T.length ∧ T.length ≤ 256) ∧ ∀ e ∈ T, LegalCode e.2 := by
  simp only [CodeTable.wf, Bool.and_eq_true, decide_eq_true_eq, List.all_eq_true, LegalCode]

/-- A well-formed table loads from an empty store (rules R140, R141). -/
theorem State.loads_wf_table {T : CodeTable} (hwf : T.wf = true) (ht : s.Turn 0x2#4) (hop : s.op = 1#2 ∨ s.op = 2#2)
    (hc : s.tblCount = 0#9) (hb : s.holdsBytes s.pos.toNat (serialize T))
    (hin : s.pos.toNat + (serialize T).length ≤ s.inLen.toNat) :
    ∃ t, runSteps (4 * T.length) s = .next t ∧ s.Loaded t 0 T := by
  obtain ⟨⟨hlo, hhi⟩, hcodes⟩ := T.wf_iff.1 hwf
  have hzero : s.tblCount.toNat = 0 := by rw [hc]; rfl
  rw [← hzero]
  exact State.loads_table T (by rintro rfl; simp at hlo) hcodes ht hop (by omega) hb hin

/-- Settles O58: the table is loaded from entry 0 on. -/
theorem serializedTableLoadsBack : Obligations.SerializedTableLoadsBack := by
  intro s T hwf he hr hp hop hc hb hin
  obtain ⟨t, hrun, -, hvalid, hcount, hpos, hentries, -, hphase⟩ :=
    State.loads_wf_table hwf ⟨he, hr, hp⟩ hop hc hb hin
  simp only [Nat.zero_add] at hcount hentries
  exact ⟨t, hrun, hvalid, hcount, hpos, hentries, hphase⟩

end Sys2Proof.Machine

/-! ### Decoding a payload -/

namespace Sys2Proof.Machine

variable {s t : State}

/-- What the DECODE steps can write while they raise nothing and the accumulator does not overflow. -/
def DecodeFrame (s t : State) : Prop :=
  t = { s with
    phase := t.phase, cursor := t.cursor, acc := t.acc, accLen := t.accLen, outLen := t.outLen, outbuf := t.outbuf }

theorem DecodeFrame.trans {u : State} (h1 : DecodeFrame s u) (h2 : DecodeFrame u t) : DecodeFrame s t := by
  unfold DecodeFrame at h2
  rw [h1] at h2
  exact h2

theorem DecodeFrame.entry_eq (h : DecodeFrame s t) (i : Nat) : t.entry i = s.entry i := by
  rw [h]
  rfl

/-- The engine alone moves, over a prefix-free table and an accumulator that has not overflowed. -/
structure State.Decodes (s : State) : Prop where
  events : s.events = []
  refused : s.refused = none
  tblPf : s.tblPf = true
  free : s.prefixFree s.tblCount.toNat = true
  accOvf : s.accOvf = false

theorem State.Decodes.of_frame (h : s.Decodes) (hf : DecodeFrame s t) : t.Decodes := by
  rw [hf]
  exact ⟨h.events, h.refused, h.tblPf, h.free, h.accOvf⟩

theorem State.Decodes.step_decode (h : s.Decodes) (hp : s.phase = 0x7#4) : step s = exec .decodeStep s :=
  State.Turn.step_eq ⟨h.events, h.refused, hp⟩

/-- DECODE while a bit is left, FINISH after the last one (rule R184). -/
def State.AtBit (s : State) : Prop :=
  (s.cursor.toNat = s.bitlen.toNat → s.phase = 0x8#4) ∧ (s.cursor.toNat ≠ s.bitlen.toNat → s.phase = 0x7#4)

/-- The payload's next bits, from the cursor on, are these, and each of their bytes was written (rule R181). -/
def State.Ahead (s : State) (bits : List Bool) : Prop :=
  ∀ i, i < bits.length → s.cursor.toNat + i < s.bitlen.toNat
    ∧ ∃ b : Byte, s.inbuf.read (s.paybase.toNat + (s.cursor.toNat + i) / 8) = some b
      ∧ b.getLsbD (7 - (s.cursor.toNat + i) % 8) = bits.getD i false

theorem State.Ahead.left {l m : List Bool} (h : s.Ahead (l ++ m)) : s.Ahead l := fun i hi => by
  have hi' := h i (by rw [List.length_append]; omega)
  rwa [List.getD_append _ _ _ _ hi] at hi'

/-- Once the first bits are decoded the others lie ahead. -/
theorem State.Ahead.right {l m : List Bool} (h : s.Ahead (l ++ m)) (hf : DecodeFrame s t)
    (hc : t.cursor.toNat = s.cursor.toNat + l.length) : t.Ahead m := fun i hi => by
  have hi' := h (l.length + i) (by rw [List.length_append]; omega)
  rw [List.getD_append_right _ _ _ _ (Nat.le_add_right _ _), Nat.add_sub_cancel_left, ← Nat.add_assoc, ← hc] at hi'
  have hin : t.inbuf = s.inbuf := by rw [hf]
  have hpay : t.paybase = s.paybase := by rw [hf]
  have hbit : t.bitlen = s.bitlen := by rw [hf]
  rw [hin, hpay, hbit]
  exact hi'

/-- An entry's code as a bit sequence (rule R29). -/
def State.codeBits (s : State) (k : Nat) : List Bool :=
  (List.range (s.entry k).len.toNat).map fun j => (s.entry k).code.getLsbD j

@[simp] theorem State.length_codeBits (s : State) (k : Nat) : (s.codeBits k).length = (s.entry k).len.toNat := by
  simp [State.codeBits]

theorem State.getD_codeBits (s : State) {k j : Nat} (hj : j < (s.entry k).len.toNat) :
    (s.codeBits k).getD j false = (s.entry k).code.getLsbD j := by
  simp [State.codeBits, hj]

theorem DecodeFrame.codeBits_eq (h : DecodeFrame s t) : t.codeBits = s.codeBits := by
  funext k
  rw [State.codeBits, State.codeBits, h.entry_eq]

/-- From s on, m bits of entry k's code are decoded and none of its symbol emitted. -/
structure State.MidCode (s t : State) (k m : Nat) : Prop where
  frame : DecodeFrame s t
  phase : t.phase = 0x7#4
  cursor : t.cursor.toNat = s.cursor.toNat + m
  accLen : t.accLen.toNat = m
  acc : ∀ j, j < m → t.acc.getLsbD j = (s.entry k).code.getLsbD j
  outLen : t.outLen = s.outLen
  outbuf : t.outbuf = s.outbuf

/-- The next bit of the code is the payload's. -/
theorem State.MidCode.next_bit {k m : Nat} (ht : s.MidCode t k m) (hahead : s.Ahead (s.codeBits k))
    (hm : m < (s.entry k).len.toNat) :
    t.cursor.toNat < t.bitlen.toNat ∧ ∃ b : Byte, t.inbuf.read (t.paybase.toNat + t.cursor.toNat / 8) = some b
      ∧ (s.entry k).code.getLsbD m = b.getLsbD (7 - t.cursor.toNat % 8) := by
  obtain ⟨hlt, b, hread, hbit⟩ := hahead m (by simpa using hm)
  have hin : t.inbuf = s.inbuf := by rw [ht.frame]
  have hpay : t.paybase = s.paybase := by rw [ht.frame]
  have hlen : t.bitlen = s.bitlen := by rw [ht.frame]
  rw [ht.cursor, hin, hpay, hlen]
  exact ⟨hlt, b, hread, (s.getD_codeBits hm).symm.trans hbit.symm⟩

/-- Over a prefix-free table no entry ends inside another's code (rules R180, R184). -/
theorem State.MidCode.no_match {k m : Nat} (ht : s.MidCode t k m) (h : s.Decodes) (hk : k < s.tblCount.toNat)
    (hm : m + 1 < (s.entry k).len.toNat) {b : Bool} (hb : (s.entry k).code.getLsbD m = b) (i : Nat)
    (hi : i < t.tblCount.toNat) : ¬t.EntryIsAccThen i b := by
  have hcount : t.tblCount = s.tblCount := by rw [ht.frame]
  rintro ⟨hlen, hbits, hlast⟩
  rw [ht.accLen, ht.frame.entry_eq] at hlen
  simp only [ht.accLen, ht.frame.entry_eq] at hbits hlast
  have hne : i ≠ k := by rintro rfl; omega
  refine (s.prefixFree_iff_bits _).1 h.free i k (hcount ▸ hi) hk hne ⟨by omega, fun j hj => ?_⟩
  rw [hlen] at hj
  rcases Nat.lt_succ_iff_lt_or_eq.1 hj with hj | rfl
  · exact (hbits j hj).trans (ht.acc j hj)
  · exact hlast.trans hb.symm

section OneCode

variable {k : Nat} (h : s.Decodes) (hk : k < s.tblCount.toNat) (hahead : s.Ahead (s.codeBits k))
include h hk hahead

/-- Every proper prefix of a code is accumulated, one engine step a bit. -/
theorem State.Decodes.accumulates (hp : s.phase = 0x7#4) (h0 : s.accLen = 0#8) (m : Nat) :
    m < (s.entry k).len.toNat → ∃ t, runSteps m s = .next t ∧ s.MidCode t k m := by
  induction m with
  | zero => exact fun _ => ⟨s, rfl, rfl, hp, rfl, by rw [h0]; rfl, nofun, rfl, rfl⟩
  | succ m ih =>
    intro hm
    obtain ⟨t, hrun, ht⟩ := ih (by omega)
    obtain ⟨hlt, b, hread, hbit⟩ := ht.next_bit hahead (by omega)
    have hd := h.of_frame ht.frame
    have hlen : t.accLen.toNat < 255 := by
      have := (s.entry k).len.isLt
      rw [ht.accLen]
      omega
    obtain ⟨u, hstep, hcur, hacc, hold, hnew, -, hmore, hframe⟩ := decodeStepAccumulates t b hd.tblPf hlt hread
      hd.accOvf hlen (ht.no_match h hk hm hbit)
    have hlast := (hahead (m + 1) (by simpa using hm)).1
    have hbitlen : t.bitlen = s.bitlen := by rw [ht.frame]
    refine ⟨u, (runSteps_add 1 hrun).trans (runSteps_one ((hd.step_decode ht.phase).trans hstep)),
      ht.frame.trans (hframe.trans ?_), ?_, ?_, ?_, fun j hj => ?_, ?_, ?_⟩
    · rw [hframe]
    · exact (hmore (by rw [ht.cursor, hbitlen]; omega)).trans ht.phase
    · rw [hcur, ht.cursor]; omega
    · rw [hacc, ht.accLen]
    · rw [ht.accLen] at hold hnew
      rcases Nat.lt_succ_iff_lt_or_eq.1 hj with hj | rfl
      · exact (hold j hj).trans (ht.acc j hj)
      · exact hnew.trans hbit.symm
    · exact (show u.outLen = t.outLen by rw [hframe]).trans ht.outLen
    · exact (show u.outbuf = t.outbuf by rw [hframe]).trans ht.outbuf

/-- The last bit of a code with room in the output: the symbol is emitted (rules R184, R185). -/
theorem State.Decodes.emits (hp : s.phase = 0x7#4) (h0 : s.accLen = 0#8) (hpos : 1 ≤ (s.entry k).len.toNat)
    (hroom : s.outLen.toNat < s.outCap.toNat) :
    ∃ u, runSteps (s.entry k).len.toNat s = .next u ∧ DecodeFrame s u ∧ u.AtBit ∧ u.accLen = 0#8
      ∧ u.cursor.toNat = s.cursor.toNat + (s.entry k).len.toNat ∧ u.outLen.toNat = s.outLen.toNat + 1
      ∧ u.outbuf.read s.outLen.toNat = some (s.entry k).sym
      ∧ ∀ a, a ≠ s.outLen.toNat → u.outbuf.read a = s.outbuf.read a := by
  obtain ⟨m, hm⟩ := Nat.exists_eq_succ_of_ne_zero (Nat.ne_of_gt hpos)
  obtain ⟨t, hrun, ht⟩ := h.accumulates hk hahead hp h0 m (by omega)
  obtain ⟨hlt, b, hread, hbit⟩ := ht.next_bit hahead (by omega)
  have hd := h.of_frame ht.frame
  have hlen := (s.entry k).len.isLt
  have hent := ht.frame.entry_eq k
  have hcap : t.outCap = s.outCap := by rw [ht.frame]
  have hcount : t.tblCount = s.tblCount := by rw [ht.frame]
  obtain ⟨u, hstep, hsym, hkept, hout, hcur, hacc, hlast, hmore, hframe⟩ := decodeStepEmitsTheMatchedSymbol t b k
    hd.tblPf hd.free hlt hread hd.accOvf (by rw [ht.accLen]; omega) (by rw [hcount]; exact hk)
    (by rw [hent, ht.accLen, hm]) (by rw [hent, ht.accLen]; exact fun j hj => (ht.acc j hj).symm)
    (by rw [hent, ht.accLen]; exact hbit) (by rw [ht.outLen, hcap]; exact hroom)
  have hbitlen : u.bitlen = t.bitlen := by rw [hframe]
  rw [ht.outLen, ht.outbuf] at hkept
  rw [ht.outLen] at hsym hout
  rw [hent] at hsym
  rw [ht.cursor] at hcur
  refine ⟨u, ?_, ht.frame.trans (hframe.trans (by rw [hframe])), ⟨fun he => ?_, fun hne => ?_⟩, hacc, by omega, hout,
    hsym, hkept⟩
  · rw [hm]
    exact (runSteps_add 1 hrun).trans (runSteps_one ((hd.step_decode ht.phase).trans hstep))
  · exact hlast (by rw [ht.cursor, ← hcur, he, hbitlen])
  · exact (hmore (by rw [ht.cursor, ← hcur, ← hbitlen]; exact hne)).trans ht.phase

/-- The last bit of a code with the output full: OUTPUT_OVERFLOW (rules R184, R185). -/
theorem State.Decodes.overflows (hp : s.phase = 0x7#4) (h0 : s.accLen = 0#8) (hpos : 1 ≤ (s.entry k).len.toNat)
    (hfull : s.outLen = s.outCap) :
    ∃ u, runSteps (s.entry k).len.toNat s = .next u ∧ u.err = true ∧ u.errcode = 0x08#8 ∧ u.phase = 0x0#4
      ∧ u.outLen = s.outCap := by
  obtain ⟨m, hm⟩ := Nat.exists_eq_succ_of_ne_zero (Nat.ne_of_gt hpos)
  obtain ⟨t, hrun, ht⟩ := h.accumulates hk hahead hp h0 m (by omega)
  obtain ⟨hlt, b, hread, hbit⟩ := ht.next_bit hahead (by omega)
  have hd := h.of_frame ht.frame
  have hlen := (s.entry k).len.isLt
  have hent := ht.frame.entry_eq k
  have hcap : t.outCap = s.outCap := by rw [ht.frame]
  have hcount : t.tblCount = s.tblCount := by rw [ht.frame]
  obtain ⟨u, hstep, -, -, -, hframe⟩ := decodeStepOverflowsAFullOutput t b k
    hd.tblPf hlt hread hd.accOvf (by rw [ht.accLen]; omega) (by rw [hcount]; exact hk)
    (by rw [hent, ht.accLen, hm]) (by rw [hent, ht.accLen]; exact fun j hj => (ht.acc j hj).symm)
    (by rw [hent, ht.accLen]; exact hbit) (by rw [ht.outLen, hcap]; exact hfull)
  refine ⟨u, ?_, by rw [hframe], by rw [hframe], by rw [hframe], ?_⟩
  · rw [hm]
    exact (runSteps_add 1 hrun).trans (runSteps_one ((hd.step_decode ht.phase).trans hstep))
  · rw [hframe, ← hfull]
    exact ht.outLen

end OneCode

/-- The symbols of entries `ks` stand in the output from s's `out_len` on, their codes are decoded, and the
accumulator is empty. -/
structure State.Decoded (s t : State) (ks : List Nat) : Prop where
  frame : DecodeFrame s t
  atBit : t.AtBit
  accLen : t.accLen = 0#8
  cursor : t.cursor.toNat = s.cursor.toNat + (ks.flatMap s.codeBits).length
  outLen : t.outLen.toNat = s.outLen.toNat + ks.length
  symbols : ∀ j, j < ks.length → t.outbuf.read (s.outLen.toNat + j) = some (s.entry (ks.getD j 0)).sym
  kept : ∀ a, a < s.outLen.toNat → t.outbuf.read a = s.outbuf.read a

/-- Codes one after the other decode to their symbols while the output has room, by induction over the codes
(rule R187). -/
theorem State.Decodes.symbols (ks : List Nat) : ∀ {s : State}, s.Decodes → s.AtBit → s.accLen = 0#8 →
    (∀ k, k < s.tblCount.toNat → 1 ≤ (s.entry k).len.toNat) → (∀ k ∈ ks, k < s.tblCount.toNat) →
    s.Ahead (ks.flatMap s.codeBits) → s.outLen.toNat + ks.length ≤ s.outCap.toNat →
    ∃ t, runSteps (ks.flatMap s.codeBits).length s = .next t ∧ s.Decoded t ks := by
  induction ks with
  | nil => exact fun {s} _ hat h0 _ _ _ _ => ⟨s, rfl, rfl, hat, h0, rfl, rfl, nofun, fun _ _ => rfl⟩
  | cons k ks ih =>
    intro s h hat h0 hpos hks hahead hroom
    simp only [List.flatMap_cons, List.length_cons] at hahead hroom ⊢
    have hk := hks k (List.mem_cons_self ..)
    have hfirst := hahead.left
    have hp : s.phase = 0x7#4 := hat.2 (by
      have hlt := (hfirst 0 (by rw [State.length_codeBits]; exact hpos k hk)).1
      omega)
    obtain ⟨u, hrun, hframe, hatu, hacc, hcur, hout, hsym, hkept⟩ := h.emits hk hfirst hp h0 (hpos k hk) (by omega)
    have hcount : u.tblCount = s.tblCount := by rw [hframe]
    have hcap : u.outCap = s.outCap := by rw [hframe]
    have hcodes := hframe.codeBits_eq
    obtain ⟨t, hrest, ht⟩ := ih (h.of_frame hframe) hatu hacc
      (fun i hi => by rw [hframe.entry_eq]; exact hpos i (hcount ▸ hi))
      (fun i hi => by rw [hcount]; exact hks i (List.mem_cons_of_mem k hi))
      (by rw [hcodes]; exact hahead.right hframe (by rw [hcur, State.length_codeBits])) (by rw [hout, hcap]; omega)
    have hcur' := ht.cursor
    have hsyms := ht.symbols
    have hold := ht.kept
    rw [hcodes] at hrest hcur'
    refine ⟨t, ?_, hframe.trans ht.frame, ht.atBit, ht.accLen, ?_, ?_, fun j hj => ?_, fun a ha => ?_⟩
    · rw [List.length_append, State.length_codeBits]
      exact (runSteps_add _ hrun).trans hrest
    · rw [List.flatMap_cons, List.length_append, State.length_codeBits, hcur', hcur, Nat.add_assoc]
    · rw [ht.outLen, hout, List.length_cons]; omega
    · cases j with
      | zero => exact (hold _ (by omega)).trans hsym
      | succ j =>
        have hj' := hsyms j (by simpa using hj)
        rw [hout, hframe.entry_eq, Nat.add_assoc, Nat.add_comm 1] at hj'
        exact hj'
    · rw [hold a (by omega), hkept a (Nat.ne_of_lt ha)]

/-- FINISH over an empty accumulator completes (rule R186). -/
theorem State.Decodes.finishes (h : s.Decodes) (hp : s.phase = 0x8#4) (h0 : s.accLen = 0#8) :
    step s = .next s.complete :=
  (State.Turn.step_eq ⟨h.events, h.refused, hp⟩).trans (if_pos ⟨h0, h.accOvf⟩)

/-- A whole payload of codes decodes and completes, one engine step a bit and FINISH (rule R187). -/
theorem State.Decodes.payload {ks : List Nat} (h : s.Decodes) (hat : s.AtBit) (h0 : s.accLen = 0#8)
    (hpos : ∀ k, k < s.tblCount.toNat → 1 ≤ (s.entry k).len.toNat) (hks : ∀ k ∈ ks, k < s.tblCount.toNat)
    (hahead : s.Ahead (ks.flatMap s.codeBits)) (hc : s.cursor = 0#32) (hout : s.outLen = 0#32)
    (hlen : (ks.flatMap s.codeBits).length = s.bitlen.toNat) (hroom : ks.length ≤ s.outCap.toNat) :
    ∃ t, runSteps (s.bitlen.toNat + 1) s = .next t.complete ∧ s.Decoded t ks ∧ t.cursor = s.bitlen := by
  have hc0 : s.cursor.toNat = 0 := by rw [hc]; rfl
  have hout0 : s.outLen.toNat = 0 := by rw [hout]; rfl
  obtain ⟨t, hrun, ht⟩ := h.symbols ks hat h0 hpos hks hahead (by omega)
  have hbit : t.bitlen = s.bitlen := by rw [ht.frame]
  have hcur : t.cursor.toNat = s.bitlen.toNat := by rw [ht.cursor, hc0, hlen, Nat.zero_add]
  have hfinish := (h.of_frame ht.frame).finishes (ht.atBit.1 (by rw [hcur, hbit])) ht.accLen
  rw [hlen] at hrun
  exact ⟨t, (runSteps_add 1 hrun).trans (runSteps_one hfinish), ht, BitVec.eq_of_toNat_eq hcur⟩

/-- A payload of more codes than the output has bytes: the code after OUT_CAP symbols overflows (rules R185, R187). -/
theorem State.Decodes.payload_overflows {ks : List Nat} (h : s.Decodes) (hat : s.AtBit) (h0 : s.accLen = 0#8)
    (hpos : ∀ k, k < s.tblCount.toNat → 1 ≤ (s.entry k).len.toNat) (hks : ∀ k ∈ ks, k < s.tblCount.toNat)
    (hahead : s.Ahead (ks.flatMap s.codeBits)) (hout : s.outLen = 0#32) (hfull : s.outCap.toNat < ks.length) :
    ∃ n t, n ≤ (ks.flatMap s.codeBits).length ∧ runSteps n s = .next t ∧ t.err = true ∧ t.errcode = 0x08#8
      ∧ t.phase = 0x0#4 ∧ t.outLen = s.outCap := by
  have hout0 : s.outLen.toNat = 0 := by rw [hout]; rfl
  obtain ⟨ks1, k, ks2, rfl, hlen1⟩ : ∃ ks1 k ks2, ks = ks1 ++ k :: ks2 ∧ ks1.length = s.outCap.toNat :=
    ⟨ks.take s.outCap.toNat, ks[s.outCap.toNat], ks.drop (s.outCap.toNat + 1), by simp, by simp; omega⟩
  rw [List.flatMap_append, List.flatMap_cons] at hahead ⊢
  have hk := hks k (by simp)
  obtain ⟨t, hrun, ht⟩ := h.symbols ks1 hat h0 hpos (fun i hi => hks i (List.mem_append_left _ hi)) hahead.left
    (by omega)
  have hcount : t.tblCount = s.tblCount := by rw [ht.frame]
  have hcap : t.outCap = s.outCap := by rw [ht.frame]
  have hent := ht.frame.entry_eq k
  have hnext : t.Ahead (t.codeBits k) := by
    rw [ht.frame.codeBits_eq]
    exact (hahead.right ht.frame ht.cursor).left
  have hp : t.phase = 0x7#4 := ht.atBit.2 (by
    have hlt := (hnext 0 (by rw [State.length_codeBits, hent]; exact hpos k hk)).1
    omega)
  obtain ⟨u, hover, herr, hcode, hphase, hulen⟩ := (h.of_frame ht.frame).overflows (by rw [hcount]; exact hk) hnext hp
    ht.accLen (by rw [hent]; exact hpos k hk)
    (BitVec.eq_of_toNat_eq (by rw [ht.outLen, hout0, hlen1, hcap, Nat.zero_add]))
  rw [hent] at hover
  refine ⟨_, u, ?_, (runSteps_add _ hrun).trans hover, herr, hcode, hphase, hulen.trans hcap⟩
  simp only [List.length_append, State.length_codeBits]
  omega

/-- Every committed code has at least one bit (rule R29). -/
theorem State.Inv.one_le_len (hs : s.Inv) {k : Nat} (hk : k < s.tblCount.toNat) : 1 ≤ (s.entry k).len.toNat := by
  obtain ⟨-, ⟨-, -, -, hent, -⟩, -⟩ := hs
  exact (hent k hk).1

/-- With the invariant, the recorded prefix-freeness of a valid table is the table's (rule R49). -/
theorem State.Inv.tblPf_eq (hs : s.Inv) (hv : s.tblValid = true) : s.tblPf = s.prefixFree s.tblCount.toNat := by
  obtain ⟨-, ⟨-, -, -, -, hvalid⟩, -⟩ := hs
  exact (hvalid hv).2

/-- Settles O59: the state is one that decodes, with the bits ahead of its cursor. -/
theorem concatenatedCodesDecodeToTheirSymbols : Obligations.ConcatenatedCodesDecodeToTheirSymbols := by
  intro s ks bits hs he hr hfree hzero hmore hc hout h0 hovf hks hbits hlen hpay
  have hc0 : s.cursor.toNat = 0 := by rw [hc]; rfl
  have hout0 : s.outLen.toNat = 0 := by rw [hout]; rfl
  have hphase : 7 ≤ s.phase.toNat := by
    by_cases hb : s.bitlen = 0#32
    · rw [hzero hb]; decide
    · rw [hmore hb]; decide
  obtain ⟨⟨hv, -⟩, -⟩ := hs.decodesPayload hphase
  obtain ⟨-, herr, -⟩ := hs.noFlags fun h => by simp [h] at hphase
  have hd : s.Decodes := ⟨he, hr, (hs.tblPf_eq hv).trans hfree, hfree, hovf⟩
  have hat : s.AtBit := ⟨fun h => hzero (BitVec.eq_of_toNat_eq (by rw [← h, hc0]; rfl)),
    fun h => hmore fun hb => h (by rw [hc0, hb]; rfl)⟩
  obtain rfl : bits = ks.flatMap s.codeBits := hbits
  have hahead : s.Ahead (ks.flatMap s.codeBits) := fun i hi => by
    rw [hc0, Nat.zero_add]
    exact ⟨hlen ▸ hi, hpay i hi⟩
  refine ⟨fun hroom => ?_, fun hfull => ?_⟩
  · obtain ⟨t, hrun, ht, hcur⟩ := hd.payload hat h0 (fun _ => hs.one_le_len) hks hahead hc hout hlen hroom
    refine ⟨t.complete, hrun, rfl, ?_, rfl, ?_, hcur, fun j hj => ?_⟩
    · exact (show t.err = s.err by rw [ht.frame]).trans herr
    · exact ht.outLen.trans (by rw [hout0, Nat.zero_add])
    · have hj' := ht.symbols j hj
      rw [hout0, Nat.zero_add] at hj'
      exact hj'
  · obtain ⟨n, t, hn, hrest⟩ := hd.payload_overflows hat h0 (fun _ => hs.one_le_len) hks hahead hout hfull
    exact ⟨n, t, hlen ▸ hn, hrest⟩

end Sys2Proof.Machine

/-! ### The round trip of a DECOMPRESS -/

namespace Sys2Proof.Machine

variable {s t : State}

/-- The header's bytes are the bit length again (rules R134, R160). -/
theorem be32_be32bytes (b : Word) :
    be32 (b.extractLsb' 24 8) (b.extractLsb' 16 8) (b.extractLsb' 8 8) (b.extractLsb' 0 8) = b := by
  apply BitVec.eq_of_toNat_eq
  have := b.isLt
  simp only [toNat_be32, BitVec.extractLsb'_toNat, Nat.shiftRight_eq_div_pow]
  omega

/-- The table's prefix-freeness, as rule R130 has it. -/
theorem CodeTable.prefixFree_iff (T : CodeTable) :
    T.prefixFree = true ↔ ∀ i j, i < T.length → j < T.length → i ≠ j →
      ¬((T.getD i (0, [])).2 <+: (T.getD j (0, [])).2) := by
  simp only [CodeTable.prefixFree, List.all_eq_true, List.mem_range, Bool.or_eq_true, beq_iff_eq, Bool.not_eq_true',
    ← Bool.not_eq_true, List.isPrefixOf_iff_prefix]
  exact ⟨fun h i j hi hj hij => (h i hi j hj).resolve_left hij, fun h i hi j hj => or_iff_not_imp_left.2 (h i j hi hj)⟩

/-- An entry that is a prefix of another holds a code that is a prefix of the other's. -/
theorem Entry.Holds.codes_prefix {x y : Entry} {e f : Byte × List Bool} (hx : x.Holds e) (hy : y.Holds f)
    (hlen : x.len.toNat ≤ y.len.toNat) (hbits : ∀ b, b < x.len.toNat → x.code.getLsbD b = y.code.getLsbD b) :
    e.2 <+: f.2 := by
  obtain ⟨-, hxl, hxb⟩ := hx
  obtain ⟨-, hyl, hyb⟩ := hy
  rw [hxl, hyl] at hlen
  refine List.prefix_iff_getElem.2 ⟨hlen, fun i hi => ?_⟩
  have h := (hxb i hi).symm.trans ((hbits i (by omega)).trans (hyb i (by omega)))
  rwa [List.getD_eq_getElem _ _ hi, List.getD_eq_getElem _ _ (by omega)] at h

/-- A store that holds the table's entries. -/
def State.HoldsTable (s : State) (T : CodeTable) : Prop :=
  s.tblCount.toNat = T.length ∧ ∀ i, i < T.length → (s.entry i).Holds (T.getD i (0, []))

theorem State.HoldsTable.prefixFree {T : CodeTable} (h : s.HoldsTable T) (hpf : T.prefixFree = true) :
    s.prefixFree s.tblCount.toNat = true := by
  obtain ⟨hcount, hT⟩ := h
  rw [State.prefixFree_iff_bits, hcount]
  rintro i j hi hj hij ⟨hlen, hbits⟩
  exact T.prefixFree_iff.1 hpf i j hi hj hij ((hT i hi).codes_prefix (hT j hj) hlen hbits)

theorem State.HoldsTable.codeBits_eq {T : CodeTable} (h : s.HoldsTable T) {k : Nat} (hk : k < T.length) :
    s.codeBits k = (T.getD k (0, [])).2 := by
  obtain ⟨-, hlen, hbits⟩ := h.2 k hk
  refine List.ext_getElem (by rw [State.length_codeBits, hlen]) fun j h1 h2 => ?_
  have hj := hbits j h2
  rw [← s.getD_codeBits (by rw [hlen]; exact h2)] at hj
  rwa [List.getD_eq_getElem _ _ h1, List.getD_eq_getElem _ _ h2] at hj

/-- The stored codes of entries, one after the other, are the table's. -/
theorem State.HoldsTable.flatMap_codeBits {T : CodeTable} (h : s.HoldsTable T) {ks : List Nat}
    (hks : ∀ k ∈ ks, k < T.length) : ks.flatMap s.codeBits = concatCodes T ks :=
  List.flatMap_congr fun k hk => h.codeBits_eq (hks k hk)

/-- A placed payload is at its first bit, or at its end if it has none (rule R162). -/
theorem State.payloadPlaced_atBit (s : State) : s.payloadPlaced.AtBit := by
  obtain ⟨hzero, hmore⟩ := s.payloadPlaced_phase
  exact ⟨fun h => hzero (BitVec.eq_of_toNat_eq h.symm), fun h => hmore fun hb => h (congrArg BitVec.toNat hb).symm⟩

/-- The codes a payload carries lie ahead once it is placed; its padding bits may be any (rules R115, R162). -/
theorem State.payloadPlaced_ahead {T : CodeTable} {payload : List Byte} {ks : List Nat}
    (hlen : payload.length = ceil8 s.bitlen.toNat) (hb : s.holdsBytes s.pos.toNat payload)
    (hcar : Carries s.bitlen T payload ks) : s.payloadPlaced.Ahead (concatCodes T ks) := by
  obtain ⟨-, hbits, hpay⟩ := hcar
  intro i hi
  rw [hbits] at hi
  have hcur : s.payloadPlaced.cursor.toNat + i = i := Nat.zero_add i
  have hbyte : i / 8 < payload.length := by rw [hlen, ceil8]; omega
  rw [hcur]
  exact ⟨hi, payload.getD (i / 8) 0, hb (i / 8) hbyte, hpay i hi⟩

/-- From P_CHECK on, a payload that carries entries of the loaded table decodes to their symbols (rules R162, R187). -/
theorem State.Inv.decodes_from_pCheck {T : CodeTable} {payload : List Byte} {ks : List Nat} (hs : s.Inv)
    (hturn : s.Turn 0x6#4) (hT : s.HoldsTable T) (hpf : T.prefixFree = true)
    (hlen : payload.length = ceil8 s.bitlen.toNat) (hb : s.holdsBytes s.pos.toNat payload)
    (hin : s.pos.toNat + payload.length ≤ s.inLen.toNat) (hcar : Carries s.bitlen T payload ks)
    (hroom : ks.length ≤ s.outCap.toNat) :
    ∃ t : State, runSteps (1 + (s.bitlen.toNat + 1)) s = .next t.complete ∧ DecodeFrame s.payloadPlaced t
      ∧ t.pos.toNat = s.pos.toNat + payload.length ∧ t.cursor = s.bitlen ∧ t.outLen.toNat = ks.length
      ∧ ∀ j, j < ks.length → t.outbuf.read j = some (T.getD (ks.getD j 0) (0, [])).1 := by
  obtain ⟨he, hr, hp⟩ := id hturn
  obtain ⟨hks, hbits, -⟩ := id hcar
  obtain ⟨hv, hout⟩ : s.tblValid = true ∧ s.outLen = 0#32 := by
    obtain ⟨-, -, -, -, ⟨h6, h0, -⟩⟩ := hs
    exact ⟨(h6 (by simp [hp])).1, (h0 hp).1⟩
  have hahead := State.payloadPlaced_ahead hlen hb hcar
  rw [hlen] at hin ⊢
  have hfree := hT.prefixFree hpf
  have hd : s.payloadPlaced.Decodes := ⟨he, hr, (hs.tblPf_eq hv).trans hfree, hfree, rfl⟩
  have hcodes : ks.flatMap s.payloadPlaced.codeBits = concatCodes T ks := hT.flatMap_codeBits hks
  obtain ⟨t, hrun, ht, hcur⟩ := hd.payload s.payloadPlaced_atBit rfl (fun _ => hs.one_le_len)
    (fun k hk => (hks k hk).trans_eq hT.1.symm) (hcodes ▸ hahead) rfl hout (hcodes ▸ hbits) hroom
  have hout0 : s.payloadPlaced.outLen.toNat = 0 := congrArg BitVec.toNat hout
  refine ⟨t, (runSteps_add _ (runSteps_one (hturn.step_eq.trans (execPCheck_present hin)))).trans hrun, ht.frame, ?_,
    hcur, ?_, fun j hj => ?_⟩
  · rw [ht.frame]
    exact State.toNat_pos_add hin
  · rw [ht.outLen, hout0, Nat.zero_add]
  · have hk : ks.getD j 0 < T.length := by
      rw [List.getD_eq_getElem _ _ hj]
      exact hks _ (List.getElem_mem hj)
    have hj' := ht.symbols j hj
    rw [hout0, Nat.zero_add] at hj'
    exact hj'.trans (congrArg some (hT.2 _ hk).1)

/-- HDR over a header's bytes (rule R160). -/
theorem State.Turn.reads_header {b : Word} (ht : s.Turn 0x1#4) (hb : s.holdsBytes s.pos.toNat (be32bytes b))
    (hin : s.pos.toNat + 4 ≤ s.inLen.toNat) :
    step s = .next (s.headerRead b) ∧ (s.headerRead b).Turn 0x2#4
      ∧ (s.headerRead b).pos.toNat = s.pos.toNat + 4 := by
  simp only [be32bytes, State.holdsBytes_cons] at hb
  obtain ⟨h0, h1, h2, h3, -⟩ := hb
  have e := execHdr_bytes hin h0 h1 h2 h3
  rw [be32_be32bytes] at e
  exact ⟨ht.step_eq.trans e, ht.next rfl rfl rfl, State.toNat_pos_add hin⟩

/-- A DECOMPRESS write while idle leaves the block at HDR, reading from IN_START, with nothing emitted (rule R212). -/
theorem step_decompress {ie : Bool} (hp : s.phase = 0#4) (hr : s.refused = none)
    (he : s.events = [.host (.csrWrite 1#10 (encodeCtrl 0x1#4 ie))]) :
    ∃ u, step s = .next u ∧ u.Turn 0x1#4 ∧ u.op = 1#2 ∧ u.pos = s.inStart ∧ u.tblCount = 0#9 ∧ u.err = false
      ∧ u.inbuf = s.inbuf ∧ u.inLen = s.inLen ∧ u.outCap = s.outCap := by
  have hdec : decodeCtrl (encodeCtrl 0x1#4 ie) = .decompress ie :=
    decodingAnEncodedInstructionGivesItBack (.decompress ie) rfl
  have e := (step_ctrlWrite he).trans (congrArg (exec · { s with events := [] }) hdec)
  exact ⟨_, e.trans (decompressStarts { s with events := [] } ie hp), ⟨rfl, hr, rfl⟩, rfl, rfl, rfl, rfl, rfl, rfl,
    rfl⟩

/-- Bytes that stand in INBUF stand there in every state with the same INBUF. -/
theorem State.holdsBytes_congr {a : Nat} {bytes : List Byte} (h : s.holdsBytes a bytes) (hbuf : t.inbuf = s.inbuf) :
    t.holdsBytes a bytes := by
  unfold State.holdsBytes
  rw [hbuf]
  exact h

/-- Settles O60: the command, HDR, the table steps, P_CHECK and the decoding, each over its part of the container. -/
theorem decompressGivesBackTheData : Obligations.DecompressGivesBackTheData := by
  intro s b T payload ks ie hs hp hr he hwf hpf hlen hb hin hcar hroom
  obtain ⟨u, hcmd, hturn, hop, hpos, hcount, herr, hbuf, hinLen, hcap⟩ := step_decompress hp hr he
  simp only [container, State.holdsBytes_append, List.length_append] at hb hin ⊢
  obtain ⟨⟨hbhdr, hbtable⟩, hbpay⟩ := hb
  have hhdr4 : (be32bytes b).length = 4 := rfl
  rw [hhdr4] at hin hbtable hbpay ⊢
  obtain ⟨hhdr, hturn2, hpos2⟩ := hturn.reads_header (hpos ▸ State.holdsBytes_congr hbhdr hbuf)
    (by rw [hpos, hinLen]; omega)
  rw [hpos] at hpos2
  obtain ⟨t, hload, hframe, -, htcount, htpos, hentries, -, hphase, -⟩ :=
    State.loads_wf_table hwf hturn2 (.inl hop) hcount (hpos2 ▸ State.holdsBytes_congr hbtable hbuf)
      (by rw [hpos2, show (u.headerRead b).inLen = s.inLen from hinLen]; omega)
  simp only [Nat.zero_add] at htcount hentries
  rw [hpos2, Nat.add_assoc] at htpos
  have htbuf : t.inbuf = s.inbuf := by rw [hframe]; exact hbuf
  have htlen : t.inLen = s.inLen := by rw [hframe]; exact hinLen
  have htcap : t.outCap = s.outCap := by rw [hframe]; exact hcap
  have htbit : t.bitlen = b := by rw [hframe]; rfl
  have ht : t.Inv := ((hs.of_step hcmd).of_step hhdr).of_runSteps _ hload
  obtain ⟨w, hrun, hwframe, hwpos, hwcur, hwout, hwbytes⟩ := ht.decodes_from_pCheck
    (hturn2.next (by rw [hframe]) (by rw [hframe]) (hphase hop)) ⟨htcount, hentries⟩ hpf (htbit ▸ hlen)
    (htpos ▸ State.holdsBytes_congr hbpay htbuf) (by rw [htpos, htlen]; omega) (htbit ▸ hcar) (htcap ▸ hroom)
  rw [htbit] at hrun hwcur
  obtain ⟨-, hur, -⟩ := hturn
  have hresult : w.complete.HasResult := by
    refine ⟨rfl, rfl, .inl ?_, ?_⟩
    · exact (show w.op = t.op by rw [hwframe]; rfl).trans ((show t.op = u.op by rw [hframe]; rfl).trans hop)
    · exact (show w.refused = t.refused by rw [hwframe]; rfl).trans
        ((show t.refused = u.refused by rw [hframe]; rfl).trans hur)
  refine ⟨w.complete, ?_, hresult, ?_, hwout, fun j hj => ?_, hwcur, ?_⟩
  · rw [show 1 + (1 + 4 * T.length + 1 + b.toNat + 1) = 1 + (1 + (4 * T.length + (1 + (b.toNat + 1)))) by omega,
      runSteps_add _ (runSteps_one hcmd), runSteps_add _ (runSteps_one hhdr), runSteps_add _ hload]
    exact hrun
  · exact (show w.err = t.err by rw [hwframe]; rfl).trans ((show t.err = u.err by rw [hframe]; rfl).trans herr)
  · rw [State.resultByte, if_pos ⟨hresult, hj.trans_eq hwout.symm⟩]
    exact hwbytes j hj
  · exact hwpos.trans (by rw [htpos, Nat.add_assoc])

end Sys2Proof.Machine
